-- ==== Sys2Proof/Word.lean ====
section
/-! DEFINITION. The widths of the SDES cipher core (00_scope R5, R6): a bit string of length n is an n-bit vector whose
first (leftmost) bit is the most significant one. -/

namespace Sys2Proof

/-- An interface register, and a character of a text (00_scope R5, R8: a character is a 32-bit code). -/
abbrev Word := BitVec 32

/-- One byte lane of the bus (20_memory R68). -/
abbrev Byte := BitVec 8

/-- The width of ROUNDS, P, Q, IN_LEN and of the ARG field (00_scope R5, 10_state R26, 30_encoding R90). -/
abbrev Half := BitVec 16

/-- BLOCK_SIZE = 12 bits (00_scope R5). -/
abbrev Block := BitVec 12

/-- HALF = 6 bits: the left or right half of a block, and the code of a symbol (00_scope R5). -/
abbrev HalfBlock := BitVec 6

/-- SUBKEY_LEN = EXPANDED_LEN = 8 bits (00_scope R5). -/
abbrev Subkey := BitVec 8

/-- KEY_LENGTH = 9 bits (00_scope R5). -/
abbrev KeyStream := BitVec 9

/-- SBOX_IN = 4 bits (00_scope R5). -/
abbrev SboxIn := BitVec 4

/-- SBOX_OUT = 3 bits (00_scope R5). -/
abbrev SboxOut := BitVec 3

/-- A table row packed in a register: 24 bits (40_config R129). -/
abbrev PackedRow := BitVec 24

end Sys2Proof
end

