-- ==== Sys2Proof/Syntax.lean ====
section
/-! DEFINITION. The fifteen commands (30_encoding R99), one constructor per row of the opcode table, with the fields of
the command word each one uses (R94, R95). -/

namespace Sys2Proof

/-- A parameter id (30_encoding R96). PIDs 9 to 15 decode and name no parameter. -/
inductive Pid where
  | rounds | blockSize | keyLength | encoding | p | q | sbox1 | sbox2 | pad
  | other (n : BitVec 4)
  deriving DecidableEq, Repr

/-- A chaining mode (30_encoding R97). MODEs 2 to 15 decode and are unsupported. -/
inductive Mode where
  | ecb | cbc
  | other (n : BitVec 4)
  deriving DecidableEq, Repr

/-- A table select (30_encoding R98). SEL 2 to 15 do not decode. -/
inductive Sel where
  | s1 | s2
  deriving DecidableEq, Repr

/-- One command. `len`, `bits` and `idx` are the ARG field (30_encoding R94). -/
inductive Instr where
  | setp (pid : Pid)
  | getp (pid : Pid)
  | expand (len : Half)
  | xor (len : Half)
  | subst (sel : Sel)
  | ffunc
  | round
  | bbs (bits : Half)
  | keystream
  | subkey (idx : Half)
  | encblk
  | decblk
  | ivgen
  | encrypt (mode : Mode)
  | decrypt (mode : Mode)
  deriving DecidableEq, Repr

end Sys2Proof
end

