-- ==== Sys2Proof/WellFormed.lean ====
section
/-! DEFINITION. When a command is one that some command word stands for: a parameter id or mode written as `other` is one
that has no name of its own (30_encoding R96, R97). Every value of LEN, BITS and IDX is encodable (R94). -/

namespace Sys2Proof

/-- `other n` stands for PID 9 to 15 only (30_encoding R96). -/
def Pid.wellFormed : Pid → Bool
  | .other n => decide (9 ≤ n.toNat)
  | .rounds | .blockSize | .keyLength | .encoding | .p | .q | .sbox1 | .sbox2 | .pad => true

/-- `other n` stands for MODE 2 to 15 only (30_encoding R97). -/
def Mode.wellFormed : Mode → Bool
  | .other n => decide (2 ≤ n.toNat)
  | .ecb | .cbc => true

def Instr.wellFormed : Instr → Bool
  | .setp pid => pid.wellFormed
  | .getp pid => pid.wellFormed
  | .encrypt mode => mode.wellFormed
  | .decrypt mode => mode.wellFormed
  | .expand _ | .xor _ | .subst _ | .ffunc | .round | .bbs _ | .keystream | .subkey _ | .encblk | .decblk | .ivgen => true

end Sys2Proof
end

