-- ==== Sys2Proof/Decode.lean ====
section
/-! DEFINITION. Decoding and encoding a command word (30_encoding R90 to R100). -/

namespace Sys2Proof

/-- Why a word does not decode; every one of them is BAD_COMMAND to the host (30_encoding R91). -/
inductive Reject where
  /-- OP is not in the opcode map (R99, R100). -/
  | reservedOpcode
  /-- RSV is not 0 (R92). -/
  | reservedBits
  /-- SUB is not 0 and the opcode does not use it (R93). -/
  | unusedSub
  /-- ARG is not 0 and the opcode does not use it (R93). -/
  | unusedArg
  /-- SUBST with SEL 2 to 15 (R98). -/
  | badSelect
  deriving DecidableEq, Repr

/-- The rows of the opcode map (30_encoding R99). -/
inductive Opcode where
  | setp | getp | expand | xor | subst | ffunc | round | bbs | keystream | subkey | encblk | decblk | ivgen | encrypt | decrypt
  deriving DecidableEq, Repr

namespace Opcode

/-- The OP column of 30_encoding R99. -/
def byte : Opcode → BitVec 8
  | .setp => 0x01#8
  | .getp => 0x02#8
  | .expand => 0x10#8
  | .xor => 0x11#8
  | .subst => 0x12#8
  | .ffunc => 0x13#8
  | .round => 0x14#8
  | .bbs => 0x20#8
  | .keystream => 0x21#8
  | .subkey => 0x22#8
  | .encblk => 0x30#8
  | .decblk => 0x31#8
  | .ivgen => 0x40#8
  | .encrypt => 0x41#8
  | .decrypt => 0x42#8

/-- The opcode map read the other way: `none` for the reserved OP values (30_encoding R100). -/
def ofByte (b : BitVec 8) : Option Opcode :=
  match b.toNat with
  | 0x01 => some .setp
  | 0x02 => some .getp
  | 0x10 => some .expand
  | 0x11 => some .xor
  | 0x12 => some .subst
  | 0x13 => some .ffunc
  | 0x14 => some .round
  | 0x20 => some .bbs
  | 0x21 => some .keystream
  | 0x22 => some .subkey
  | 0x30 => some .encblk
  | 0x31 => some .decblk
  | 0x40 => some .ivgen
  | 0x41 => some .encrypt
  | 0x42 => some .decrypt
  | _ => none

/-- The SUB column of 30_encoding R99: false where it holds "—". -/
def usesSub : Opcode → Bool
  | .setp | .getp | .subst | .encrypt | .decrypt => true
  | .expand | .xor | .ffunc | .round | .bbs | .keystream | .subkey | .encblk | .decblk | .ivgen => false

/-- The ARG column of 30_encoding R99: false where it holds "—". -/
def usesArg : Opcode → Bool
  | .expand | .xor | .bbs | .subkey => true
  | .setp | .getp | .subst | .ffunc | .round | .keystream | .encblk | .decblk | .ivgen | .encrypt | .decrypt => false

end Opcode

/-- 30_encoding R96. -/
def Pid.ofField (n : BitVec 4) : Pid :=
  match n.toNat with
  | 0 => .rounds
  | 1 => .blockSize
  | 2 => .keyLength
  | 3 => .encoding
  | 4 => .p
  | 5 => .q
  | 6 => .sbox1
  | 7 => .sbox2
  | 8 => .pad
  | _ => .other n

/-- 30_encoding R96. -/
def Pid.toField : Pid → BitVec 4
  | .rounds => 0#4
  | .blockSize => 1#4
  | .keyLength => 2#4
  | .encoding => 3#4
  | .p => 4#4
  | .q => 5#4
  | .sbox1 => 6#4
  | .sbox2 => 7#4
  | .pad => 8#4
  | .other n => n

/-- 30_encoding R97. -/
def Mode.ofField (n : BitVec 4) : Mode :=
  match n.toNat with
  | 0 => .ecb
  | 1 => .cbc
  | _ => .other n

/-- 30_encoding R97. -/
def Mode.toField : Mode → BitVec 4
  | .ecb => 0#4
  | .cbc => 1#4
  | .other n => n

/-- 30_encoding R98: SEL 2 to 15 select nothing. -/
def Sel.ofField? (n : BitVec 4) : Option Sel :=
  match n.toNat with
  | 0 => some .s1
  | 1 => some .s2
  | _ => none

/-- 30_encoding R98. -/
def Sel.toField : Sel → BitVec 4
  | .s1 => 0#4
  | .s2 => 1#4

/-- OP = w[7:0] (30_encoding R90). -/
def opField (w : Word) : BitVec 8 := w.extractLsb' 0 8

/-- SUB = w[11:8] (30_encoding R90). -/
def subField (w : Word) : BitVec 4 := w.extractLsb' 8 4

/-- RSV = w[15:12] (30_encoding R90). -/
def rsvField (w : Word) : BitVec 4 := w.extractLsb' 12 4

/-- ARG = w[31:16] (30_encoding R90). -/
def argField (w : Word) : Half := w.extractLsb' 16 16

/-- The command an opcode with its SUB and ARG fields stands for (30_encoding R94, R95, R99). -/
def assemble (op : Opcode) (sub : BitVec 4) (arg : Half) : Except Reject Instr :=
  match op with
  | .setp => .ok (.setp (Pid.ofField sub))
  | .getp => .ok (.getp (Pid.ofField sub))
  | .expand => .ok (.expand arg)
  | .xor => .ok (.xor arg)
  | .subst =>
    match Sel.ofField? sub with
    | some sel => .ok (.subst sel)
    | none => .error .badSelect
  | .ffunc => .ok .ffunc
  | .round => .ok .round
  | .bbs => .ok (.bbs arg)
  | .keystream => .ok .keystream
  | .subkey => .ok (.subkey arg)
  | .encblk => .ok .encblk
  | .decblk => .ok .decblk
  | .ivgen => .ok .ivgen
  | .encrypt => .ok (.encrypt (Mode.ofField sub))
  | .decrypt => .ok (.decrypt (Mode.ofField sub))

/-- The decoder, its checks in the order of 30_encoding R91. -/
def decode (w : Word) : Except Reject Instr :=
  match Opcode.ofByte (opField w) with
  | none => .error .reservedOpcode
  | some op =>
    if rsvField w ≠ 0#4 then .error .reservedBits
    else if subField w ≠ 0#4 ∧ op.usesSub = false then .error .unusedSub
    else if argField w ≠ 0#16 ∧ op.usesArg = false then .error .unusedArg
    else assemble op (subField w) (argField w)

/-- Little-endian byte lanes: lane 0 carries bits [7:0], lane 3 bits [31:24] (20_memory R68). -/
def wordOfBytes (b0 b1 b2 b3 : Byte) : Word := b3 ++ b2 ++ b1 ++ b0

/-- Byte lane k of a word, k from 0 to 3 (20_memory R68). -/
def laneOfWord (w : Word) (k : Nat) : Byte := w.extractLsb' (8 * k) 8

/-- The host's question: the command that a word of `nbits` bits, numbered as the opcode table numbers them, decodes to;
the bits above `nbits` are 0. The word is laid out in its four byte lanes and read back from them (20_memory R68). -/
def decodeTableWord (nbits w : Nat) : Option Instr :=
  let v : Word := BitVec.ofNat 32 (w % 2 ^ nbits)
  match decode (wordOfBytes (laneOfWord v 0) (laneOfWord v 1) (laneOfWord v 2) (laneOfWord v 3)) with
  | .ok i => some i
  | .error _ => none

/-- The word of an opcode with its SUB and ARG fields: `zext_32(OP) | (SUB << 8) | (ARG << 16)` (30_encoding R99). -/
def commandWord (op : Opcode) (sub : BitVec 4) (arg : Half) : Word :=
  op.byte.setWidth 32 ||| (sub.setWidth 32 <<< 8) ||| (arg.setWidth 32 <<< 16)

/-- The word of a command (30_encoding R99). -/
def encode : Instr → Word
  | .setp pid => commandWord .setp pid.toField 0#16
  | .getp pid => commandWord .getp pid.toField 0#16
  | .expand len => commandWord .expand 0#4 len
  | .xor len => commandWord .xor 0#4 len
  | .subst sel => commandWord .subst sel.toField 0#16
  | .ffunc => commandWord .ffunc 0#4 0#16
  | .round => commandWord .round 0#4 0#16
  | .bbs bits => commandWord .bbs 0#4 bits
  | .keystream => commandWord .keystream 0#4 0#16
  | .subkey idx => commandWord .subkey 0#4 idx
  | .encblk => commandWord .encblk 0#4 0#16
  | .decblk => commandWord .decblk 0#4 0#16
  | .ivgen => commandWord .ivgen 0#4 0#16
  | .encrypt mode => commandWord .encrypt mode.toField 0#16
  | .decrypt mode => commandWord .decrypt mode.toField 0#16

end Sys2Proof
end

