-- ==== Sys2Proof/Machine/Arith.lean ====
section
/-! DEFINITION. The modular arithmetic unit (41_arith R150 to R154), on exact natural numbers (R152): the primality test
and the greatest common divisor. Neither has a command of its own. -/

namespace Sys2Proof.Machine

/-- Trial division from d upward, at most `fuel` divisors: no d' with d ≤ d' and d' · d' ≤ n divides n. -/
def noDivisorFrom (n : Nat) : Nat → Nat → Bool
  | 0, _ => true
  | fuel + 1, d => if n < d * d then true else if n % d = 0 then false else noDivisorFrom n fuel (d + 1)

/-- isPrime(n) by trial division (41_arith R150): "returns true iff n is a prime". The division stops at the whole square
root of n. DEDUCED (log 13): R150 shows that trying ⌈√n⌉ as well makes no observable difference. -/
def isPrime (n : Nat) : Bool := decide (2 ≤ n) && noDivisorFrom n n 2

/-- gcd(a, b) (41_arith R151). `none` is its error for an operand that is not positive, which no command can reach: both
operands are positive at the only call site (42_keystream R163). -/
def gcd (a b : Nat) : Option Nat := if a = 0 ∨ b = 0 then none else some (Nat.gcd a b)

/-- "prime, ≡ 3 mod 4" (42_keystream R166): the test BBS makes of p and of q. -/
def primeThreeModFour (v : Nat) : Bool := isPrime v && decide (v % 4 = 3)

/-- validPQ(v) (40_config R127): at most 65535, prime, and v mod 4 = 3. -/
def validPQ (v : Nat) : Bool := decide (v ≤ 65535) && primeThreeModFour v

end Sys2Proof.Machine
end

