-- ==== Sys2Proof/Config.lean ====
section
/-! DEFINITION. What an implementation fixes (00_scope R5; 93_implementation_defined section 2), the constants the spec
fixes, and the free value (U1, U2). The OPEN parameters have no value here: `Config.chip` is an arbitrary configuration
that meets the spec's constraints, with no body, so nothing can be proved of it beyond them (log 2). -/

namespace Sys2Proof

/-- The OPEN parameters of the hardware (00_scope R5; 92 D5, D10 to D13). -/
structure Config where
  /-- ALPHABET: the ordered working alphabet; the symbol at index c has the 6-bit code c. -/
  alphabet : List Word
  /-- PRIME_TABLE, the seed source of BBS; `primeTable[j - 1]` is PRIME_TABLE[j], the spec's index starting at 1. -/
  primeTable : List Nat
  /-- TEXT_MAX: the capacity of TIN in characters. -/
  textMax : Nat
  /-- BASE: the bus address of offset 0 (20_memory R61). -/
  base : Nat
  resetRounds : Half
  resetP : Half
  resetQ : Half
  resetPad : Word
  deriving DecidableEq, Repr

namespace Config

/-- PRIME_TABLE_LEN (00_scope R5). -/
def primeTableLen (c : Config) : Nat := c.primeTable.length

/-- The entries stand in ascending order. Repeated entries are allowed, since the spec leaves that open (93 U5; log 11). -/
def ascending : List Nat → Bool
  | a :: b :: rest => decide (a ≤ b) && ascending (b :: rest)
  | _ => true

/-- The constraints of 00_scope R5 on the parameters. BASE is left free (log 9). -/
def wf (c : Config) : Bool :=
  decide (c.alphabet.length = 64) && decide c.alphabet.Nodup
  && decide (1 ≤ c.primeTable.length) && c.primeTable.all Machine.isPrime && ascending c.primeTable
  && decide (1 ≤ c.textMax) && decide (c.textMax ≤ 16383)
  && decide (2 ≤ c.resetRounds.toNat)
  && Machine.validPQ c.resetP.toNat && Machine.validPQ c.resetQ.toNat
  && decide (c.resetPad ∈ c.alphabet)

/-- BLOCK_SIZE, a constant (10_state R31). -/
def blockSize : Nat := 12

/-- KEY_LENGTH, derived: BLOCK_SIZE/2 + 3 (10_state R32). -/
def keyLength : Nat := blockSize / 2 + 3

/-- ENCODING_ID, a constant (10_state R33). -/
def encodingId : Nat := 0

/-- The ID register's constant, "SDES" in ASCII (10_state R25). -/
def idWord : Word := 0x53444553#32

end Config

/-- A configuration together with the fact that it meets the spec's constraints. The default values only show that one
exists; they are the value of nothing in the model. -/
structure ChipConfig where
  cfg : Config :=
    ⟨(List.range 64).map (BitVec.ofNat 32), [2, 3, 5, 7], 1, 0, 2#16, 3#16, 3#16, 0#32⟩
  wf : cfg.wf = true := by decide
  deriving Inhabited

/-- The chip this machine is: any configuration within the spec's constraints (92 D5, D10 to D13: OPEN; log 2). -/
opaque Config.chip : ChipConfig

/-- The n-th free value: what a host read returns where the spec leaves the value open (93 U1, U2; log 5). -/
opaque Config.freeWord : Nat → Word

end Sys2Proof
end

