-- ==== Sys2Proof/Machine/State.lean ====
section
/-! DEFINITION. The state of the machine. `CoreState` is the spec's own list of the whole state of the core
(10_state R41), field by field; `Bus` is the host's and the platform's side of the register window (20_memory R60, R70;
70_reset R340); `cfg` is the implementation's parameters, which no step changes (log 1, log 2). -/

namespace Sys2Proof.Machine

/-- The error codes (60_exceptions R300). Their numbers are `ErrorCode.code`. -/
inductive ErrorCode where
  | none | badCommand | unknownParam | invalidValue | readOnly | malformed | bbsBadP | bbsBadQ | bbsBadBits
  | seedUnavailable | sboxEmpty | badIndex | badMode | textTooLong
  deriving DecidableEq, Repr

/-- A table of 2 rows by 8 columns of 3-bit values (10_state R36): T[row][col]. -/
structure Table where
  row0 : Vector SboxOut 8
  row1 : Vector SboxOut 8
  deriving DecidableEq, Repr

/-- SBOX1 and SBOX2 are EMPTY ("unconfigured") or LOADED(T) (10_state R36). -/
inductive SBox where
  | empty
  | loaded (t : Table)
  deriving DecidableEq, Repr

/-- A text buffer (10_state R28, R29): the entries written since reset, as (index, character) pairs with the indices
strictly rising. An index that is not listed has not been written since reset, and no value is recorded for it (log 10). -/
abbrev Buffer := List (Nat × Word)

/-- The state of the core: exactly the items of 10_state R41. -/
structure CoreState where
  /-- OPA, the first operand (R21). -/
  opa : Word
  /-- OPB, the second operand (R21). -/
  opb : Word
  /-- RES0, the first result word (R21). -/
  res0 : Word
  /-- RES1, the second result word (R21). -/
  res1 : Word
  /-- RLEN, of which bits [5:0] are used (R21; log 12). -/
  rlen : BitVec 6
  /-- STATUS.ERR (R24, R42). -/
  err : Bool
  /-- STATUS.ERRCODE (R24, R42). -/
  errCode : ErrorCode
  /-- IN_LEN (R26). -/
  inLen : Half
  /-- OUT_LEN (R27; log 12). -/
  outLen : Word
  /-- TIN, the input text buffer (R28). -/
  tin : Buffer
  /-- TOUT, the output text buffer (R29). -/
  tout : Buffer
  /-- ROUNDS (R30). -/
  rounds : Half
  /-- P (R34). -/
  p : Half
  /-- Q (R34). -/
  q : Half
  /-- PAD (R35). -/
  pad : Word
  /-- SBOX1 (R36). -/
  sbox1 : SBox
  /-- SBOX2 (R36). -/
  sbox2 : SBox
  deriving DecidableEq, Repr

/-- What reaches the core from outside, one at a time (20_memory R60, R70; 70_reset R340, R341). The list of lanes of an
access has one entry for each byte lane the access is wide, lane 0 first (20_memory R68). -/
inductive Event where
  /-- A host read at a byte offset; an entry of `enables` says whether that byte lane is enabled. -/
  | read (offset : Nat) (enables : List Bool)
  /-- A host write at a byte offset; a lane that is not enabled carries `none`. -/
  | write (offset : Nat) (lanes : List (Option Byte))
  /-- The platform asserts the reset input (70_reset R340). -/
  | assertReset
  /-- The platform releases the reset input (70_reset R340). -/
  | releaseReset
  /-- A host write of w to CMD during which the platform asserts reset (70_reset R341). -/
  | cutCommand (w : Word)
  deriving DecidableEq, Repr

/-- The level of the reset input, and whether it cut a command short (70_reset R340, R341; 93 U4). -/
inductive ResetLine where
  | released
  | asserted
  /-- Asserted in the middle of a command: the host's CMD write has not completed, so the host has no step. -/
  | assertedMidCommand
  deriving DecidableEq, Repr

/-- The host's and the platform's side. All but `line` are the model's own fields (log 3, log 4, log 5). -/
structure Bus where
  /-- The events still to come, oldest first: each step takes the first. -/
  pending : List Event
  /-- The values that the host's reads have returned, oldest first. -/
  reads : List Word
  /-- The reset input. -/
  line : ResetLine
  /-- How many free values have been used; the next one is `Config.freeWord free`. -/
  free : Nat
  deriving DecidableEq, Repr

/-- The state of the machine. -/
structure State where
  /-- The implementation's parameters; no step changes them. -/
  cfg : Config
  /-- The core. -/
  core : CoreState
  /-- The host's and the platform's side. -/
  bus : Bus
  deriving DecidableEq, Repr

/-- Why the machine stops with a fault. -/
inductive Fault where
  /-- Raised by ENCRYPT and DECRYPT when they read a TIN entry that has not been written since reset: the treatment the
  spec orders (93 U1; 45_modes R253; 60_exceptions R308). Safe: nothing is proved of such a run. -/
  | unwrittenText
  /-- Raised by a bus access while the host waits for a CMD write that a reset cut short: "the host agent has no step
  until reset is released" (93 U4). A stuck state. Safe: nothing is proved of such a run. -/
  | hostStalled
  deriving DecidableEq, Repr

/-- What is wrong with a table file that has no hardware form in this core (43_sbox R191; 93 U8). -/
inductive TableFlaw where
  /-- Not exactly two lines. -/
  | lineCount
  /-- A row without exactly eight entries. -/
  | entryCount
  /-- An entry without exactly three digits. -/
  | entryWidth
  /-- An entry with a digit that is not binary. -/
  | notBinary
  deriving DecidableEq, Repr

/-- Why the model gives something no meaning: an access, or a table file. -/
inductive Refusal where
  /-- Raised by no meaning: for an instruction that `exec` does not model yet. Safe. -/
  | notModelled (mnemonic : String)
  /-- Raised by an access outside the defined set: misaligned, partial, wider or narrower than 32 bits, or at an offset of
  0x30000 or above: "the access has no step" (93 U3; 20_memory R63). Safe. -/
  | undefinedAccess
  /-- Raised by an access made while reset is asserted, whose effect the spec leaves open: "refuse for an access during
  reset" (93 U4; 70_reset R340). Safe. -/
  | accessDuringReset
  /-- Raised by no step: by the transcriber `transcribeTable`, for a table file that has no hardware form: it "refuses such a
  file by name. It never truncates or pads the file" (93 U8; 43_sbox R191). Safe. -/
  | tableFile (flaw : TableFlaw)
  deriving DecidableEq, Repr

/-- The core when reset is released (10_state R43; 70_reset R340). -/
def CoreState.reset (cfg : Config) : CoreState where
  opa := 0#32
  opb := 0#32
  res0 := 0#32
  res1 := 0#32
  rlen := 0#6
  err := false
  errCode := .none
  inLen := 0#16
  outLen := 0#32
  tin := []
  tout := []
  rounds := cfg.resetRounds
  p := cfg.resetP
  q := cfg.resetQ
  pad := cfg.resetPad
  sbox1 := .empty
  sbox2 := .empty

/-- The machine right after reset, waiting for the first host access (70_reset R343). -/
def State.reset : State where
  cfg := Config.chip.cfg
  core := CoreState.reset Config.chip.cfg
  bus := { pending := [], reads := [], line := .released, free := 0 }

end Sys2Proof.Machine
end

