-- ==== Sys2Proof/Machine/Operands.lean ====
section
/-! DEFINITION. How a command reads its operands: the ARG field (30_encoding R94), a bit string in a register
(20_memory R69) with the check that it has no bits above its width (92 D18), a packed table row (40_config R129), and the
symbols of the alphabet (00_scope R8, 45_modes R252). -/

namespace Sys2Proof.Machine

/-- LEN and BITS: ARG as an unsigned number (30_encoding R94). -/
abbrev lenOfArg (arg : Half) : Nat := arg.toNat

/-- IDX: ARG sign-extended and read as a two's-complement integer (30_encoding R94). -/
def idxOfArg (arg : Half) : Int := (arg.signExtend 32).toInt

/-- The register holds a bit string of n bits: no bit at n or above is set, `v[31:n] = 0` (92 D18). -/
def fits (n : Nat) (v : Word) : Bool := decide (v.toNat < 2 ^ n)

/-- The bit string of n bits in a register: `v[n-1:0]` (20_memory R69). -/
def bitString (n : Nat) (v : Word) : BitVec n := v.extractLsb' 0 n

/-- pack(row): entry c stands in bits [3c+2:3c] (40_config R129). -/
def packRow (row : Vector SboxOut 8) : PackedRow :=
  row[7] ++ row[6] ++ row[5] ++ row[4] ++ row[3] ++ row[2] ++ row[1] ++ row[0]

/-- unpack(w): entry c is `w[3c+2 : 3c]` (40_config R129). -/
def unpackRow (w : PackedRow) : Vector SboxOut 8 := Vector.ofFn fun c => w.extractLsb' (3 * c.val) 3

/-- unpackTable(a, b): row 0 from a, row 1 from b (40_config R129). -/
def unpackTable (a b : PackedRow) : Table := { row0 := unpackRow a, row1 := unpackRow b }

/-- ch ∈ ALPHABET, by exact equality of the 32-bit codes (45_modes R252). -/
def inAlphabet (cfg : Config) (ch : Word) : Bool := decide (ch ∈ cfg.alphabet)

/-- code(ch): the index of ch in ALPHABET (00_scope R8). Used only for ch ∈ ALPHABET. -/
def codeOf (cfg : Config) (ch : Word) : HalfBlock := BitVec.ofNat 6 (cfg.alphabet.idxOf ch)

/-- sym(c) = ALPHABET[c] (00_scope R8). The default is never taken: ALPHABET has 64 entries (log 15). -/
def symOf (cfg : Config) (c : HalfBlock) : Word := cfg.alphabet.getD c.toNat 0#32

end Sys2Proof.Machine
end

