-- ==== Sys2Proof/Machine/Flags.lean ====
section
/-! DEFINITION. The STATUS register (10_state R24): the one flag ERR with its companion ERRCODE (R42), and the two views
of the table state. -/

namespace Sys2Proof.Machine

/-- The number of an error code (60_exceptions R300). -/
def ErrorCode.code : ErrorCode → BitVec 8
  | .none => 0#8
  | .badCommand => 1#8
  | .unknownParam => 2#8
  | .invalidValue => 3#8
  | .readOnly => 4#8
  | .malformed => 5#8
  | .bbsBadP => 6#8
  | .bbsBadQ => 7#8
  | .bbsBadBits => 8#8
  | .seedUnavailable => 9#8
  | .sboxEmpty => 10#8
  | .badIndex => 11#8
  | .badMode => 12#8
  | .textTooLong => 13#8

/-- isEmpty(SBOXn) negated (43_sbox R192): the view that S1_LOADED and S2_LOADED give (10_state R24). -/
def SBox.isLoaded : SBox → Bool
  | .empty => false
  | .loaded _ => true

/-- The word that a read of STATUS returns (10_state R24): bits 31:18 and 7:1 read as 0. -/
def statusWord (c : CoreState) : Word :=
  0#14 ++ BitVec.ofBool c.sbox2.isLoaded ++ BitVec.ofBool c.sbox1.isLoaded ++ c.errCode.code ++ 0#7 ++ BitVec.ofBool c.err

end Sys2Proof.Machine
end

