-- ==== Sys2Proof/Machine/Ops.lean ====
section
/-! DEFINITION. The shared operations: reading and writing the text buffers, the success outcome and the error outcome of
a command (10_state R22; 60_exceptions R301, R302), and drawing a free value. -/

namespace Sys2Proof.Machine

/-- The entry at index k, or `none` where it has not been written since reset (10_state R28, R29). -/
def Buffer.read (b : Buffer) (k : Nat) : Option Word := b.lookup k

/-- Entry k becomes v, and every other entry is left as it is (10_state R28, R29). -/
def Buffer.write (b : Buffer) (k : Nat) (v : Word) : Buffer :=
  match b with
  | [] => [(k, v)]
  | (j, u) :: rest =>
    if k < j then (k, v) :: (j, u) :: rest
    else if k = j then (k, v) :: rest
    else (j, u) :: Buffer.write rest k v

/-- Entries k, k+1, … become the characters of the text (45_modes R263: `TOUT[k] <- out[k]`). -/
def Buffer.writeText (b : Buffer) (k : Nat) : List Word → Buffer
  | [] => b
  | v :: rest => Buffer.writeText (b.write k v) (k + 1) rest

/-- Entries k … k+n-1, or `none` where one of them has not been written since reset (45_modes R253). -/
def Buffer.readText (b : Buffer) (k : Nat) : Nat → Option (List Word)
  | 0 => some []
  | n + 1 =>
    match b.read k, Buffer.readText b (k + 1) n with
    | some v, some rest => some (v :: rest)
    | _, _ => none

/-- The canonical form of a buffer of `size` entries whose listed indices are at least `low`: the indices rise strictly
and lie below `size`. -/
def Buffer.wfFrom (low size : Nat) : Buffer → Bool
  | [] => true
  | (k, _) :: rest => decide (low ≤ k) && decide (k < size) && Buffer.wfFrom (k + 1) size rest

/-- The canonical form of a buffer of `size` entries (log 10). -/
def Buffer.wf (size : Nat) (b : Buffer) : Bool := Buffer.wfFrom 0 size b

/-- What a successful command leaves in RES0, RES1 and RLEN (10_state R22). "A command with no bit-string result writes
RES0 = RES1 = 0 and RLEN = 0": the default. -/
structure Result where
  res0 : Word := 0#32
  res1 : Word := 0#32
  rlen : BitVec 6 := 0#6
  deriving DecidableEq, Repr

/-- The result of a bit string of n bits, zero-extended into RES0 (10_state R22). -/
def Result.ofBits {n : Nat} (v : BitVec n) : Result := { res0 := v.setWidth 32, rlen := BitVec.ofNat 6 n }

/-- The success outcome (60_exceptions R302): ERR = 0, ERRCODE = 0, and the results the command's rule states. -/
def CoreState.succeed (c : CoreState) (r : Result) : CoreState :=
  { c with err := false, errCode := .none, res0 := r.res0, res1 := r.res1, rlen := r.rlen }

/-- The error outcome (60_exceptions R301), the core's one form of an exception. It does not trap: nothing is saved but
the code, and control goes nowhere (R305, R306). -/
def CoreState.raise (c : CoreState) (e : ErrorCode) : CoreState :=
  { c with err := true, errCode := e, res0 := 0#32, res1 := 0#32, rlen := 0#6 }

/-- The error outcome of ENCRYPT and DECRYPT: OUT_LEN becomes 0 as well (60_exceptions R301; 45_modes R265). -/
def CoreState.raiseText (c : CoreState) (e : ErrorCode) : CoreState := { c.raise e with outLen := 0#32 }

/-- The success outcome of ENCRYPT and DECRYPT: the text goes to TOUT[0 …], its length to OUT_LEN, and the entries beyond
keep what they held (10_state R27, R29; 45_modes R263). -/
def CoreState.succeedText (c : CoreState) (out : List Word) : CoreState :=
  { c.succeed {} with tout := c.tout.writeText 0 out, outLen := BitVec.ofNat 32 out.length }

/-- A check of a command: when it fails, the command ends with that error (00_scope R9: `raise Error(code)`). -/
def require (ok : Bool) (e : ErrorCode) : Except ErrorCode Unit := if ok then .ok () else .error e

/-- The whole outcome of a command that has a result: the first check that failed, or the result
(60_exceptions R301 to R303). -/
def CoreState.complete (c : CoreState) : Except ErrorCode Result → CoreState
  | .ok r => c.succeed r
  | .error e => c.raise e

/-- A command's effect on the core, the rest of the machine left as it is (20_memory R66). -/
def State.onCore (s : State) (f : CoreState → CoreState) : State := { s with core := f s.core }

/-- The next state with its next free value used (93 U1, U2; log 5). -/
def State.drawFree (s : State) : Word × State :=
  (Config.freeWord s.bus.free, { s with bus := { s.bus with free := s.bus.free + 1 } })

end Sys2Proof.Machine
end

