-- ==== Sys2Proof/Machine/KeyStream.lean ====
section
/-! DEFINITION. The key-stream generator (42_keystream): BBS, KEYSTREAM and SUBKEY. -/

namespace Sys2Proof.Machine

/-- The seed search (42_keystream R163): from position n, counted from 1, the first entry coprime to n; `none` where the
search runs past the end of PRIME_TABLE. -/
def seedSearch (primeTable : List Nat) (n : Nat) : Option Nat :=
  (primeTable.drop (n - 1)).find? fun s => decide (gcd n s = some 1)

/-- The output bits b_1 … b_bits of the recurrence that stands at x (42_keystream R164): each iteration squares, then emits
x mod 2. -/
def bbsStream (n x : Nat) : Nat → List Bool
  | 0 => []
  | bits + 1 =>
    let x' := x * x % n
    decide (x' % 2 = 1) :: bbsStream n x' bits

/-- The value of a bit string, its first bit most significant (42_keystream R165; 00_scope R6). -/
def bitsValue (bits : List Bool) : Nat := bits.foldl (fun v b => 2 * v + b.toNat) 0

/-- BBS(p, q, bits) (42_keystream R160 to R166), with the validity checks in the order of R166. -/
def bbs (cfg : Config) (p q bits : Nat) : Except ErrorCode Nat := do
  require (decide (1 ≤ p) && primeThreeModFour p) .bbsBadP
  require (decide (1 ≤ q) && primeThreeModFour q) .bbsBadQ
  require (decide (1 ≤ bits ∧ bits ≤ 32)) .bbsBadBits
  match seedSearch cfg.primeTable (p * q) with
  | none => .error .seedUnavailable
  | some s => return bitsValue (bbsStream (p * q) (s * s % (p * q)) bits)

/-- BBS's result: a bit string of `bits` bits (42_keystream R167). -/
def bbsResult (cfg : Config) (bits : Half) (c : CoreState) : Except ErrorCode Result := do
  let v ← bbs cfg c.opa.toNat c.opb.toNat (lenOfArg bits)
  return { res0 := BitVec.ofNat 32 v, rlen := BitVec.ofNat 6 (lenOfArg bits) }

/-- BBS (42_keystream R167). -/
def execBbs (bits : Half) (s : State) : Host.Outcome State Fault Refusal :=
  .next <| s.onCore fun c => c.complete (bbsResult s.cfg bits c)

/-- KeyStream: K = BBS(P, Q, 9), computed anew by every command that needs it (42_keystream R170, R171; 10_state R39). -/
def keyStream (cfg : Config) (c : CoreState) : Except ErrorCode KeyStream := do
  let v ← bbs cfg c.p.toNat c.q.toNat Config.keyLength
  return BitVec.ofNat 9 v

/-- KEYSTREAM (42_keystream R172). -/
def execKeystream (s : State) : Host.Outcome State Fault Refusal :=
  .next <| s.onCore fun c => c.complete do
    let k ← keyStream s.cfg c
    return Result.ofBits k

/-- The key-stream bit k_{(t mod 9) + 1}: k_1 is the most significant bit, `K[8]` (42_keystream R170, R174). -/
def keyBit (k : KeyStream) (t : Nat) : BitVec 1 := BitVec.ofBool (k.getLsbD (8 - t % 9))

/-- Subkey(i), i ≥ 1 (42_keystream R174): the circular window of eight key-stream bits from offset (i − 1) mod 9. -/
def subkey (k : KeyStream) (i : Nat) : Subkey :=
  let o := (i - 1) % 9
  keyBit k o ++ keyBit k (o + 1) ++ keyBit k (o + 2) ++ keyBit k (o + 3) ++ keyBit k (o + 4) ++ keyBit k (o + 5)
    ++ keyBit k (o + 6) ++ keyBit k (o + 7)

/-- SUBKEY's result; the index is checked before the key stream (42_keystream R175, R176). -/
def subkeyResult (cfg : Config) (idx : Half) (c : CoreState) : Except ErrorCode Result := do
  require (decide (0 < idxOfArg idx)) .badIndex
  let k ← keyStream cfg c
  return Result.ofBits (subkey k (idxOfArg idx).toNat)

/-- SUBKEY (42_keystream R176). -/
def execSubkey (idx : Half) (s : State) : Host.Outcome State Fault Refusal :=
  .next <| s.onCore fun c => c.complete (subkeyResult s.cfg idx c)

end Sys2Proof.Machine
end

