-- ==== Sys2Proof/Machine/Substitution.lean ====
section
/-! DEFINITION. The substitution tables (43_sbox): the substitute function and SUBST. -/

namespace Sys2Proof.Machine

/-- substitute(LOADED(t), v) = t[v[3]][v[2:0]] (43_sbox R193). -/
def substitute (t : Table) (v : SboxIn) : SboxOut :=
  let row := if v.getLsbD 3 then t.row1 else t.row0
  let col := v.extractLsb' 0 3
  row[col.toNat]'col.isLt

/-- The table a command needs, or SBOX_EMPTY (43_sbox R194). -/
def SBox.table : SBox → Except ErrorCode Table
  | .empty => .error .sboxEmpty
  | .loaded t => .ok t

/-- Both tables, or SBOX_EMPTY where either is EMPTY (44_feistel R218, R219). -/
def bothTables (c : CoreState) : Except ErrorCode (Table × Table) := do
  let t1 ← c.sbox1.table
  let t2 ← c.sbox2.table
  return (t1, t2)

/-- The substitution multiplexer of SUBST (43_sbox R195, R196). -/
def selectTable (c : CoreState) : Sel → SBox
  | .s1 => c.sbox1
  | .s2 => c.sbox2

/-- SUBST's result (43_sbox R196). -/
def substResult (sel : Sel) (c : CoreState) : Except ErrorCode Result := do
  require (fits 4 c.opa) .malformed
  let t ← (selectTable c sel).table
  return Result.ofBits (substitute t (bitString 4 c.opa))

/-- SUBST (43_sbox R196). -/
def execSubst (sel : Sel) (s : State) : Host.Outcome State Fault Refusal :=
  .next <| s.onCore fun c => c.complete (substResult sel c)

end Sys2Proof.Machine
end

