-- ==== Sys2Proof/Machine/Feistel.lean ====
section
/-! DEFINITION. The Feistel round engine (44_feistel): EXPAND, XOR, FFUNC, ROUND, ENCBLK and DECBLK. -/

namespace Sys2Proof.Machine

/-- The value of expand(R) for a bit string R of even length n ≥ 2 with value v (44_feistel R210, R212). With m = n/2 and
the middle pair r_m = v[n-m], r_{m+1} = v[n-m-1], the slices are v[n-1 : n-m+1], the pattern r_{m+1} r_m r_{m+1} r_m, and
v[n-m-2 : 0]. -/
def expandValue (n v : Nat) : Nat :=
  let m := n / 2
  let rm := (v.testBit (n - m)).toNat
  let rm1 := (v.testBit (n - m - 1)).toNat
  let high := v / 2 ^ (n - m + 1)
  let pattern := 8 * rm1 + 4 * rm + 2 * rm1 + rm
  let low := v % 2 ^ (n - m - 1)
  (high * 16 + pattern) * 2 ^ (n - m - 1) + low

/-- EXPAND's result; LEN is even, from 2 to 30 (44_feistel R211, R212). -/
def expandResult (len : Half) (c : CoreState) : Except ErrorCode Result := do
  let n := lenOfArg len
  require (decide (n % 2 = 0 ∧ 2 ≤ n ∧ n ≤ 30)) .malformed
  require (fits n c.opa) .malformed
  return { res0 := BitVec.ofNat 32 (expandValue n c.opa.toNat), rlen := BitVec.ofNat 6 (n + 2) }

/-- EXPAND (44_feistel R212). -/
def execExpand (len : Half) (s : State) : Host.Outcome State Fault Refusal :=
  .next <| s.onCore fun c => c.complete (expandResult len c)

/-- XOR's result; LEN is from 1 to 32 (44_feistel R214, R215). -/
def xorResult (len : Half) (c : CoreState) : Except ErrorCode Result := do
  let n := lenOfArg len
  require (decide (1 ≤ n ∧ n ≤ 32)) .malformed
  require (fits n c.opa && fits n c.opb) .malformed
  return { res0 := (bitString n c.opa ^^^ bitString n c.opb).setWidth 32, rlen := BitVec.ofNat 6 n }

/-- XOR (44_feistel R215). -/
def execXor (len : Half) (s : State) : Host.Outcome State Fault Refusal :=
  .next <| s.onCore fun c => c.complete (xorResult len c)

/-- The 6-bit expander used by F, bit by bit (44_feistel R213). -/
def expandHalf (r : HalfBlock) : Subkey :=
  let b := fun i => BitVec.ofBool (r.getLsbD i)
  b 5 ++ b 4 ++ b 2 ++ b 3 ++ b 2 ++ b 3 ++ b 1 ++ b 0

/-- F(R, k) (44_feistel R218). -/
def fFunction (t1 t2 : Table) (r : HalfBlock) (k : Subkey) : HalfBlock :=
  let e := expandHalf r ^^^ k
  substitute t1 (e.extractLsb' 4 4) ++ substitute t2 (e.extractLsb' 0 4)

/-- FFUNC's result (44_feistel R219). -/
def ffuncResult (c : CoreState) : Except ErrorCode Result := do
  require (fits 6 c.opa && fits 8 c.opb) .malformed
  let (t1, t2) ← bothTables c
  return Result.ofBits (fFunction t1 t2 (bitString 6 c.opa) (bitString 8 c.opb))

/-- FFUNC (44_feistel R219). -/
def execFfunc (s : State) : Host.Outcome State Fault Refusal :=
  .next <| s.onCore fun c => c.complete (ffuncResult c)

/-- L = B[11:6] (44_feistel R222). -/
def leftHalf (b : Block) : HalfBlock := b.extractLsb' 6 6

/-- R = B[5:0] (44_feistel R222). -/
def rightHalf (b : Block) : HalfBlock := b.extractLsb' 0 6

/-- swap(L ‖ R) = R ‖ L (44_feistel R224, R230). -/
def swapHalves (b : Block) : Block := rightHalf b ++ leftHalf b

/-- feistelRound(B, k) = R ‖ (L ⊕ F(R, k)) (44_feistel R222). -/
def feistelRound (t1 t2 : Table) (b : Block) (k : Subkey) : Block :=
  rightHalf b ++ (leftHalf b ^^^ fFunction t1 t2 (rightHalf b) k)

/-- ROUND's result (44_feistel R223). -/
def roundResult (c : CoreState) : Except ErrorCode Result := do
  require (fits 12 c.opa && fits 8 c.opb) .malformed
  let (t1, t2) ← bothTables c
  return Result.ofBits (feistelRound t1 t2 (bitString 12 c.opa) (bitString 8 c.opb))

/-- ROUND (44_feistel R223). -/
def execRound (s : State) : Host.Outcome State Fault Refusal :=
  .next <| s.onCore fun c => c.complete (roundResult c)

/-- Subkey(1), …, Subkey(r), the subkeys in ascending order (44_feistel R230). -/
def roundKeys (k : KeyStream) (r : Nat) : List Subkey := (List.range r).map fun t => subkey k (t + 1)

/-- Enc(B): the rounds with ascending subkey index, then the final swap (44_feistel R230). -/
def encBlock (t1 t2 : Table) (k : KeyStream) (r : Nat) (b : Block) : Block :=
  swapHalves ((roundKeys k r).foldl (feistelRound t1 t2) b)

/-- Dec(C): the same rounds with descending subkey index, then the final swap (44_feistel R232; 90_conflicts C2). -/
def decBlock (t1 t2 : Table) (k : KeyStream) (r : Nat) (b : Block) : Block :=
  swapHalves ((roundKeys k r).reverse.foldl (feistelRound t1 t2) b)

/-- What ENCBLK, DECBLK, ENCRYPT and DECRYPT read of the configuration before the first round: the key stream, then the
tables (44_feistel R231; 60_exceptions R303). -/
def cipherKey (cfg : Config) (c : CoreState) : Except ErrorCode (KeyStream × Table × Table) := do
  let k ← keyStream cfg c
  let (t1, t2) ← bothTables c
  return (k, t1, t2)

/-- ENCBLK's result (44_feistel R231). -/
def encblkResult (cfg : Config) (c : CoreState) : Except ErrorCode Result := do
  require (fits 12 c.opa) .malformed
  let (k, t1, t2) ← cipherKey cfg c
  return Result.ofBits (encBlock t1 t2 k c.rounds.toNat (bitString 12 c.opa))

/-- ENCBLK (44_feistel R231). -/
def execEncblk (s : State) : Host.Outcome State Fault Refusal :=
  .next <| s.onCore fun c => c.complete (encblkResult s.cfg c)

/-- DECBLK's result (44_feistel R233). -/
def decblkResult (cfg : Config) (c : CoreState) : Except ErrorCode Result := do
  require (fits 12 c.opa) .malformed
  let (k, t1, t2) ← cipherKey cfg c
  return Result.ofBits (decBlock t1 t2 k c.rounds.toNat (bitString 12 c.opa))

/-- DECBLK (44_feistel R233). -/
def execDecblk (s : State) : Host.Outcome State Fault Refusal :=
  .next <| s.onCore fun c => c.complete (decblkResult s.cfg c)

end Sys2Proof.Machine
end

