-- ==== Sys2Proof/Machine/Modes.lean ====
section
/-! DEFINITION. The block-chaining mode controller (45_modes): IVGEN, ENCRYPT and DECRYPT. -/

namespace Sys2Proof.Machine

/-- The bits of runs t, t+1, …: run t has length t+1 and is of 1s for even t, of 0s for odd t (45_modes R250). -/
def ivRuns (t : Nat) : Nat → List Bool
  | 0 => []
  | runs + 1 => List.replicate (t + 1) (decide (t % 2 = 0)) ++ ivRuns (t + 1) runs

/-- The IV: the runs truncated to block_size bits (45_modes R250). Five runs have 15 bits. -/
def iv : Block := BitVec.ofNat 12 (bitsValue ((ivRuns 0 5).take Config.blockSize))

/-- IVGEN (45_modes R251). -/
def execIvgen (s : State) : Host.Outcome State Fault Refusal :=
  .next <| s.onCore fun c => c.succeed (Result.ofBits iv)

/-- getPositions(t): the out-of-alphabet characters with their indices, ascending (45_modes R254). -/
def getPositions (cfg : Config) (t : List Word) : List (Word × Nat) := t.zipIdx.filter fun p => !inAlphabet cfg p.1

/-- cleanText(t): the text without its out-of-alphabet characters (45_modes R255). -/
def cleanText (cfg : Config) (t : List Word) : List Word := t.filter (inAlphabet cfg)

/-- insertPositions(o, pos): each character put back at its index, in list order (45_modes R256). -/
def insertPositions (o : List Word) (pos : List (Word × Nat)) : List Word :=
  pos.foldl (fun out p => out.take p.2 ++ p.1 :: out.drop p.2) o

/-- The clean text with one PAD appended where its length is odd (45_modes R257). -/
def padText (pad : Word) (c : List Word) : List Word := if c.length % 2 = 1 then c ++ [pad] else c

/-- The blocks of a padded clean text: two symbols each, the first one in the high 6 bits (45_modes R258). -/
def blocksOf (cfg : Config) : List Word → List Block
  | a :: b :: rest => (codeOf cfg a ++ codeOf cfg b) :: blocksOf cfg rest
  | _ => []

/-- The two symbols of each block, in order (45_modes R258). -/
def symbolsOf (cfg : Config) : List Block → List Word
  | [] => []
  | x :: rest => symOf cfg (leftHalf x) :: symOf cfg (rightHalf x) :: symbolsOf cfg rest

/-- ECB: each block on its own (45_modes R259). -/
def ecbCrypt (f : Block → Block) (bs : List Block) : List Block := bs.map f

/-- CBC encryption from a chain value: X_b = Enc(B_b ⊕ chain), and the chain becomes X_b (45_modes R260). -/
def cbcEncrypt (enc : Block → Block) (chain : Block) : List Block → List Block
  | [] => []
  | b :: rest =>
    let x := enc (b ^^^ chain)
    x :: cbcEncrypt enc x rest

/-- CBC decryption from a chain value: X_b = Dec(B_b) ⊕ chain, and the chain becomes B_b (45_modes R260). -/
def cbcDecrypt (dec : Block → Block) (chain : Block) : List Block → List Block
  | [] => []
  | b :: rest => (dec b ^^^ chain) :: cbcDecrypt dec b rest

/-- The trailing-pad strip of decryption: every trailing PAD goes (45_modes R261). -/
def stripPad (pad : Word) (out : List Word) : List Word := (out.reverse.dropWhile fun ch => ch == pad).reverse

/-- A direction and mode of the controller: the block function, made of the tables, the key stream and ROUNDS, and the
chaining of that function over the blocks of a text. -/
structure Transform where
  block : Table → Table → KeyStream → Nat → Block → Block
  chain : (Block → Block) → List Block → List Block

/-- ECB encryption (45_modes R259). -/
def ecbEncryption : Transform := { block := encBlock, chain := ecbCrypt }

/-- CBC encryption, its chain value starting at IV (45_modes R260). -/
def cbcEncryption : Transform := { block := encBlock, chain := fun enc => cbcEncrypt enc iv }

/-- ECB decryption (45_modes R259). -/
def ecbDecryption : Transform := { block := decBlock, chain := ecbCrypt }

/-- CBC decryption, its chain value starting at IV (45_modes R260). -/
def cbcDecryption : Transform := { block := decBlock, chain := fun dec => cbcDecrypt dec iv }

/-- The text a command makes of the text t, before the strip (45_modes R263, R266): preprocess, transform the blocks,
reinsert. The key stream and the tables are checked only where there is a block (R267). -/
def cryptText (cfg : Config) (c : CoreState) (f : Transform) (t : List Word) : Except ErrorCode (List Word) := do
  match blocksOf cfg (padText c.pad (cleanText cfg t)) with
  | [] => return insertPositions [] (getPositions cfg t)
  | b :: bs => do
    let (k, t1, t2) ← cipherKey cfg c
    let xs := f.chain (f.block t1 t2 k c.rounds.toNat) (b :: bs)
    return insertPositions (symbolsOf cfg xs) (getPositions cfg t)

/-- ENCRYPT's text (45_modes R263). -/
def encryptText (cfg : Config) (c : CoreState) (f : Transform) (t : List Word) : Except ErrorCode (List Word) :=
  cryptText cfg c f t

/-- DECRYPT's text: the strip runs after reinsertion, over the whole text (45_modes R261, R266). -/
def decryptText (cfg : Config) (c : CoreState) (f : Transform) (t : List Word) : Except ErrorCode (List Word) := do
  let out ← cryptText cfg c f t
  return stripPad c.pad out

/-- The outcome of a text command whose mode is supported, `run` making its text (45_modes R263 to R266): the length check,
then the text TIN[0 … IN_LEN−1]. A TIN entry not written since reset is the fault of 93 U1 (log 6). -/
def textCommand (run : CoreState → List Word → Except ErrorCode (List Word)) (s : State) :
    Host.Outcome State Fault Refusal :=
  if s.cfg.textMax < s.core.inLen.toNat then .next (s.onCore fun c => c.raiseText .textTooLong)
  else
    match s.core.tin.readText 0 s.core.inLen.toNat with
    | none => .fault .unwrittenText
    | some t => .next <| s.onCore fun c =>
      match run c t with
      | .ok out => c.succeedText out
      | .error e => c.raiseText e

/-- ENCRYPT (45_modes R262, R263). -/
def execEncrypt (mode : Mode) (s : State) : Host.Outcome State Fault Refusal :=
  match mode with
  | .ecb => textCommand (fun c => encryptText s.cfg c ecbEncryption) s
  | .cbc => textCommand (fun c => encryptText s.cfg c cbcEncryption) s
  | .other _ => .next (s.onCore fun c => c.raiseText .badMode)

/-- DECRYPT (45_modes R262, R266). -/
def execDecrypt (mode : Mode) (s : State) : Host.Outcome State Fault Refusal :=
  match mode with
  | .ecb => textCommand (fun c => decryptText s.cfg c ecbDecryption) s
  | .cbc => textCommand (fun c => decryptText s.cfg c cbcDecryption) s
  | .other _ => .next (s.onCore fun c => c.raiseText .badMode)

end Sys2Proof.Machine
end

