-- ==== Sys2Proof/Machine/Params.lean ====
section
/-! DEFINITION. SETP and GETP, the validated setter and the getter of the configuration (40_config). -/

namespace Sys2Proof.Machine

/-- A row register of SETP sbox1 or sbox2: bits [31:24] must be 0 (40_config R128). -/
def rowOf (v : Word) : Except ErrorCode PackedRow := do
  require (fits 24 v) .invalidValue
  return bitString 24 v

/-- SETP's table operands: OPA is row 0 and OPB is row 1 (40_config R128). -/
def tableOperand (c : CoreState) : Except ErrorCode SBox := do
  let a ← rowOf c.opa
  let b ← rowOf c.opb
  return .loaded (unpackTable a b)

/-- What SETP makes of the core before its outcome is written: the one item its PID names, or nothing (40_config R121 to
R130). -/
def setParam (cfg : Config) (c : CoreState) : Pid → Except ErrorCode CoreState
  | .rounds => do
    require (decide (2 ≤ c.opa.toNat ∧ c.opa.toNat ≤ 65535)) .invalidValue
    return { c with rounds := bitString 16 c.opa }
  | .blockSize => do
    require (decide (c.opa.toNat = Config.blockSize)) .invalidValue
    return c
  | .keyLength => .error .readOnly
  | .encoding => do
    require (decide (c.opa.toNat = Config.encodingId)) .invalidValue
    return c
  | .p => do
    require (validPQ c.opa.toNat) .invalidValue
    return { c with p := bitString 16 c.opa }
  | .q => do
    require (validPQ c.opa.toNat) .invalidValue
    return { c with q := bitString 16 c.opa }
  | .sbox1 => do
    let t ← tableOperand c
    return { c with sbox1 := t }
  | .sbox2 => do
    let t ← tableOperand c
    return { c with sbox2 := t }
  | .pad => do
    require (inAlphabet cfg c.opa) .invalidValue
    return { c with pad := c.opa }
  | .other _ => .error .unknownParam

/-- SETP (40_config R122). -/
def execSetp (pid : Pid) (s : State) : Host.Outcome State Fault Refusal :=
  .next <| s.onCore fun c =>
    match setParam s.cfg c pid with
    | .ok c' => c'.succeed {}
    | .error e => c.raise e

/-- A scalar parameter read back: a whole word, RLEN = 32 (40_config R135). -/
def scalar (v : Word) : Result := Result.ofBits v

/-- A table read back: its two packed rows and RLEN = 24, or the empty result for EMPTY (40_config R135, R136). -/
def tableResult : SBox → Result
  | .empty => {}
  | .loaded t => { res0 := (packRow t.row0).setWidth 32, res1 := (packRow t.row1).setWidth 32, rlen := 24#6 }

/-- What GETP returns (40_config R135). -/
def getParam (c : CoreState) : Pid → Except ErrorCode Result
  | .rounds => .ok (scalar (c.rounds.setWidth 32))
  | .blockSize => .ok (scalar (BitVec.ofNat 32 Config.blockSize))
  | .keyLength => .ok (scalar (BitVec.ofNat 32 Config.keyLength))
  | .encoding => .ok (scalar (BitVec.ofNat 32 Config.encodingId))
  | .p => .ok (scalar (c.p.setWidth 32))
  | .q => .ok (scalar (c.q.setWidth 32))
  | .sbox1 => .ok (tableResult c.sbox1)
  | .sbox2 => .ok (tableResult c.sbox2)
  | .pad => .ok (scalar c.pad)
  | .other _ => .error .unknownParam

/-- GETP (40_config R135). -/
def execGetp (pid : Pid) (s : State) : Host.Outcome State Fault Refusal :=
  .next <| s.onCore fun c => c.complete (getParam c pid)

end Sys2Proof.Machine
end

