-- ==== Sys2Proof/Machine/Dispatch.lean ====
section
/-! DEFINITION. One arm per command: each calls the command's own meaning. -/

namespace Sys2Proof.Machine

def exec (i : Instr) (s : State) : Host.Outcome State Fault Refusal :=
  match i with
  | .setp pid => Sys2Proof.Machine.execSetp pid s
  | .getp pid => Sys2Proof.Machine.execGetp pid s
  | .expand len => Sys2Proof.Machine.execExpand len s
  | .xor len => Sys2Proof.Machine.execXor len s
  | .subst sel => Sys2Proof.Machine.execSubst sel s
  | .ffunc => Sys2Proof.Machine.execFfunc s
  | .round => Sys2Proof.Machine.execRound s
  | .bbs bits => Sys2Proof.Machine.execBbs bits s
  | .keystream => Sys2Proof.Machine.execKeystream s
  | .subkey idx => Sys2Proof.Machine.execSubkey idx s
  | .encblk => Sys2Proof.Machine.execEncblk s
  | .decblk => Sys2Proof.Machine.execDecblk s
  | .ivgen => Sys2Proof.Machine.execIvgen s
  | .encrypt mode => Sys2Proof.Machine.execEncrypt mode s
  | .decrypt mode => Sys2Proof.Machine.execDecrypt mode s

end Sys2Proof.Machine
end

