-- ==== Sys2Proof/Machine/Command.lean ====
section
/-! DEFINITION. One write of a word to CMD: decode it, then run the command's own rule (10_state R23; 30_encoding R91). -/

namespace Sys2Proof.Machine

/-- The command w. A word that does not decode has the error outcome BAD_COMMAND and changes nothing else, OUT_LEN
included (30_encoding R91, R100; 60_exceptions R301). -/
def runCommand (w : Word) (s : State) : Host.Outcome State Fault Refusal :=
  match decode w with
  | .ok i => exec i s
  | .error _ => .next (s.onCore fun c => c.raise .badCommand)

end Sys2Proof.Machine
end

