-- ==== Sys2Proof/Machine/Access.lean ====
section
/-! DEFINITION. The register window (20_memory): the address map, and what a defined host read or write does. -/

namespace Sys2Proof.Machine

/-- A register of the address map (20_memory R62). -/
inductive RegName where
  | id | cmd | status | rlen | opa | opb | res0 | res1 | inLen | outLen | cap
  | tin (k : Nat)
  | tout (k : Nat)
  /-- A reserved offset: reads as zero, writes ignored (20_memory R64). -/
  | reserved
  deriving DecidableEq, Repr

/-- The register window's size in bytes (20_memory R61). -/
abbrev windowBytes : Nat := 0x30000

/-- The offset of TIN[0] (20_memory R62). -/
abbrev tinOffset : Nat := 0x10000

/-- The offset of TOUT[0] (20_memory R62). -/
abbrev toutOffset : Nat := 0x20000

/-- The address map (20_memory R62): the register at an offset that is a multiple of 4 within the window. -/
def regAt (cfg : Config) (offset : Nat) : RegName :=
  if offset = 0x000 then .id
  else if offset = 0x004 then .cmd
  else if offset = 0x008 then .status
  else if offset = 0x00C then .rlen
  else if offset = 0x010 then .opa
  else if offset = 0x014 then .opb
  else if offset = 0x018 then .res0
  else if offset = 0x01C then .res1
  else if offset = 0x020 then .inLen
  else if offset = 0x024 then .outLen
  else if offset = 0x028 then .cap
  else if offset < tinOffset then .reserved
  else if offset < toutOffset then
    if (offset - tinOffset) / 4 < cfg.textMax then .tin ((offset - tinOffset) / 4) else .reserved
  else if (offset - toutOffset) / 4 ≤ cfg.textMax then .tout ((offset - toutOffset) / 4) else .reserved

/-- The offset of a named register (20_memory R62); `reserved` names the first reserved offset. -/
def RegName.offset : RegName → Nat
  | .id => 0x000
  | .cmd => 0x004
  | .status => 0x008
  | .rlen => 0x00C
  | .opa => 0x010
  | .opb => 0x014
  | .res0 => 0x018
  | .res1 => 0x01C
  | .inLen => 0x020
  | .outLen => 0x024
  | .cap => 0x028
  | .tin k => tinOffset + 4 * k
  | .tout k => toutOffset + 4 * k
  | .reserved => 0x02C

/-- An access is defined when its offset is a multiple of 4 in the window and it is 32 bits wide; its lanes are looked at
separately (20_memory R63). -/
def offsetDefined (offset : Nat) : Bool := decide (offset % 4 = 0 ∧ offset < windowBytes)

/-- A read is defined when it is aligned, in the window, and has exactly four lanes, all enabled (20_memory R63). -/
def readDefined (offset : Nat) (enables : List Bool) : Bool :=
  offsetDefined offset && decide (enables = [true, true, true, true])

/-- The word of a write with exactly four lanes, all enabled; `none` for any other width or a partial write
(20_memory R63, R68). -/
def writeWord : List (Option Byte) → Option Word
  | [some b0, some b1, some b2, some b3] => some (wordOfBytes b0 b1 b2 b3)
  | _ => none

/-- What a register reads as (20_memory R64, R65; 10_state R21 to R29). `none` is an entry of TIN or TOUT not written since
reset, whose value the spec leaves open (93 U1, U2). -/
def regValue (cfg : Config) (c : CoreState) : RegName → Option Word
  | .id => some Config.idWord
  | .cmd => some 0#32
  | .status => some (statusWord c)
  | .rlen => some (c.rlen.setWidth 32)
  | .opa => some c.opa
  | .opb => some c.opb
  | .res0 => some c.res0
  | .res1 => some c.res1
  | .inLen => some (c.inLen.setWidth 32)
  | .outLen => some c.outLen
  | .cap => some ((BitVec.ofNat 16 cfg.textMax).setWidth 32)
  | .tin k => c.tin.read k
  | .tout k => c.tout.read k
  | .reserved => some 0#32

/-- The value v is returned to the host (log 4). -/
def State.returnRead (s : State) (v : Word) : State := { s with bus := { s.bus with reads := s.bus.reads ++ [v] } }

/-- A defined host read: it returns the register's value and has no side effect on the core (20_memory R66). Where the spec
leaves the value open the host gets a free value (93 U1, U2; log 5). -/
def hostRead (r : RegName) (s : State) : State :=
  match regValue s.cfg s.core r with
  | some v => s.returnRead v
  | none => s.drawFree.2.returnRead s.drawFree.1

/-- A defined host write. OPA, OPB, IN_LEN and TIN[k] store their value, IN_LEN bits [15:0] only; CMD performs a command;
every other register ignores it (20_memory R64 to R66). -/
def hostWrite (r : RegName) (w : Word) (s : State) : Host.Outcome State Fault Refusal :=
  match r with
  | .opa => .next (s.onCore fun c => { c with opa := w })
  | .opb => .next (s.onCore fun c => { c with opb := w })
  | .inLen => .next (s.onCore fun c => { c with inLen := bitString 16 w })
  | .tin k => .next (s.onCore fun c => { c with tin := c.tin.write k w })
  | .cmd => runCommand w s
  | .id | .status | .rlen | .res0 | .res1 | .outLen | .cap | .tout _ | .reserved => .next s

end Sys2Proof.Machine
end

