-- ==== Sys2Proof/Machine/Events.lean ====
section
/-! DEFINITION. What one event does: a host access, an edge of the reset input, or a command cut short by reset
(20_memory R63, R70; 70_reset R340, R341; 93 U3, U4). -/

namespace Sys2Proof.Machine

/-- The reset input takes a level; while it is asserted the core's contents cannot be seen, and the model leaves them as
they are (log 8). -/
def State.setLine (s : State) (line : ResetLine) : State := { s with bus := { s.bus with line := line } }

/-- Reset is released: every item of the core holds its reset value (70_reset R340), whatever a cut command had done
(R341). -/
def State.releaseReset (s : State) : State := { s.setLine .released with core := CoreState.reset s.cfg }

/-- An access while the reset input is released (20_memory R63 to R66); anything outside the defined set is refused
(93 U3). -/
def accessReleased (e : Event) (s : State) : Host.Outcome State Fault Refusal :=
  match e with
  | .read offset enables =>
    if readDefined offset enables then .next (hostRead (regAt s.cfg offset) s) else .refused .undefinedAccess
  | .write offset lanes =>
    match offsetDefined offset, writeWord lanes with
    | true, some w => hostWrite (regAt s.cfg offset) w s
    | _, _ => .refused .undefinedAccess
  | .cutCommand _ => .next (s.setLine .assertedMidCommand)
  | .assertReset => .next (s.setLine .asserted)
  | .releaseReset => .next s

/-- One event (log 8). A released reset input that is released again, and an asserted one that is asserted again, keep
their level. While reset is asserted an access is refused; after a cut CMD write the host has no step (93 U4). -/
def performEvent (e : Event) (s : State) : Host.Outcome State Fault Refusal :=
  match s.bus.line, e with
  | .released, e => accessReleased e s
  | .asserted, .releaseReset | .assertedMidCommand, .releaseReset => .next s.releaseReset
  | .asserted, .assertReset | .assertedMidCommand, .assertReset => .next s
  | .asserted, .read _ _ | .asserted, .write _ _ | .asserted, .cutCommand _ => .refused .accessDuringReset
  | .assertedMidCommand, .read _ _ | .assertedMidCommand, .write _ _ | .assertedMidCommand, .cutCommand _ =>
    .fault .hostStalled

/-- The lanes of a whole 32-bit write, all enabled (20_memory R63, R68). -/
def lanesOfWord (w : Word) : List (Option Byte) :=
  [some (laneOfWord w 0), some (laneOfWord w 1), some (laneOfWord w 2), some (laneOfWord w 3)]

/-- A defined write of w to a register: "wr REG, w" (30_encoding R102, R104). -/
def writeEvent (r : RegName) (w : Word) : Event := .write r.offset (lanesOfWord w)

/-- A defined read of a register: "rd REG" (30_encoding R102, R104). -/
def readEvent (r : RegName) : Event := .read r.offset [true, true, true, true]

/-- The next event is taken from the pending ones; with none pending the core waits (70_reset R343; 20_memory R60). -/
def nextEvent (s : State) : Host.Outcome State Fault Refusal :=
  match s.bus.pending with
  | [] => .next s
  | e :: rest => performEvent e { s with bus := { s.bus with pending := rest } }

/-- Events appended to the pending ones: how a host program comes to run (log 3). -/
def State.issue (s : State) (es : List Event) : State := { s with bus := { s.bus with pending := s.bus.pending ++ es } }

/-- The offset of a bus address within the register window: offset a is bus address BASE + a (20_memory R61, R76); an
address outside the window does not reach the core. -/
def offsetOfAddress (cfg : Config) (address : Nat) : Option Nat :=
  if cfg.base ≤ address ∧ address < cfg.base + windowBytes then some (address - cfg.base) else none

/-- A word write by the host at a bus address, as the platform passes it to the core (20_memory R61, R76; log 9). -/
def State.issueWriteAt (s : State) (address : Nat) (w : Word) : State :=
  match offsetOfAddress s.cfg address with
  | some offset => s.issue [.write offset (lanesOfWord w)]
  | none => s

/-- A word read by the host at a bus address, as the platform passes it to the core (20_memory R61, R76; log 9). -/
def State.issueReadAt (s : State) (address : Nat) : State :=
  match offsetOfAddress s.cfg address with
  | some offset => s.issue [.read offset [true, true, true, true]]
  | none => s

end Sys2Proof.Machine
end

