-- ==== Sys2Proof/Machine/Program.lean ====
section
/-! DEFINITION. The assembly notation for host programs (30_encoding R102 to R104): access lines, command lines and
pseudo-instructions, each standing for a list of bus accesses; and the transcriber of a table's file form (43_sbox R191). -/

namespace Sys2Proof.Machine

/-- One line of a host program (30_encoding R102, R103). -/
inductive Line where
  /-- `wr REG, imm`. -/
  | wr (r : RegName) (imm : Word)
  /-- `rd REG`. -/
  | rd (r : RegName)
  /-- A command line stands for `wr CMD, w`. -/
  | command (i : Instr)
  /-- `set pid, imm` (pid not sbox1 or sbox2). -/
  | set (pid : Pid) (imm : Word)
  /-- `ldsbox s1, r0, r1` and `ldsbox s2, r0, r1`. -/
  | ldsbox (sel : Sel) (t : Table)
  /-- `get pid`. -/
  | get (pid : Pid)
  /-- `puttext "c0 c1 … cn-1"`. -/
  | puttext (text : List Word)
  /-- `gettext`, the number of characters being the OUT_LEN the host has read (log 16). -/
  | gettext (outLen : Nat)
  /-- `check`. -/
  | check
  deriving DecidableEq, Repr

/-- `wr TIN[k], c` for the characters from index k (30_encoding R103). -/
def putEvents (k : Nat) : List Word → List Event
  | [] => []
  | ch :: rest => writeEvent (.tin k) ch :: putEvents (k + 1) rest

/-- The SETP that loads a table (30_encoding R103). -/
def Sel.tablePid : Sel → Pid
  | .s1 => .sbox1
  | .s2 => .sbox2

/-- The accesses a line expands to (30_encoding R102 to R104). -/
def Line.events : Line → List Event
  | .wr r imm => [writeEvent r imm]
  | .rd r => [readEvent r]
  | .command i => [writeEvent .cmd (encode i)]
  | .set pid imm => [writeEvent .opa imm, writeEvent .cmd (encode (.setp pid))]
  | .ldsbox sel t =>
    [writeEvent .opa ((packRow t.row0).setWidth 32), writeEvent .opb ((packRow t.row1).setWidth 32),
      writeEvent .cmd (encode (.setp (Sel.tablePid sel)))]
  | .get pid => [writeEvent .cmd (encode (.getp pid)), readEvent .res0]
  | .puttext text => putEvents 0 text ++ [writeEvent .inLen (BitVec.ofNat 32 text.length)]
  | .gettext outLen => readEvent .outLen :: (List.range outLen).map fun k => readEvent (.tout k)
  | .check => [readEvent .status]

/-- The accesses of a program, in order (30_encoding R104). -/
def programEvents (lines : List Line) : List Event := lines.flatMap Line.events

/-- The entries of a line of a table file: what stands between its hyphens (43_sbox R191). -/
def entriesOf : List Char → List (List Char)
  | [] => [[]]
  | c :: rest =>
    if c = '-' then [] :: entriesOf rest
    else match entriesOf rest with
      | [] => [[c]]
      | e :: es => (c :: e) :: es

/-- A binary digit. -/
def digitBit (c : Char) : Except Refusal Bool :=
  if c = '0' then .ok false else if c = '1' then .ok true else .error (.tableFile .notBinary)

/-- One entry of a table file: exactly three binary digits, the first one most significant (43_sbox R191; 00_scope R6). -/
def transcribeEntry : List Char → Except Refusal SboxOut
  | [d2, d1, d0] => do
    let b2 ← digitBit d2
    let b1 ← digitBit d1
    let b0 ← digitBit d0
    return BitVec.ofBool b2 ++ BitVec.ofBool b1 ++ BitVec.ofBool b0
  | _ => .error (.tableFile .entryWidth)

/-- One line of a table file: exactly eight entries, entry c being column c (43_sbox R191; 40_config R129). Any other line
has no hardware form and is refused by name, never truncated or padded (93 U8). -/
def transcribeRow (line : List Char) : Except Refusal (Vector SboxOut 8) :=
  match entriesOf line with
  | [e0, e1, e2, e3, e4, e5, e6, e7] => do
    let v0 ← transcribeEntry e0
    let v1 ← transcribeEntry e1
    let v2 ← transcribeEntry e2
    let v3 ← transcribeEntry e3
    let v4 ← transcribeEntry e4
    let v5 ← transcribeEntry e5
    let v6 ← transcribeEntry e6
    let v7 ← transcribeEntry e7
    return #v[v0, v1, v2, v3, v4, v5, v6, v7]
  | _ => .error (.tableFile .entryCount)

/-- A table file, given as its lines: exactly two, line 0 = row 0 and line 1 = row 1; any other file is refused by name
(43_sbox R191; 93 U8; log 16). -/
def transcribeTable : List (List Char) → Except Refusal Table
  | [line0, line1] => do
    let row0 ← transcribeRow line0
    let row1 ← transcribeRow line1
    return { row0 := row0, row1 := row1 }
  | _ => .error (.tableFile .lineCount)

/-- The accesses by which the host loads a table file: those of `ldsbox` with the packed rows. A refused file gives none:
"The host must not load it" (43_sbox R191; 30_encoding R103). -/
def tableFileEvents (sel : Sel) (file : List (List Char)) : Except Refusal (List Event) :=
  (transcribeTable file).map fun t => (Line.ldsbox sel t).events

end Sys2Proof.Machine
end

