-- ==== Sys2Proof/Machine/Step.lean ====
section
/-! DEFINITION. One step of the machine, and the placing of a command where the next step runs it. -/

namespace Sys2Proof.Machine

/-- One step: the next pending event, or waiting where there is none (20_memory R60, R70; 70_reset R343). -/
def step (s : State) : Host.Outcome State Fault Refusal := nextEvent s

/-- The state whose very next step is a host write to CMD of the word whose `nbits` bits are w, numbered as the opcode
table numbers them, with the reset input released (log 3). Nothing else changes. -/
def State.withFetchWord (s : State) (nbits w : Nat) : State :=
  { s with bus := { s.bus with
      pending := writeEvent .cmd (BitVec.ofNat 32 (w % 2 ^ nbits)) :: s.bus.pending
      line := .released } }

end Sys2Proof.Machine
end

