-- ==== Sys2Proof/Safety.lean ====
section
/-! DEFINITION. What a safe state and a safe run are. -/

namespace Sys2Proof.Machine

/-- The configuration invariant (10_state R37), for the items that can vary. BLOCK_SIZE and KEY_LENGTH are constants. -/
def ConfigInv (cfg : Config) (c : CoreState) : Prop :=
  2 ≤ c.rounds.toNat ∧ validPQ c.p.toNat = true ∧ validPQ c.q.toNat = true ∧ c.pad ∈ cfg.alphabet

/-- The bounds and links of the other registers: ERR and ERRCODE say the same (10_state R42); RLEN is at most 32 (R21);
OUT_LEN is at most TEXT_MAX + 1 (R27), and TOUT[0 … OUT_LEN−1] has been written (R27, R29). -/
def OutcomeInv (cfg : Config) (c : CoreState) : Prop :=
  (c.err = false ↔ c.errCode = .none) ∧ c.rlen.toNat ≤ 32 ∧ c.outLen.toNat ≤ cfg.textMax + 1 ∧
  (∀ k, k < c.outLen.toNat → (c.tout.read k).isSome)

/-- The two text buffers are in canonical form, with every index within the buffer (10_state R28, R29). -/
def BufferInv (cfg : Config) (c : CoreState) : Prop :=
  c.tin.wf cfg.textMax = true ∧ c.tout.wf (cfg.textMax + 1) = true

/-- The invariant of the machine. -/
def State.Inv (s : State) : Prop :=
  s.cfg.wf = true ∧ ConfigInv s.cfg s.core ∧ OutcomeInv s.cfg s.core ∧ BufferInv s.cfg s.core

/-- The step neither stops with a fault nor is refused. -/
def StepSafe (s : State) : Prop := ∃ t, step s = .next t

/-- Every text entry that a text command would read has been written since reset (93 U1: such a program "is
unaffected"). -/
def TextWritten (c : CoreState) : Prop := ∀ k, k < c.inLen.toNat → (c.tin.read k).isSome

end Sys2Proof.Machine
end

