-- ==== Sys2Proof/Certificates/Slice0/Obligations.lean ====
section
/-! DEFINITION. The statements about the machine, each from a rule of the spec. -/

open Sys2Proof Sys2Proof.Machine

/-! ### Words the statements share -/

/-- The command completes with its own effect: `exec` answers the next state in which ERR = 0, ERRCODE = NONE, RES0, RES1
and RLEN are as given, and everything else is as it was (10_state R22; 60_exceptions R302). -/
def Sys2Proof.Statement.CompletesWith (i : Instr) (s : State) (r0 r1 : Word) (len : Nat) : Prop :=
  exec i s = .next { s with core := { s.core with
    err := false, errCode := .none, res0 := r0, res1 := r1, rlen := BitVec.ofNat 6 len } }

/-- The command fails with the code e: `exec` answers the next state in which ERR = 1, ERRCODE = e, RES0 = RES1 = 0 and
RLEN = 0, and everything else is as it was (60_exceptions R301). -/
def Sys2Proof.Statement.FailsWith (i : Instr) (s : State) (e : ErrorCode) : Prop :=
  exec i s = .next { s with core := { s.core with err := true, errCode := e, res0 := 0#32, res1 := 0#32, rlen := 0#6 } }

/-- ENCRYPT or DECRYPT fails with the code e: the error outcome, and OUT_LEN = 0 (60_exceptions R301; 45_modes R265). -/
def Sys2Proof.Statement.TextFailsWith (i : Instr) (s : State) (e : ErrorCode) : Prop :=
  exec i s = .next { s with core := { s.core with
    err := true, errCode := e, res0 := 0#32, res1 := 0#32, rlen := 0#6, outLen := 0#32 } }

/-- A text command completes with its own effect: the text `out` in TOUT[0 …], its length in OUT_LEN, every other TOUT entry
and everything else as it was (10_state R29; 45_modes R263). -/
def Sys2Proof.Statement.TextCompletesWith (i : Instr) (s : State) (out : List Word) : Prop :=
  ∃ tout : Buffer,
    exec i s = .next { s with core := { s.core with
      err := false, errCode := .none, res0 := 0#32, res1 := 0#32, rlen := 0#6,
      tout := tout, outLen := BitVec.ofNat 32 out.length } } ∧
    ∀ k, tout.read k = if k < out.length then out[k]? else s.core.tout.read k

/-- SETP sets one item: `exec` answers the next state whose core is c with the success outcome and no result
(40_config R122). -/
def Sys2Proof.Statement.SetsTo (pid : Pid) (s : State) (c : CoreState) : Prop :=
  exec (.setp pid) s = .next { s with core := { c with
    err := false, errCode := .none, res0 := 0#32, res1 := 0#32, rlen := 0#6 } }

/-- The text that a text command reads: TIN[0 … IN_LEN−1], each entry written since reset (45_modes R253). -/
def Sys2Proof.Statement.InputText (s : State) (t : List Word) : Prop :=
  t.length = s.core.inLen.toNat ∧ ∀ j, j < t.length → s.core.tin.read j = t[j]?

/-- The key stream and the tables that a cipher command uses are there (42_keystream R170; 44_feistel R231). -/
def Sys2Proof.Statement.CipherReady (s : State) (k : KeyStream) (t1 t2 : Table) : Prop :=
  keyStream s.cfg s.core = .ok k ∧ s.core.sbox1 = .loaded t1 ∧ s.core.sbox2 = .loaded t2

/-- The entries of a list rise strictly. -/
def Sys2Proof.Statement.StrictlyAscending (l : List Nat) : Prop := l.Pairwise (· < ·)

/-- The clean text with its pad, given by its own rules: the alphabet characters of t in order, and one PAD where their
number is odd (45_modes R255, R257). -/
def Sys2Proof.Statement.PaddedClean (s : State) (t c : List Word) : Prop :=
  c = t.filter (· ∈ s.cfg.alphabet) ++ (if (t.filter (· ∈ s.cfg.alphabet)).length % 2 = 1 then [s.core.pad] else [])

/-- The alphabet characters of `out`, in order, are the symbols of the blocks xs, two for each block (45_modes R258). -/
def Sys2Proof.Statement.ShowsBlocks (s : State) (out : List Word) (xs : List Block) : Prop :=
  (out.filter (· ∈ s.cfg.alphabet)).length = 2 * xs.length ∧
  ∀ (b : Nat) (x : Block), xs[b]? = some x →
    (out.filter (· ∈ s.cfg.alphabet))[2 * b]? = s.cfg.alphabet[(x.extractLsb' 6 6).toNat]? ∧
    (out.filter (· ∈ s.cfg.alphabet))[2 * b + 1]? = s.cfg.alphabet[(x.extractLsb' 0 6).toNat]?

/-- The out-of-alphabet characters of t stand in `out` at the same indices, and `out` has no others (45_modes R256, R268). -/
def Sys2Proof.Statement.KeepsForeign (s : State) (t out : List Word) : Prop :=
  (∀ (j : Nat) (ch : Word), t[j]? = some ch → ch ∉ s.cfg.alphabet → out[j]? = some ch) ∧
  (∀ (j : Nat) (ch : Word), out[j]? = some ch → ch ∉ s.cfg.alphabet → t[j]? = some ch)

/-- The number that STATUS.ERRCODE shows for each error, as the table of 60_exceptions R300 lists it: all that a host ever
sees of an error's name. -/
def Sys2Proof.Statement.errorNumber : ErrorCode → Nat
  | .none => 0
  | .badCommand => 1
  | .unknownParam => 2
  | .invalidValue => 3
  | .readOnly => 4
  | .malformed => 5
  | .bbsBadP => 6
  | .bbsBadQ => 7
  | .bbsBadBits => 8
  | .seedUnavailable => 9
  | .sboxEmpty => 10
  | .badIndex => 11
  | .badMode => 12
  | .textTooLong => 13

/-- The source's file form of a row: the eight entries in column order, each as its three binary digits with the most
significant first, separated by hyphens (43_sbox R191; 40_config R129). -/
def Sys2Proof.Statement.fileRow (row : Vector SboxOut 8) : List Char :=
  ['-'].intercalate (row.toList.map fun v =>
    [v.getLsbD 2, v.getLsbD 1, v.getLsbD 0].map fun b => if b then '1' else '0')

/-- The source's file form of a table: line 0 = row 0, line 1 = row 1 (43_sbox R191). -/
def Sys2Proof.Statement.fileOf (t : Table) : List (List Char) := [fileRow t.row0, fileRow t.row1]

open Sys2Proof.Statement

/-! ### Encoding -/

/-- 30_encoding R99: no bit of an encoding is dropped. -/
def Obligations.DecodeInvertsEncode : Prop :=
  ∀ i : Instr, i.wellFormed = true → decode (encode i) = .ok i

/-- 30_encoding R91, R99: every word that decodes is the word of the well-formed command it decodes to, so no two words
decode to one command. -/
def Obligations.EncodeInvertsDecode : Prop :=
  ∀ (w : Word) (i : Instr), decode w = .ok i → i.wellFormed = true ∧ encode i = w

/-- 30_encoding R99, its worked words: "SETP p is 0x00000401, BBS 8 is 0x00080020, SUBKEY −1 is 0xFFFF0022, and ENCRYPT cbc
is 0x00000141", and one word of each other family. -/
def Obligations.WrittenOutWordsDecode : Prop :=
  decode 0x00000401#32 = .ok (.setp .p) ∧ decode 0x00000202#32 = .ok (.getp .keyLength) ∧
  decode 0x00060010#32 = .ok (.expand 6#16) ∧ decode 0x00000112#32 = .ok (.subst .s2) ∧
  decode 0x00080020#32 = .ok (.bbs 8#16) ∧ decode 0xFFFF0022#32 = .ok (.subkey 0xFFFF#16) ∧
  decode 0x00000030#32 = .ok .encblk ∧ decode 0x00000141#32 = .ok (.encrypt .cbc) ∧
  decode 0x00000F42#32 = .ok (.decrypt (.other 15#4))

/-- 10_state R23, 20_memory R68: a host write of four enabled lanes to CMD runs the command that the word decodes to, and
the event is used up. -/
def Obligations.StepRunsTheDecodedCommand : Prop :=
  ∀ (s : State) (b0 b1 b2 b3 : Byte) (i : Instr), s.bus.line = .released → decode (b3 ++ b2 ++ b1 ++ b0) = .ok i →
    step { s with bus := { s.bus with
      pending := .write 0x004 [some b0, some b1, some b2, some b3] :: s.bus.pending } } = exec i s

/-- 30_encoding R91 to R93: a word whose OP is not one of the fifteen, whose RSV is not 0, which has a non-zero field that
its opcode does not use, or which is SUBST with SEL ≥ 2, gives BAD_COMMAND and changes nothing else; every other word
decodes and runs its command. -/
def Obligations.IllegalWordsReportBadCommand : Prop :=
  ∀ (s : State) (w : Word), s.bus.line = .released →
    let op := w.toNat % 256
    let sub := w.toNat / 256 % 16
    let rsv := w.toNat / 4096 % 16
    let arg := w.toNat / 65536
    let illegal :=
      op ∉ [0x01, 0x02, 0x10, 0x11, 0x12, 0x13, 0x14, 0x20, 0x21, 0x22, 0x30, 0x31, 0x40, 0x41, 0x42] ∨ rsv ≠ 0 ∨
      (sub ≠ 0 ∧ op ∉ [0x01, 0x02, 0x12, 0x41, 0x42]) ∨ (arg ≠ 0 ∧ op ∉ [0x10, 0x11, 0x20, 0x22]) ∨
      (op = 0x12 ∧ 2 ≤ sub)
    let write := step { s with bus := { s.bus with pending := .write 0x004 (lanesOfWord w) :: s.bus.pending } }
    (illegal → write = .next { s with core := { s.core with
      err := true, errCode := .badCommand, res0 := 0#32, res1 := 0#32, rlen := 0#6 } }) ∧
    (¬illegal → ∃ i, i.wellFormed = true ∧ encode i = w ∧ write = exec i s)

/-! ### Configuration -/

/-- 40_config R122 to R130: SETP with an accepted value writes exactly the item its PID names. -/
def Obligations.SetpWritesTheNamedItem : Prop :=
  ∀ s : State,
    (2 ≤ s.core.opa.toNat → s.core.opa.toNat ≤ 65535 →
      SetsTo .rounds s { s.core with rounds := BitVec.ofNat 16 s.core.opa.toNat }) ∧
    (s.core.opa = 12#32 → SetsTo .blockSize s s.core) ∧
    (s.core.opa = 0#32 → SetsTo .encoding s s.core) ∧
    (s.core.opa.toNat ≤ 65535 → Nat.Prime s.core.opa.toNat → s.core.opa.toNat % 4 = 3 →
      SetsTo .p s { s.core with p := BitVec.ofNat 16 s.core.opa.toNat } ∧
      SetsTo .q s { s.core with q := BitVec.ofNat 16 s.core.opa.toNat }) ∧
    (s.core.opa ∈ s.cfg.alphabet → SetsTo .pad s { s.core with pad := s.core.opa }) ∧
    (s.core.opa.toNat < 2 ^ 24 → s.core.opb.toNat < 2 ^ 24 → ∃ t : Table,
      SetsTo .sbox1 s { s.core with sbox1 := .loaded t } ∧ SetsTo .sbox2 s { s.core with sbox2 := .loaded t } ∧
      ∀ col : Fin 8, t.row0[col].toNat = s.core.opa.toNat / 2 ^ (3 * col.val) % 8 ∧
        t.row1[col].toNat = s.core.opb.toNat / 2 ^ (3 * col.val) % 8)

/-- 40_config R120 to R130: every other value is refused with the stated code, and nothing but the error outcome is
written. -/
def Obligations.SetpRefusesOtherValues : Prop :=
  ∀ s : State,
    (s.core.opa.toNat < 2 ∨ 65535 < s.core.opa.toNat → FailsWith (.setp .rounds) s .invalidValue) ∧
    (s.core.opa ≠ 12#32 → FailsWith (.setp .blockSize) s .invalidValue) ∧
    FailsWith (.setp .keyLength) s .readOnly ∧
    (s.core.opa ≠ 0#32 → FailsWith (.setp .encoding) s .invalidValue) ∧
    (¬(s.core.opa.toNat ≤ 65535 ∧ Nat.Prime s.core.opa.toNat ∧ s.core.opa.toNat % 4 = 3) →
      FailsWith (.setp .p) s .invalidValue ∧ FailsWith (.setp .q) s .invalidValue) ∧
    (s.core.opa ∉ s.cfg.alphabet → FailsWith (.setp .pad) s .invalidValue) ∧
    (2 ^ 24 ≤ s.core.opa.toNat ∨ 2 ^ 24 ≤ s.core.opb.toNat →
      FailsWith (.setp .sbox1) s .invalidValue ∧ FailsWith (.setp .sbox2) s .invalidValue) ∧
    (∀ n : BitVec 4, FailsWith (.setp (.other n)) s .unknownParam)

/-- 40_config R135, R136: what GETP returns for each PID; it changes nothing but the outcome. A table's rows come back
packed, entry c in bits [3c+2:3c] (R129). -/
def Obligations.GetpReturnsTheItem : Prop :=
  ∀ s : State,
    CompletesWith (.getp .rounds) s (BitVec.ofNat 32 s.core.rounds.toNat) 0#32 32 ∧
    CompletesWith (.getp .blockSize) s 12#32 0#32 32 ∧
    CompletesWith (.getp .keyLength) s 9#32 0#32 32 ∧
    CompletesWith (.getp .encoding) s 0#32 0#32 32 ∧
    CompletesWith (.getp .p) s (BitVec.ofNat 32 s.core.p.toNat) 0#32 32 ∧
    CompletesWith (.getp .q) s (BitVec.ofNat 32 s.core.q.toNat) 0#32 32 ∧
    CompletesWith (.getp .pad) s s.core.pad 0#32 32 ∧
    (s.core.sbox1 = .empty → CompletesWith (.getp .sbox1) s 0#32 0#32 0) ∧
    (s.core.sbox2 = .empty → CompletesWith (.getp .sbox2) s 0#32 0#32 0) ∧
    (∀ t, ∃ r0 r1 : Word,
      (s.core.sbox1 = .loaded t → CompletesWith (.getp .sbox1) s r0 r1 24) ∧
      (s.core.sbox2 = .loaded t → CompletesWith (.getp .sbox2) s r0 r1 24) ∧
      r0.toNat < 2 ^ 24 ∧ r1.toNat < 2 ^ 24 ∧
      ∀ col : Fin 8, r0.toNat / 2 ^ (3 * col.val) % 8 = t.row0[col].toNat ∧
        r1.toNat / 2 ^ (3 * col.val) % 8 = t.row1[col].toNat) ∧
    (∀ n : BitVec 4, FailsWith (.getp (.other n)) s .unknownParam)

/-- 40_config R128, R129, R135: the two words that SETP loaded as a table come back from GETP. -/
def Obligations.GetpReadsBackTheLoadedTable : Prop :=
  ∀ s t : State, s.core.opa.toNat < 2 ^ 24 → s.core.opb.toNat < 2 ^ 24 →
    (exec (.setp .sbox1) s = .next t → CompletesWith (.getp .sbox1) t s.core.opa s.core.opb 24) ∧
    (exec (.setp .sbox2) s = .next t → CompletesWith (.getp .sbox2) t s.core.opa s.core.opb 24)

/-! ### Arithmetic and the key stream -/

/-- 41_arith R150. -/
def Obligations.PrimalityTestFindsThePrimes : Prop := ∀ n : Nat, isPrime n = true ↔ Nat.Prime n

/-- 42_keystream R160 to R167: BBS writes the bits of the recurrence x_0 = s² mod n, x_t = x_{t-1}² mod n, b_t = x_t mod 2,
first bit most significant, s being the first entry of PRIME_TABLE from position n = p·q (counted from 1) that is coprime
to n. -/
def Obligations.BbsWritesTheBitStream : Prop :=
  ∀ (s : State) (bits : Half) (j seed : Nat) (x : Nat → Nat), s.cfg.wf = true →
    let p := s.core.opa.toNat
    let q := s.core.opb.toNat
    Nat.Prime p → p % 4 = 3 → Nat.Prime q → q % 4 = 3 → 1 ≤ bits.toNat → bits.toNat ≤ 32 →
    p * q ≤ j → s.cfg.primeTable[j - 1]? = some seed → Nat.Coprime (p * q) seed →
    (∀ i e, p * q ≤ i → i < j → s.cfg.primeTable[i - 1]? = some e → ¬Nat.Coprime (p * q) e) →
    x 0 = seed ^ 2 % (p * q) → (∀ t, x (t + 1) = x t ^ 2 % (p * q)) →
    CompletesWith (.bbs bits) s
      (BitVec.ofNat 32 (∑ t ∈ Finset.range bits.toNat, x (t + 1) % 2 * 2 ^ (bits.toNat - 1 - t))) 0#32 bits.toNat

/-- 42_keystream R166, R163 and 60_exceptions R303: the errors of BBS, in their order. -/
def Obligations.BbsReportsTheFirstError : Prop :=
  ∀ (s : State) (bits : Half), s.cfg.wf = true →
    let p := s.core.opa.toNat
    let q := s.core.opb.toNat
    let goodP := Nat.Prime p ∧ p % 4 = 3
    let goodQ := Nat.Prime q ∧ q % 4 = 3
    let goodBits := 1 ≤ bits.toNat ∧ bits.toNat ≤ 32
    (¬goodP → FailsWith (.bbs bits) s .bbsBadP) ∧
    (goodP → ¬goodQ → FailsWith (.bbs bits) s .bbsBadQ) ∧
    (goodP → goodQ → ¬goodBits → FailsWith (.bbs bits) s .bbsBadBits) ∧
    (goodP → goodQ → goodBits →
      (∀ j e, p * q ≤ j → s.cfg.primeTable[j - 1]? = some e → ¬Nat.Coprime (p * q) e) →
      FailsWith (.bbs bits) s .seedUnavailable)

/-- 42_keystream R163: in a table of distinct primes in strictly ascending order the search never advances, and it fails
exactly when n > PRIME_TABLE_LEN. -/
def Obligations.SeedSearchNeverAdvances : Prop :=
  ∀ (cfg : Config) (p q : Nat), cfg.wf = true → StrictlyAscending cfg.primeTable → Nat.Prime p → Nat.Prime q →
    seedSearch cfg.primeTable (p * q) = cfg.primeTable[p * q - 1]? ∧
    (seedSearch cfg.primeTable (p * q) = none ↔ cfg.primeTableLen < p * q)

/-- 42_keystream R170, R172: KEYSTREAM writes K, and it leaves the same outcome and result as BBS 9 with OPA = P and
OPB = Q. -/
def Obligations.KeystreamIsBbsOfPAndQ : Prop :=
  ∀ s : State,
    (∀ k, keyStream s.cfg s.core = .ok k → CompletesWith .keystream s (k.setWidth 32) 0#32 9) ∧
    (∀ e, keyStream s.cfg s.core = .error e → FailsWith .keystream s e) ∧
    ∀ t u : State, exec .keystream s = .next t →
      exec (.bbs 9#16) { s with core := { s.core with opa := s.core.p.setWidth 32, opb := s.core.q.setWidth 32 } } = .next u →
      t.core.err = u.core.err ∧ t.core.errCode = u.core.errCode ∧ t.core.res0 = u.core.res0 ∧
      t.core.res1 = u.core.res1 ∧ t.core.rlen = u.core.rlen

/-- 42_keystream R170: with P and Q legal, "the only error KeyStream can raise is SEED_UNAVAILABLE", and there is a key
stream exactly when the seed search finds an entry. -/
def Obligations.KeyStreamLacksOnlyTheSeed : Prop :=
  ∀ s : State, s.Inv →
    (∀ e, keyStream s.cfg s.core = .error e → e = .seedUnavailable) ∧
    ((∃ k, keyStream s.cfg s.core = .ok k) ↔
      ∃ j seed, s.core.p.toNat * s.core.q.toNat ≤ j ∧ s.cfg.primeTable[j - 1]? = some seed ∧
        Nat.Coprime (s.core.p.toNat * s.core.q.toNat) seed)

/-- 42_keystream R174 to R176: SUBKEY i for i ≥ 1 writes the window k_{o+1} … of eight bits from o = (i − 1) mod 9, first
bit most significant (k_1 is bit 8 of K); an index i ≤ 0 is BAD_INDEX, checked before the key stream. -/
def Obligations.SubkeyWritesTheCircularWindow : Prop :=
  ∀ (s : State) (idx : Half),
    (idx.toInt ≤ 0 → FailsWith (.subkey idx) s .badIndex) ∧
    (∀ e, 0 < idx.toInt → keyStream s.cfg s.core = .error e → FailsWith (.subkey idx) s e) ∧
    (∀ k, 0 < idx.toInt → keyStream s.cfg s.core = .ok k → ∃ v : Subkey,
      CompletesWith (.subkey idx) s (v.setWidth 32) 0#32 8 ∧
      ∀ j, j < 8 → v.getLsbD (7 - j) = k.getLsbD (8 - (idx.toNat - 1 + j) % 9))

/-- 42_keystream R177. -/
def Obligations.SubkeysRepeatEveryNine : Prop :=
  ∀ (k : KeyStream) (i : Nat), 1 ≤ i → subkey k (i + 9) = subkey k i

/-! ### Substitution and the round engine -/

/-- 43_sbox R193, R196: SUBST writes t[v[3]][v[2:0]] of the selected table, with its errors in their order. -/
def Obligations.SubstLooksUpTheSelectedTable : Prop :=
  ∀ (s : State) (sel : Sel) (box : SBox), box = (match sel with | .s1 => s.core.sbox1 | .s2 => s.core.sbox2) →
    (16 ≤ s.core.opa.toNat → FailsWith (.subst sel) s .malformed) ∧
    (s.core.opa.toNat < 16 → box = .empty → FailsWith (.subst sel) s .sboxEmpty) ∧
    (∀ t, s.core.opa.toNat < 16 → box = .loaded t → ∀ col : Fin 8, col.val = s.core.opa.toNat % 8 →
      CompletesWith (.subst sel) s
        (BitVec.ofNat 32 (if 8 ≤ s.core.opa.toNat then t.row1[col].toNat else t.row0[col].toNat)) 0#32 3)

/-- 44_feistel R211, R212: EXPAND doubles the middle pair r_m r_{m+1} of OPA[n−1:0] into r_{m+1} r_m r_{m+1} r_m and keeps
the bits outside it in order; any other length, or a bit above the length, is MALFORMED. -/
def Obligations.ExpandDoublesTheMiddlePair : Prop :=
  ∀ (s : State) (len : Half) (m : Nat),
    (¬(len.toNat % 2 = 0 ∧ 2 ≤ len.toNat ∧ len.toNat ≤ 30) → FailsWith (.expand len) s .malformed) ∧
    (len.toNat % 2 = 0 → 2 ≤ len.toNat → len.toNat ≤ 30 → 2 ^ len.toNat ≤ s.core.opa.toNat →
      FailsWith (.expand len) s .malformed) ∧
    (len.toNat = 2 * m → 1 ≤ m → m ≤ 15 → s.core.opa.toNat < 2 ^ len.toNat → ∃ v : Word,
      CompletesWith (.expand len) s v 0#32 (len.toNat + 2) ∧
      v.getLsbD (m + 2) = s.core.opa.getLsbD (m - 1) ∧ v.getLsbD (m + 1) = s.core.opa.getLsbD m ∧
      v.getLsbD m = s.core.opa.getLsbD (m - 1) ∧ v.getLsbD (m - 1) = s.core.opa.getLsbD m ∧
      (∀ j, j + 1 < m → v.getLsbD j = s.core.opa.getLsbD j) ∧
      (∀ j, m < j → v.getLsbD (j + 2) = s.core.opa.getLsbD j))

/-- 44_feistel R210, R213: the expander of F is the expander of EXPAND at n = 6, and its eight bits are R[5], R[4], R[2],
R[3], R[2], R[3], R[1], R[0]. -/
def Obligations.HalfExpanderIsExpandOfSix : Prop :=
  ∀ r : HalfBlock, (expandHalf r).toNat = expandValue 6 r.toNat ∧
    (List.range 8).map (fun j => (expandHalf r).getLsbD (7 - j)) = [5, 4, 2, 3, 2, 3, 1, 0].map fun j => r.getLsbD j

/-- 44_feistel R214, R215: XOR, its length check and its operand check. -/
def Obligations.XorCombinesTheOperands : Prop :=
  ∀ (s : State) (len : Half),
    (len.toNat < 1 ∨ 32 < len.toNat → FailsWith (.xor len) s .malformed) ∧
    (1 ≤ len.toNat → len.toNat ≤ 32 → 2 ^ len.toNat ≤ s.core.opa.toNat ∨ 2 ^ len.toNat ≤ s.core.opb.toNat →
      FailsWith (.xor len) s .malformed) ∧
    (1 ≤ len.toNat → len.toNat ≤ 32 → s.core.opa.toNat < 2 ^ len.toNat → s.core.opb.toNat < 2 ^ len.toNat →
      CompletesWith (.xor len) s (s.core.opa ^^^ s.core.opb) 0#32 len.toNat)

/-- 44_feistel R218, R219: FFUNC expands R, adds k, sends the high half through SBOX1 and the low half through SBOX2; its
errors in their order. -/
def Obligations.FfuncSubstitutesBothHalves : Prop :=
  ∀ s : State,
    (64 ≤ s.core.opa.toNat ∨ 256 ≤ s.core.opb.toNat → FailsWith .ffunc s .malformed) ∧
    (s.core.opa.toNat < 64 → s.core.opb.toNat < 256 → s.core.sbox1 = .empty ∨ s.core.sbox2 = .empty →
      FailsWith .ffunc s .sboxEmpty) ∧
    (∀ t1 t2 e, s.core.opa.toNat < 64 → s.core.opb.toNat < 256 →
      s.core.sbox1 = .loaded t1 → s.core.sbox2 = .loaded t2 →
      e = expandValue 6 s.core.opa.toNat ^^^ s.core.opb.toNat →
      ∀ hi lo : Fin 8, hi.val = e / 16 % 8 → lo.val = e % 8 →
        CompletesWith .ffunc s
          (BitVec.ofNat 32 (8 * (if 128 ≤ e then t1.row1[hi].toNat else t1.row0[hi].toNat)
            + if 8 ≤ e % 16 then t2.row1[lo].toNat else t2.row0[lo].toNat)) 0#32 6)

/-- 44_feistel R222, R223: ROUND makes R the new left half and L ⊕ F(R, k) the new right half; its errors in their order. -/
def Obligations.RoundSwapsAndAddsF : Prop :=
  ∀ s : State,
    (4096 ≤ s.core.opa.toNat ∨ 256 ≤ s.core.opb.toNat → FailsWith .round s .malformed) ∧
    (s.core.opa.toNat < 4096 → s.core.opb.toNat < 256 → s.core.sbox1 = .empty ∨ s.core.sbox2 = .empty →
      FailsWith .round s .sboxEmpty) ∧
    (∀ t1 t2, s.core.opa.toNat < 4096 → s.core.opb.toNat < 256 →
      s.core.sbox1 = .loaded t1 → s.core.sbox2 = .loaded t2 →
      ∀ (l r : HalfBlock) (k : Subkey), l.toNat = s.core.opa.toNat / 64 → r.toNat = s.core.opa.toNat % 64 →
        k.toNat = s.core.opb.toNat →
        CompletesWith .round s ((r ++ (l ^^^ fFunction t1 t2 r k) : Block).setWidth 32) 0#32 12)

/-- 44_feistel R224: a round of the same subkey, between two swaps, undoes a round. -/
def Obligations.SwappedRoundUndoesRound : Prop :=
  ∀ (t1 t2 : Table) (b : Block) (k : Subkey),
    swapHalves (feistelRound t1 t2 (swapHalves (feistelRound t1 t2 b k)) k) = b

/-- 44_feistel R230, R231: ENCBLK runs ROUNDS rounds (L, R) ← (R, L ⊕ F(R, Subkey(i))) for i = 1, 2, … and ends with the
swap R ‖ L; its errors in their order. -/
def Obligations.EncblkRunsTheRounds : Prop :=
  ∀ s : State,
    (4096 ≤ s.core.opa.toNat → FailsWith .encblk s .malformed) ∧
    (∀ e, s.core.opa.toNat < 4096 → keyStream s.cfg s.core = .error e → FailsWith .encblk s e) ∧
    (∀ k, s.core.opa.toNat < 4096 → keyStream s.cfg s.core = .ok k →
      s.core.sbox1 = .empty ∨ s.core.sbox2 = .empty → FailsWith .encblk s .sboxEmpty) ∧
    (∀ k t1 t2 (l r : Nat → HalfBlock), s.core.opa.toNat < 4096 → CipherReady s k t1 t2 →
      (l 0).toNat = s.core.opa.toNat / 64 → (r 0).toNat = s.core.opa.toNat % 64 →
      (∀ i, l (i + 1) = r i ∧ r (i + 1) = l i ^^^ fFunction t1 t2 (r i) (subkey k (i + 1))) →
      CompletesWith .encblk s
        ((r s.core.rounds.toNat ++ l s.core.rounds.toNat : Block).setWidth 32) 0#32 12)

/-- 44_feistel R232, R233: DECBLK runs the same rounds for i = ROUNDS down to 1, and then swaps; its errors are ENCBLK's. -/
def Obligations.DecblkRunsTheRoundsBackwards : Prop :=
  ∀ s : State,
    (4096 ≤ s.core.opa.toNat → FailsWith .decblk s .malformed) ∧
    (∀ e, s.core.opa.toNat < 4096 → keyStream s.cfg s.core = .error e → FailsWith .decblk s e) ∧
    (∀ k, s.core.opa.toNat < 4096 → keyStream s.cfg s.core = .ok k →
      s.core.sbox1 = .empty ∨ s.core.sbox2 = .empty → FailsWith .decblk s .sboxEmpty) ∧
    (∀ k t1 t2 (l r : Nat → HalfBlock), s.core.opa.toNat < 4096 → CipherReady s k t1 t2 →
      (l 0).toNat = s.core.opa.toNat / 64 → (r 0).toNat = s.core.opa.toNat % 64 →
      (∀ i, i < s.core.rounds.toNat →
        l (i + 1) = r i ∧ r (i + 1) = l i ^^^ fFunction t1 t2 (r i) (subkey k (s.core.rounds.toNat - i))) →
      CompletesWith .decblk s
        ((r s.core.rounds.toNat ++ l s.core.rounds.toNat : Block).setWidth 32) 0#32 12)

/-- 44_feistel R234: under one configuration, DECBLK of what ENCBLK wrote writes the first block back, and ENCBLK of what
DECBLK wrote does too. -/
def Obligations.BlockRoundTrip : Prop :=
  ∀ (s : State) (k : KeyStream) (t1 t2 : Table), s.core.opa.toNat < 4096 → CipherReady s k t1 t2 →
    (∃ t, exec .encblk s = .next t ∧ t.core.err = false ∧
      ∃ u, exec .decblk { t with core := { t.core with opa := t.core.res0 } } = .next u ∧
        u.core.err = false ∧ u.core.res0 = s.core.opa) ∧
    (∃ t, exec .decblk s = .next t ∧ t.core.err = false ∧
      ∃ u, exec .encblk { t with core := { t.core with opa := t.core.res0 } } = .next u ∧
        u.core.err = false ∧ u.core.res0 = s.core.opa)

/-! ### The mode controller -/

/-- 45_modes R250, R251: IVGEN writes the twelve bits of the runs 1, 00, 111, 0000, 11 in every state. -/
def Obligations.IvgenWritesTheIv : Prop :=
  ∀ s : State, CompletesWith .ivgen s
    (BitVec.ofNat 32 (bitsValue ([true] ++ [false, false] ++ [true, true, true] ++ [false, false, false, false] ++ [true, true])))
    0#32 12

/-- 45_modes R252: code and sym are inverse to each other between ALPHABET and the 6-bit values. -/
def Obligations.CodeAndSymAreInverse : Prop :=
  ∀ cfg : Config, cfg.wf = true →
    (∀ c : HalfBlock, symOf cfg c ∈ cfg.alphabet ∧ codeOf cfg (symOf cfg c) = c) ∧
    (∀ ch, ch ∈ cfg.alphabet → symOf cfg (codeOf cfg ch) = ch)

/-- 45_modes R256: putting the out-of-alphabet characters of a text back into its clean text gives the text. -/
def Obligations.ReinsertionRestoresTheText : Prop :=
  ∀ (cfg : Config) (t : List Word), insertPositions (cleanText cfg t) (getPositions cfg t) = t

/-- 45_modes R253 to R260, R263, R268: ENCRYPT of a text with at least one alphabet symbol. With c the padded clean text
and B_b the block of its symbols 2b and 2b+1, the output's alphabet symbols are those of the blocks X_b, X_b = Enc(B_b) in
ECB and Enc(B_b ⊕ X_{b−1}) in CBC with IV before the first; the out-of-alphabet characters keep their indices, and the
length grows by the pad. -/
def Obligations.EncryptTransformsTheText : Prop :=
  ∀ (s : State) (t c : List Word) (k : KeyStream) (t1 t2 : Table), s.Inv → InputText s t →
    s.core.inLen.toNat ≤ s.cfg.textMax → (∃ ch ∈ t, ch ∈ s.cfg.alphabet) → CipherReady s k t1 t2 → PaddedClean s t c →
    let block := fun b => (codeOf s.cfg (c.getD (2 * b) 0#32) ++ codeOf s.cfg (c.getD (2 * b + 1) 0#32) : Block)
    let enc := encBlock t1 t2 k s.core.rounds.toNat
    ∀ mode, mode = .ecb ∨ mode = .cbc →
      ∃ out xs, TextCompletesWith (.encrypt mode) s out ∧ ShowsBlocks s out xs ∧ KeepsForeign s t out ∧
        out.length = t.length + (t.filter (· ∈ s.cfg.alphabet)).length % 2 ∧ 2 * xs.length = c.length ∧
        ∀ (b : Nat) (x : Block), xs[b]? = some x →
          x = if mode = .ecb then enc (block b)
              else enc (block b ^^^ if b = 0 then 0x9C3#12 else xs.getD (b - 1) 0#12)

/-- 45_modes R253 to R261, R266: DECRYPT of a text with at least one alphabet symbol. Before the strip, the text's alphabet
symbols are those of the blocks X_b, X_b = Dec(B_b) in ECB and Dec(B_b) ⊕ B_{b−1} in CBC with IV before the first, and the
out-of-alphabet characters keep their indices; the strip then removes every trailing PAD. -/
def Obligations.DecryptTransformsTheText : Prop :=
  ∀ (s : State) (t c : List Word) (k : KeyStream) (t1 t2 : Table), s.Inv → InputText s t →
    s.core.inLen.toNat ≤ s.cfg.textMax → (∃ ch ∈ t, ch ∈ s.cfg.alphabet) → CipherReady s k t1 t2 → PaddedClean s t c →
    let block := fun b => (codeOf s.cfg (c.getD (2 * b) 0#32) ++ codeOf s.cfg (c.getD (2 * b + 1) 0#32) : Block)
    let dec := decBlock t1 t2 k s.core.rounds.toNat
    ∀ mode, mode = .ecb ∨ mode = .cbc →
      ∃ raw out n xs, TextCompletesWith (.decrypt mode) s out ∧ ShowsBlocks s raw xs ∧ KeepsForeign s t raw ∧
        raw.length = t.length + (t.filter (· ∈ s.cfg.alphabet)).length % 2 ∧ 2 * xs.length = c.length ∧
        raw = out ++ List.replicate n s.core.pad ∧ out.getLast? ≠ some s.core.pad ∧
        ∀ (b : Nat) (x : Block), xs[b]? = some x →
          x = if mode = .ecb then dec (block b)
              else dec (block b) ^^^ if b = 0 then 0x9C3#12 else block (b - 1)

/-- 45_modes R267: a text with no alphabet symbol is copied unchanged by ENCRYPT and DECRYPT, whatever the tables and the
key stream. -/
def Obligations.TextWithoutSymbolsIsCopied : Prop :=
  ∀ (s : State) (t : List Word) (mode : Mode), s.Inv → InputText s t → s.core.inLen.toNat ≤ s.cfg.textMax →
    (∀ ch ∈ t, ch ∉ s.cfg.alphabet) → mode = .ecb ∨ mode = .cbc →
    TextCompletesWith (.encrypt mode) s t ∧ TextCompletesWith (.decrypt mode) s t

/-- 45_modes R262, R264, R265, R267 and 60_exceptions R303: the errors of the text commands, in their order, each with the
outcome of R265. -/
def Obligations.TextCommandsReportTheFirstError : Prop :=
  ∀ (s : State) (i : Instr) (mode : Mode), i = .encrypt mode ∨ i = .decrypt mode →
    (∀ n, mode = .other n → TextFailsWith i s .badMode) ∧
    (mode = .ecb ∨ mode = .cbc →
      (s.cfg.textMax < s.core.inLen.toNat → TextFailsWith i s .textTooLong) ∧
      (∀ t, s.core.inLen.toNat ≤ s.cfg.textMax → InputText s t → (∃ ch ∈ t, ch ∈ s.cfg.alphabet) →
        (∀ e, keyStream s.cfg s.core = .error e → TextFailsWith i s e) ∧
        (∀ k, keyStream s.cfg s.core = .ok k → s.core.sbox1 = .empty ∨ s.core.sbox2 = .empty →
          TextFailsWith i s .sboxEmpty)))

/-- 93 U1, 45_modes R253: a text command with a supported mode and an admissible length stops with the fault exactly when an
entry TIN[k], k < IN_LEN, has not been written since reset; no other command and no other case faults. -/
def Obligations.OnlyUnwrittenTextFaults : Prop :=
  ∀ (s : State) (i : Instr),
    (∀ r, exec i s ≠ .refused r) ∧ exec i s ≠ .fault .hostStalled ∧
    (exec i s = .fault .unwrittenText ↔
      i ∈ [Instr.encrypt .ecb, .encrypt .cbc, .decrypt .ecb, .decrypt .cbc] ∧
      s.core.inLen.toNat ≤ s.cfg.textMax ∧ ∃ k, k < s.core.inLen.toNat ∧ s.core.tin.read k = none)

/-- 45_modes R269, which the spec marks as an inference: encrypting a text, copying TOUT[0 … OUT_LEN−1] into TIN with IN_LEN = OUT_LEN and decrypting under the
same mode and configuration gives the text back exactly when it does not end in PAD. The ciphertext must fit in TIN, which
R264 asks of the second command. -/
def Obligations.TextRoundTripUnlessItEndsInPad : Prop :=
  ∀ (s : State) (t : List Word) (mode : Mode) (k : KeyStream) (t1 t2 : Table), s.Inv → InputText s t →
    CipherReady s k t1 t2 → mode = .ecb ∨ mode = .cbc →
    t.length + (t.filter (· ∈ s.cfg.alphabet)).length % 2 ≤ s.cfg.textMax →
    ∃ u, exec (.encrypt mode) s = .next u ∧ u.core.err = false ∧
      ∀ tin : Buffer, (∀ j, j < u.core.outLen.toNat → tin.read j = u.core.tout.read j) →
        ∃ v, exec (.decrypt mode)
            { u with core := { u.core with tin := tin, inLen := BitVec.ofNat 16 u.core.outLen.toNat } } = .next v ∧
          v.core.err = false ∧
          ((v.core.outLen.toNat = t.length ∧ ∀ j, j < t.length → v.core.tout.read j = t[j]?) ↔
            t.getLast? ≠ some s.core.pad)

/-! ### All commands -/

/-- 20_memory R66, 10_state R21, R41, 45_modes R270: no command changes OPA, OPB, IN_LEN, TIN, the parameters or the host's
side; only SETP changes the configuration; only ENCRYPT and DECRYPT change OUT_LEN and TOUT. -/
def Obligations.CommandsChangeOnlyTheirItems : Prop :=
  ∀ (i : Instr) (s t : State), exec i s = .next t →
    t.cfg = s.cfg ∧ t.bus = s.bus ∧
    t.core.opa = s.core.opa ∧ t.core.opb = s.core.opb ∧ t.core.inLen = s.core.inLen ∧ t.core.tin = s.core.tin ∧
    ((∀ pid, i ≠ .setp pid) →
      t.core.rounds = s.core.rounds ∧ t.core.p = s.core.p ∧ t.core.q = s.core.q ∧ t.core.pad = s.core.pad ∧
      t.core.sbox1 = s.core.sbox1 ∧ t.core.sbox2 = s.core.sbox2) ∧
    ((∀ mode, i ≠ .encrypt mode ∧ i ≠ .decrypt mode) → t.core.outLen = s.core.outLen ∧ t.core.tout = s.core.tout)

/-- 60_exceptions R301, R302 and 10_state R22, R42: a command either succeeds with ERR = 0 and ERRCODE = NONE, or fails with
ERR = 1 and a code, and then it has written nothing but the error outcome (and OUT_LEN = 0 for ENCRYPT and DECRYPT). -/
def Obligations.FailedCommandsWriteOnlyTheError : Prop :=
  ∀ (i : Instr) (s t : State), exec i s = .next t →
    (t.core.err = false ∧ t.core.errCode = .none) ∨
    (∃ e, e ≠ .none ∧
      (((∀ mode, i ≠ .encrypt mode ∧ i ≠ .decrypt mode) ∧ FailsWith i s e) ∨
        (∃ mode, (i = .encrypt mode ∨ i = .decrypt mode) ∧ TextFailsWith i s e)))

/-- 60_exceptions R304, 00_scope R4: what a command reports and writes depends only on OPA, OPB, IN_LEN, TIN[0 … IN_LEN−1]
and the configuration. -/
def Obligations.OutcomeDependsOnlyOnTheInputs : Prop :=
  ∀ (i : Instr) (s s' t : State), s.cfg = s'.cfg →
    s.core.opa = s'.core.opa → s.core.opb = s'.core.opb → s.core.inLen = s'.core.inLen →
    (∀ k, k < s.core.inLen.toNat → s.core.tin.read k = s'.core.tin.read k) →
    s.core.rounds = s'.core.rounds → s.core.p = s'.core.p → s.core.q = s'.core.q → s.core.pad = s'.core.pad →
    s.core.sbox1 = s'.core.sbox1 → s.core.sbox2 = s'.core.sbox2 → exec i s = .next t →
    ∃ t', exec i s' = .next t' ∧ t.core.err = t'.core.err ∧ t.core.errCode = t'.core.errCode ∧
      t.core.res0 = t'.core.res0 ∧ t.core.res1 = t'.core.res1 ∧ t.core.rlen = t'.core.rlen ∧
      t.core.rounds = t'.core.rounds ∧ t.core.p = t'.core.p ∧ t.core.q = t'.core.q ∧ t.core.pad = t'.core.pad ∧
      t.core.sbox1 = t'.core.sbox1 ∧ t.core.sbox2 = t'.core.sbox2 ∧
      ((∃ mode, i = .encrypt mode ∨ i = .decrypt mode) → t.core.outLen = t'.core.outLen ∧
        (t.core.err = false → ∀ k, k < t.core.outLen.toNat → t.core.tout.read k = t'.core.tout.read k))

/-- 20_memory R66: "a command repeated with no host write in between writes the same values again". -/
def Obligations.RepeatedCommandWritesTheSame : Prop :=
  ∀ (i : Instr) (s t : State), s.Inv → exec i s = .next t → exec i t = .next t

/-! ### The register window -/

/-- 20_memory R62, R64 to R66, 10_state R21 to R27: a read returns the register's value and changes nothing of the core:
the constants, the operand and result registers, the lengths, CMD as 0, and every reserved offset as 0. -/
def Obligations.ReadsReturnTheRegister : Prop :=
  ∀ (s : State) (offset : Nat) (v : Word), s.bus.line = .released → s.cfg.wf = true →
    (offset = 0x000 ∧ v = 0x53444553#32) ∨ (offset = 0x004 ∧ v = 0#32) ∨
    (offset = 0x00C ∧ v = BitVec.ofNat 32 s.core.rlen.toNat) ∨ (offset = 0x010 ∧ v = s.core.opa) ∨
    (offset = 0x014 ∧ v = s.core.opb) ∨ (offset = 0x018 ∧ v = s.core.res0) ∨ (offset = 0x01C ∧ v = s.core.res1) ∨
    (offset = 0x020 ∧ v = BitVec.ofNat 32 s.core.inLen.toNat) ∨ (offset = 0x024 ∧ v = s.core.outLen) ∨
    (offset = 0x028 ∧ v = BitVec.ofNat 32 s.cfg.textMax) ∨
    (∃ k, offset = 0x10000 + 4 * k ∧ k < s.cfg.textMax ∧ s.core.tin.read k = some v) ∨
    (∃ k, offset = 0x20000 + 4 * k ∧ k ≤ s.cfg.textMax ∧ s.core.tout.read k = some v) ∨
    (v = 0#32 ∧ offset % 4 = 0 ∧
      ((0x02C ≤ offset ∧ offset ≤ 0x0FFFF) ∨ (0x10000 + 4 * s.cfg.textMax ≤ offset ∧ offset < 0x20000) ∨
        (0x20000 + 4 * s.cfg.textMax < offset ∧ offset < 0x30000))) →
    step { s with bus := { s.bus with pending := .read offset [true, true, true, true] :: s.bus.pending } } =
      .next { s with bus := { s.bus with reads := s.bus.reads ++ [v] } }

/-- 10_state R24, 60_exceptions R300: the word a read of STATUS returns: bit 0 is ERR, bits 15:8 are the number of ERRCODE
(NONE 0, BAD_COMMAND 1, UNKNOWN_PARAM 2, INVALID_VALUE 3, READ_ONLY 4, MALFORMED 5, BBS_BAD_P 6, BBS_BAD_Q 7,
BBS_BAD_BITS 8, SEED_UNAVAILABLE 9, SBOX_EMPTY 10, BAD_INDEX 11, BAD_MODE 12, TEXT_TOO_LONG 13), bit 16 and bit 17 say
whether SBOX1 and SBOX2 are loaded, and every other bit is 0. -/
def Obligations.StatusShowsTheLastOutcome : Prop :=
  ∀ s : State, s.bus.line = .released → ∃ v : Word,
    step { s with bus := { s.bus with pending := .read 0x008 [true, true, true, true] :: s.bus.pending } } =
      .next { s with bus := { s.bus with reads := s.bus.reads ++ [v] } } ∧
    v.toNat = s.core.err.toNat + 256 * errorNumber s.core.errCode
      + (if s.core.sbox1 = .empty then 0 else 65536) + (if s.core.sbox2 = .empty then 0 else 131072)

/-- 93 U1, U2: a read of a TIN or TOUT entry not written since reset changes nothing of the core and returns some value; the
model draws it from the free values and no statement rests on which it is (log 5). -/
def Obligations.UnwrittenEntriesReadAsSomeValue : Prop :=
  ∀ (s : State) (k : Nat), s.bus.line = .released → s.cfg.wf = true →
    (k < s.cfg.textMax → s.core.tin.read k = none → ∃ v,
      step { s with bus := { s.bus with pending := .read (0x10000 + 4 * k) [true, true, true, true] :: s.bus.pending } } =
        .next { s with bus := { s.bus with reads := s.bus.reads ++ [v], free := s.bus.free + 1 } }) ∧
    (k ≤ s.cfg.textMax → s.core.tout.read k = none → ∃ v,
      step { s with bus := { s.bus with pending := .read (0x20000 + 4 * k) [true, true, true, true] :: s.bus.pending } } =
        .next { s with bus := { s.bus with reads := s.bus.reads ++ [v], free := s.bus.free + 1 } })

/-- 20_memory R65, 10_state R26, R28: a write to OPA or OPB stores 32 bits, to IN_LEN bits [15:0], to TIN[k] 32 bits, and
nothing else changes; every other TIN entry reads as before. -/
def Obligations.WritesStoreTheValue : Prop :=
  ∀ (s : State) (w : Word) (k : Nat), s.bus.line = .released → s.cfg.wf = true →
    let write := fun offset =>
      step { s with bus := { s.bus with pending := .write offset (lanesOfWord w) :: s.bus.pending } }
    write 0x010 = .next { s with core := { s.core with opa := w } } ∧
    write 0x014 = .next { s with core := { s.core with opb := w } } ∧
    write 0x020 = .next { s with core := { s.core with inLen := BitVec.ofNat 16 (w.toNat % 65536) } } ∧
    (k < s.cfg.textMax → ∃ tin : Buffer,
      write (0x10000 + 4 * k) = .next { s with core := { s.core with tin := tin } } ∧
      tin.read k = some w ∧ ∀ j, j ≠ k → tin.read j = s.core.tin.read j)

/-- 20_memory R64, R65: a write to a read-only register or a reserved offset is ignored, with no effect and no error. -/
def Obligations.OtherWritesAreIgnored : Prop :=
  ∀ (s : State) (w : Word) (offset : Nat), s.bus.line = .released → s.cfg.wf = true → offset % 4 = 0 →
    offset ∈ [0x000, 0x008, 0x00C, 0x018, 0x01C, 0x024, 0x028] ∨ (0x02C ≤ offset ∧ offset ≤ 0x0FFFF) ∨
      (0x10000 + 4 * s.cfg.textMax ≤ offset ∧ offset < 0x30000) →
    step { s with bus := { s.bus with pending := .write offset (lanesOfWord w) :: s.bus.pending } } = .next s

/-- 20_memory R63: an access that is misaligned, outside the window, not 32 bits wide or with a lane disabled is refused;
the refusal stands for no other access. -/
def Obligations.UndefinedAccessesAreRefused : Prop :=
  ∀ (s : State) (offset : Nat) (enables : List Bool) (lanes : List (Option Byte)), s.bus.line = .released →
    (step { s with bus := { s.bus with pending := .read offset enables :: s.bus.pending } } = .refused .undefinedAccess ↔
      ¬(offset % 4 = 0 ∧ offset < 0x30000 ∧ enables.length = 4 ∧ ∀ e ∈ enables, e = true)) ∧
    (step { s with bus := { s.bus with pending := .write offset lanes :: s.bus.pending } } = .refused .undefinedAccess ↔
      ¬(offset % 4 = 0 ∧ offset < 0x30000 ∧ lanes.length = 4 ∧ ∀ l ∈ lanes, l.isSome = true))

/-! ### Reset -/

/-- 10_state R43, 70_reset R340, R341: releasing reset, whether or not it cut a command short, gives every item its reset
value, TIN and TOUT with no entry written; and while reset is asserted an access has no step (93 U4). -/
def Obligations.ReleasedResetGivesTheResetState : Prop :=
  ∀ (s : State) (rest : List Event), s.bus.line = .asserted ∨ s.bus.line = .assertedMidCommand →
    step { s with bus := { s.bus with pending := .releaseReset :: rest } } = .next
      { cfg := s.cfg
        core :=
          { opa := 0#32, opb := 0#32, res0 := 0#32, res1 := 0#32, rlen := 0#6, err := false, errCode := .none
            inLen := 0#16, outLen := 0#32, tin := [], tout := [], rounds := s.cfg.resetRounds, p := s.cfg.resetP
            q := s.cfg.resetQ, pad := s.cfg.resetPad, sbox1 := .empty, sbox2 := .empty }
        bus := { s.bus with pending := rest, line := .released } } ∧
    (∀ offset enables, step { s with bus := { s.bus with pending := .read offset enables :: rest } } =
      if s.bus.line = .asserted then .refused .accessDuringReset else .fault .hostStalled) ∧
    (∀ offset lanes, step { s with bus := { s.bus with pending := .write offset lanes :: rest } } =
      if s.bus.line = .asserted then .refused .accessDuringReset else .fault .hostStalled)

/-- 70_reset R341: a command cut short by reset leaves, after the release, the state of reset, whatever the command was and
whatever the core held. -/
def Obligations.CutCommandLeavesTheResetState : Prop :=
  ∀ (s : State) (w : Word) (rest : List Event), s.bus.line = .released →
    s.bus.pending = .cutCommand w :: .releaseReset :: rest →
    Host.Core.run Sys2Proof.core 2 s =
      .next { s with core := CoreState.reset s.cfg, bus := { s.bus with pending := rest } }

/-- 10_state R43, 70_reset R340, R343: the machine after reset holds the reset values, of the chip's own parameters, with
the reset input released and no access under way. -/
def Obligations.ResetStateHoldsTheResetValues : Prop :=
  State.reset.cfg = Config.chip.cfg ∧ State.reset.bus.line = .released ∧ State.reset.bus.pending = [] ∧
  State.reset.core =
    { opa := 0#32, opb := 0#32, res0 := 0#32, res1 := 0#32, rlen := 0#6, err := false, errCode := .none
      inLen := 0#16, outLen := 0#32, tin := [], tout := [], rounds := Config.chip.cfg.resetRounds
      p := Config.chip.cfg.resetP, q := Config.chip.cfg.resetQ, pad := Config.chip.cfg.resetPad
      sbox1 := .empty, sbox2 := .empty }

/-- 10_state R43 with 00_scope R5: the state after reset meets the invariant. -/
def Obligations.ResetStateMeetsTheInvariant : Prop := State.reset.Inv

/-! ### The whole machine -/

/-- 10_state R37 with R24, R27 to R29: every step keeps the invariant. -/
def Obligations.StepKeepsTheInvariant : Prop := ∀ s t : State, s.Inv → step s = .next t → t.Inv

/-- 10_state R36, 70_reset R342: no command, access or event but the release of reset makes a loaded table EMPTY, and none
changes the parameters. -/
def Obligations.OnlyResetEmptiesATable : Prop :=
  ∀ s t : State, step s = .next t → t.cfg = s.cfg ∧
    ((s.core.sbox1 ≠ .empty ∧ t.core.sbox1 = .empty) ∨ (s.core.sbox2 ≠ .empty ∧ t.core.sbox2 = .empty) →
      s.bus.line ≠ .released ∧ s.bus.pending.head? = some .releaseReset)

/-- 20_memory R63, 60_exceptions R308: with reset released, the machine stops only on an access outside the defined set or
on a text command that reads an unwritten TIN entry: a word write to CMD (offset 0x004) whose word is ENCRYPT or DECRYPT
in mode ecb or cbc, with IN_LEN at most TEXT_MAX and some TIN[k], k < IN_LEN, not written since reset (93 U1). -/
def Obligations.StopsAreOnlyTheNamedOnes : Prop :=
  ∀ s : State, s.bus.line = .released →
    StepSafe s ∨
    (step s = .refused .undefinedAccess ∧ ∃ e ∈ s.bus.pending.head?,
      (∃ o en, e = .read o en ∧ readDefined o en = false) ∨
      (∃ o ls, e = .write o ls ∧ (offsetDefined o = false ∨ writeWord ls = none))) ∨
    (step s = .fault .unwrittenText ∧ ¬TextWritten s.core ∧ s.core.inLen.toNat ≤ s.cfg.textMax ∧
      ∃ (w : Word) (i : Instr), s.bus.pending.head? = some (.write 0x004 (lanesOfWord w)) ∧ decode w = .ok i ∧
        i ∈ [Instr.encrypt .ecb, .encrypt .cbc, .decrypt .ecb, .decrypt .cbc])

/-- 30_encoding R103, 40_config R128, R129: the pseudo-instruction `ldsbox` loads exactly the table it is given, in three
accesses, with no error. -/
def Obligations.LdsboxLoadsTheTable : Prop :=
  ∀ (s : State) (sel : Sel) (t : Table), s.bus.line = .released → s.bus.pending = [] →
    ∃ u, Host.Core.run Sys2Proof.core 3 (s.issue (Line.ldsbox sel t).events) = .next u ∧
      u.bus.pending = [] ∧ u.core.err = false ∧
      u.core.sbox1 = (match sel with | .s1 => .loaded t | .s2 => s.core.sbox1) ∧
      u.core.sbox2 = (match sel with | .s1 => s.core.sbox2 | .s2 => .loaded t)

/-- 43_sbox R191, 93 U8: the file form of a table is transcribed to the accesses that load exactly that table (`ldsbox`),
and every file that is the form of no table (another number of lines or of entries, an entry that is not three binary
digits) is refused by name and gives the host no access to make. -/
def Obligations.OnlyTableFilesAreTranscribed : Prop :=
  ∀ (sel : Sel) (file : List (List Char)),
    (∀ t : Table, file = fileOf t → tableFileEvents sel file = .ok (Line.ldsbox sel t).events) ∧
    ((∀ t : Table, file ≠ fileOf t) → ∃ flaw : TableFlaw, tableFileEvents sel file = .error (.tableFile flaw))
end

