-- ==== Sys2Proof/Laws/Decode.lean ====
section
/-! SUPPORT. The fields of a command word and the byte lanes of a word: what the decoder and the encoder rest on. -/

namespace Sys2Proof

theorem opField_toNat (w : Word) : (opField w).toNat = w.toNat % 256 := by
  simp [opField, BitVec.extractLsb'_toNat]

theorem subField_toNat (w : Word) : (subField w).toNat = w.toNat / 256 % 16 := by
  simp [subField, BitVec.extractLsb'_toNat, Nat.shiftRight_eq_div_pow]

theorem rsvField_toNat (w : Word) : (rsvField w).toNat = w.toNat / 4096 % 16 := by
  simp [rsvField, BitVec.extractLsb'_toNat, Nat.shiftRight_eq_div_pow]

theorem argField_toNat (w : Word) : (argField w).toNat = w.toNat / 65536 := by
  have := w.isLt
  simp [argField, BitVec.extractLsb'_toNat, Nat.shiftRight_eq_div_pow]; omega

/-- A command word as a number: OP + 2^8 · SUB + 2^16 · ARG (30_encoding R99). -/
theorem commandWord_toNat (op : Opcode) (sub : BitVec 4) (arg : Half) :
    (commandWord op sub arg).toNat = op.byte.toNat + 256 * sub.toNat + 65536 * arg.toNat := by
  have h1 := op.byte.isLt
  have h2 := sub.isLt
  have h3 := arg.isLt
  have e1 : op.byte.toNat ||| sub.toNat <<< 8 = op.byte.toNat + 256 * sub.toNat := by
    rw [Nat.or_comm, ← Nat.shiftLeft_add_eq_or_of_lt (b := op.byte.toNat) (by omega), Nat.shiftLeft_eq]; omega
  have e2 : (op.byte.toNat + 256 * sub.toNat) ||| arg.toNat <<< 16
      = op.byte.toNat + 256 * sub.toNat + 65536 * arg.toNat := by
    rw [Nat.or_comm, ← Nat.shiftLeft_add_eq_or_of_lt (b := op.byte.toNat + 256 * sub.toNat) (by omega), Nat.shiftLeft_eq]
    omega
  have m1 : sub.toNat <<< 8 % 2 ^ 32 = sub.toNat <<< 8 := by rw [Nat.shiftLeft_eq]; omega
  have m2 : arg.toNat <<< 16 % 2 ^ 32 = arg.toNat <<< 16 := by rw [Nat.shiftLeft_eq]; omega
  simp only [commandWord, BitVec.toNat_or, BitVec.toNat_setWidth, BitVec.toNat_shiftLeft]
  rw [Nat.mod_eq_of_lt (by omega : op.byte.toNat < 2 ^ 32), Nat.mod_eq_of_lt (by omega : sub.toNat < 2 ^ 32),
    Nat.mod_eq_of_lt (by omega : arg.toNat < 2 ^ 32), m1, m2, e1, e2]

@[simp] theorem opField_commandWord (op : Opcode) (sub : BitVec 4) (arg : Half) :
    opField (commandWord op sub arg) = op.byte := by
  apply BitVec.eq_of_toNat_eq
  have := op.byte.isLt
  rw [opField_toNat, commandWord_toNat]; omega

@[simp] theorem subField_commandWord (op : Opcode) (sub : BitVec 4) (arg : Half) :
    subField (commandWord op sub arg) = sub := by
  apply BitVec.eq_of_toNat_eq
  have := op.byte.isLt
  have := sub.isLt
  rw [subField_toNat, commandWord_toNat]; omega

@[simp] theorem rsvField_commandWord (op : Opcode) (sub : BitVec 4) (arg : Half) :
    rsvField (commandWord op sub arg) = 0#4 := by
  apply BitVec.eq_of_toNat_eq
  have := op.byte.isLt
  have := sub.isLt
  rw [rsvField_toNat, commandWord_toNat, BitVec.toNat_ofNat]; omega

@[simp] theorem argField_commandWord (op : Opcode) (sub : BitVec 4) (arg : Half) :
    argField (commandWord op sub arg) = arg := by
  apply BitVec.eq_of_toNat_eq
  have := op.byte.isLt
  have := sub.isLt
  rw [argField_toNat, commandWord_toNat]; omega

/-- A word with RSV = 0 is put together again from its three other fields. -/
theorem commandWord_fields {w : Word} {op : Opcode} (hop : opField w = op.byte) (hrsv : rsvField w = 0#4) :
    commandWord op (subField w) (argField w) = w := by
  apply BitVec.eq_of_toNat_eq
  have h := congrArg BitVec.toNat hrsv
  rw [rsvField_toNat, BitVec.toNat_ofNat] at h
  rw [commandWord_toNat, ← hop, opField_toNat, subField_toNat, argField_toNat]; omega

/-- Each opcode's byte is read as that opcode (30_encoding R99). -/
@[simp] theorem Opcode.ofByte_byte (op : Opcode) : Opcode.ofByte op.byte = some op := by cases op <;> rfl

/-- A byte that is read as an opcode is that opcode's byte (30_encoding R99). -/
theorem Opcode.byte_of_ofByte {b : BitVec 8} {op : Opcode} (h : Opcode.ofByte b = some op) : op.byte = b := by
  have all : ∀ b : BitVec 8, ((Opcode.ofByte b).map Opcode.byte).getD b = b := by decide
  have := all b
  rw [h] at this; exact this

theorem Pid.ofField_toField {pid : Pid} (h : pid.wellFormed = true) : Pid.ofField pid.toField = pid := by
  cases pid with
  | other n => exact (by decide : ∀ n : BitVec 4, 9 ≤ n.toNat → Pid.ofField n = .other n) n (by simpa [Pid.wellFormed] using h)
  | _ => rfl

theorem Pid.toField_ofField (n : BitVec 4) : (Pid.ofField n).toField = n := by revert n; decide

theorem Pid.wellFormed_ofField (n : BitVec 4) : (Pid.ofField n).wellFormed = true := by revert n; decide

theorem Mode.ofField_toField {mode : Mode} (h : mode.wellFormed = true) : Mode.ofField mode.toField = mode := by
  cases mode with
  | other n => exact (by decide : ∀ n : BitVec 4, 2 ≤ n.toNat → Mode.ofField n = .other n) n (by simpa [Mode.wellFormed] using h)
  | _ => rfl

theorem Mode.toField_ofField (n : BitVec 4) : (Mode.ofField n).toField = n := by revert n; decide

theorem Mode.wellFormed_ofField (n : BitVec 4) : (Mode.ofField n).wellFormed = true := by revert n; decide

@[simp] theorem Sel.ofField?_toField (sel : Sel) : Sel.ofField? sel.toField = some sel := by cases sel <;> rfl

theorem Sel.toField_ofField? {n : BitVec 4} {sel : Sel} (h : Sel.ofField? n = some sel) : sel.toField = n := by
  have all : ∀ n : BitVec 4, ((Sel.ofField? n).map Sel.toField).getD n = n := by decide
  have := all n
  rw [h] at this; exact this

theorem wordOfBytes_toNat (b0 b1 b2 b3 : Byte) :
    (wordOfBytes b0 b1 b2 b3).toNat = b0.toNat + 256 * b1.toNat + 65536 * b2.toNat + 16777216 * b3.toNat := by
  have h0 := b0.isLt
  have h1 := b1.isLt
  have h2 := b2.isLt
  simp only [wordOfBytes, BitVec.toNat_append]
  rw [← Nat.shiftLeft_add_eq_or_of_lt h0, ← Nat.shiftLeft_add_eq_or_of_lt h1, ← Nat.shiftLeft_add_eq_or_of_lt h2]
  simp only [Nat.shiftLeft_eq]; omega

theorem laneOfWord_toNat (w : Word) (k : Nat) : (laneOfWord w k).toNat = w.toNat / 2 ^ (8 * k) % 256 := by
  simp [laneOfWord, BitVec.extractLsb'_toNat, Nat.shiftRight_eq_div_pow]

/-- A word is put together again from its four byte lanes (20_memory R68). -/
@[simp] theorem wordOfBytes_lanes (w : Word) :
    wordOfBytes (laneOfWord w 0) (laneOfWord w 1) (laneOfWord w 2) (laneOfWord w 3) = w := by
  apply BitVec.eq_of_toNat_eq
  have := w.isLt
  rw [wordOfBytes_toNat, laneOfWord_toNat, laneOfWord_toNat, laneOfWord_toNat, laneOfWord_toNat]
  norm_num; omega

end Sys2Proof
end

