-- ==== Sys2Proof/Laws/State.lean ====
section
/-! SUPPORT. One lemma per field per update, each true by definition: what the shared operations on the core, on the bus
and on the whole state leave in each field. -/

namespace Sys2Proof.Machine

section Core

variable (c : CoreState) (r : Result) (e : ErrorCode) (out : List Word)

@[simp] theorem CoreState.succeed_opa : (c.succeed r).opa = c.opa := rfl
@[simp] theorem CoreState.succeed_opb : (c.succeed r).opb = c.opb := rfl
@[simp] theorem CoreState.succeed_res0 : (c.succeed r).res0 = r.res0 := rfl
@[simp] theorem CoreState.succeed_res1 : (c.succeed r).res1 = r.res1 := rfl
@[simp] theorem CoreState.succeed_rlen : (c.succeed r).rlen = r.rlen := rfl
@[simp] theorem CoreState.succeed_err : (c.succeed r).err = false := rfl
@[simp] theorem CoreState.succeed_errCode : (c.succeed r).errCode = .none := rfl
@[simp] theorem CoreState.succeed_inLen : (c.succeed r).inLen = c.inLen := rfl
@[simp] theorem CoreState.succeed_outLen : (c.succeed r).outLen = c.outLen := rfl
@[simp] theorem CoreState.succeed_tin : (c.succeed r).tin = c.tin := rfl
@[simp] theorem CoreState.succeed_tout : (c.succeed r).tout = c.tout := rfl
@[simp] theorem CoreState.succeed_rounds : (c.succeed r).rounds = c.rounds := rfl
@[simp] theorem CoreState.succeed_p : (c.succeed r).p = c.p := rfl
@[simp] theorem CoreState.succeed_q : (c.succeed r).q = c.q := rfl
@[simp] theorem CoreState.succeed_pad : (c.succeed r).pad = c.pad := rfl
@[simp] theorem CoreState.succeed_sbox1 : (c.succeed r).sbox1 = c.sbox1 := rfl
@[simp] theorem CoreState.succeed_sbox2 : (c.succeed r).sbox2 = c.sbox2 := rfl

@[simp] theorem CoreState.raise_opa : (c.raise e).opa = c.opa := rfl
@[simp] theorem CoreState.raise_opb : (c.raise e).opb = c.opb := rfl
@[simp] theorem CoreState.raise_res0 : (c.raise e).res0 = 0#32 := rfl
@[simp] theorem CoreState.raise_res1 : (c.raise e).res1 = 0#32 := rfl
@[simp] theorem CoreState.raise_rlen : (c.raise e).rlen = 0#6 := rfl
@[simp] theorem CoreState.raise_err : (c.raise e).err = true := rfl
@[simp] theorem CoreState.raise_errCode : (c.raise e).errCode = e := rfl
@[simp] theorem CoreState.raise_inLen : (c.raise e).inLen = c.inLen := rfl
@[simp] theorem CoreState.raise_outLen : (c.raise e).outLen = c.outLen := rfl
@[simp] theorem CoreState.raise_tin : (c.raise e).tin = c.tin := rfl
@[simp] theorem CoreState.raise_tout : (c.raise e).tout = c.tout := rfl
@[simp] theorem CoreState.raise_rounds : (c.raise e).rounds = c.rounds := rfl
@[simp] theorem CoreState.raise_p : (c.raise e).p = c.p := rfl
@[simp] theorem CoreState.raise_q : (c.raise e).q = c.q := rfl
@[simp] theorem CoreState.raise_pad : (c.raise e).pad = c.pad := rfl
@[simp] theorem CoreState.raise_sbox1 : (c.raise e).sbox1 = c.sbox1 := rfl
@[simp] theorem CoreState.raise_sbox2 : (c.raise e).sbox2 = c.sbox2 := rfl

@[simp] theorem CoreState.raiseText_opa : (c.raiseText e).opa = c.opa := rfl
@[simp] theorem CoreState.raiseText_opb : (c.raiseText e).opb = c.opb := rfl
@[simp] theorem CoreState.raiseText_res0 : (c.raiseText e).res0 = 0#32 := rfl
@[simp] theorem CoreState.raiseText_res1 : (c.raiseText e).res1 = 0#32 := rfl
@[simp] theorem CoreState.raiseText_rlen : (c.raiseText e).rlen = 0#6 := rfl
@[simp] theorem CoreState.raiseText_err : (c.raiseText e).err = true := rfl
@[simp] theorem CoreState.raiseText_errCode : (c.raiseText e).errCode = e := rfl
@[simp] theorem CoreState.raiseText_inLen : (c.raiseText e).inLen = c.inLen := rfl
@[simp] theorem CoreState.raiseText_outLen : (c.raiseText e).outLen = 0#32 := rfl
@[simp] theorem CoreState.raiseText_tin : (c.raiseText e).tin = c.tin := rfl
@[simp] theorem CoreState.raiseText_tout : (c.raiseText e).tout = c.tout := rfl
@[simp] theorem CoreState.raiseText_rounds : (c.raiseText e).rounds = c.rounds := rfl
@[simp] theorem CoreState.raiseText_p : (c.raiseText e).p = c.p := rfl
@[simp] theorem CoreState.raiseText_q : (c.raiseText e).q = c.q := rfl
@[simp] theorem CoreState.raiseText_pad : (c.raiseText e).pad = c.pad := rfl
@[simp] theorem CoreState.raiseText_sbox1 : (c.raiseText e).sbox1 = c.sbox1 := rfl
@[simp] theorem CoreState.raiseText_sbox2 : (c.raiseText e).sbox2 = c.sbox2 := rfl

@[simp] theorem CoreState.succeedText_opa : (c.succeedText out).opa = c.opa := rfl
@[simp] theorem CoreState.succeedText_opb : (c.succeedText out).opb = c.opb := rfl
@[simp] theorem CoreState.succeedText_res0 : (c.succeedText out).res0 = 0#32 := rfl
@[simp] theorem CoreState.succeedText_res1 : (c.succeedText out).res1 = 0#32 := rfl
@[simp] theorem CoreState.succeedText_rlen : (c.succeedText out).rlen = 0#6 := rfl
@[simp] theorem CoreState.succeedText_err : (c.succeedText out).err = false := rfl
@[simp] theorem CoreState.succeedText_errCode : (c.succeedText out).errCode = .none := rfl
@[simp] theorem CoreState.succeedText_inLen : (c.succeedText out).inLen = c.inLen := rfl
@[simp] theorem CoreState.succeedText_outLen : (c.succeedText out).outLen = BitVec.ofNat 32 out.length := rfl
@[simp] theorem CoreState.succeedText_tin : (c.succeedText out).tin = c.tin := rfl
@[simp] theorem CoreState.succeedText_tout : (c.succeedText out).tout = c.tout.writeText 0 out := rfl
@[simp] theorem CoreState.succeedText_rounds : (c.succeedText out).rounds = c.rounds := rfl
@[simp] theorem CoreState.succeedText_p : (c.succeedText out).p = c.p := rfl
@[simp] theorem CoreState.succeedText_q : (c.succeedText out).q = c.q := rfl
@[simp] theorem CoreState.succeedText_pad : (c.succeedText out).pad = c.pad := rfl
@[simp] theorem CoreState.succeedText_sbox1 : (c.succeedText out).sbox1 = c.sbox1 := rfl
@[simp] theorem CoreState.succeedText_sbox2 : (c.succeedText out).sbox2 = c.sbox2 := rfl

theorem CoreState.complete_ok : c.complete (.ok r) = c.succeed r := rfl

theorem CoreState.complete_error : c.complete (.error e) = c.raise e := rfl

end Core

section Machine

variable (s : State) (f : CoreState → CoreState) (line : ResetLine) (v : Word) (es : List Event)

@[simp] theorem State.onCore_cfg : (s.onCore f).cfg = s.cfg := rfl
@[simp] theorem State.onCore_core : (s.onCore f).core = f s.core := rfl
@[simp] theorem State.onCore_bus : (s.onCore f).bus = s.bus := rfl

@[simp] theorem State.setLine_cfg : (s.setLine line).cfg = s.cfg := rfl
@[simp] theorem State.setLine_core : (s.setLine line).core = s.core := rfl
@[simp] theorem State.setLine_pending : (s.setLine line).bus.pending = s.bus.pending := rfl
@[simp] theorem State.setLine_reads : (s.setLine line).bus.reads = s.bus.reads := rfl
@[simp] theorem State.setLine_line : (s.setLine line).bus.line = line := rfl
@[simp] theorem State.setLine_free : (s.setLine line).bus.free = s.bus.free := rfl

@[simp] theorem State.releaseReset_cfg : s.releaseReset.cfg = s.cfg := rfl
@[simp] theorem State.releaseReset_core : s.releaseReset.core = CoreState.reset s.cfg := rfl
@[simp] theorem State.releaseReset_pending : s.releaseReset.bus.pending = s.bus.pending := rfl
@[simp] theorem State.releaseReset_reads : s.releaseReset.bus.reads = s.bus.reads := rfl
@[simp] theorem State.releaseReset_line : s.releaseReset.bus.line = .released := rfl
@[simp] theorem State.releaseReset_free : s.releaseReset.bus.free = s.bus.free := rfl

@[simp] theorem State.returnRead_cfg : (s.returnRead v).cfg = s.cfg := rfl
@[simp] theorem State.returnRead_core : (s.returnRead v).core = s.core := rfl
@[simp] theorem State.returnRead_pending : (s.returnRead v).bus.pending = s.bus.pending := rfl
@[simp] theorem State.returnRead_reads : (s.returnRead v).bus.reads = s.bus.reads ++ [v] := rfl
@[simp] theorem State.returnRead_line : (s.returnRead v).bus.line = s.bus.line := rfl
@[simp] theorem State.returnRead_free : (s.returnRead v).bus.free = s.bus.free := rfl

@[simp] theorem State.drawFree_value : s.drawFree.1 = Config.freeWord s.bus.free := rfl
@[simp] theorem State.drawFree_cfg : s.drawFree.2.cfg = s.cfg := rfl
@[simp] theorem State.drawFree_core : s.drawFree.2.core = s.core := rfl
@[simp] theorem State.drawFree_pending : s.drawFree.2.bus.pending = s.bus.pending := rfl
@[simp] theorem State.drawFree_reads : s.drawFree.2.bus.reads = s.bus.reads := rfl
@[simp] theorem State.drawFree_line : s.drawFree.2.bus.line = s.bus.line := rfl
@[simp] theorem State.drawFree_free : s.drawFree.2.bus.free = s.bus.free + 1 := rfl

@[simp] theorem State.issue_cfg : (s.issue es).cfg = s.cfg := rfl
@[simp] theorem State.issue_core : (s.issue es).core = s.core := rfl
@[simp] theorem State.issue_pending : (s.issue es).bus.pending = s.bus.pending ++ es := rfl
@[simp] theorem State.issue_reads : (s.issue es).bus.reads = s.bus.reads := rfl
@[simp] theorem State.issue_line : (s.issue es).bus.line = s.bus.line := rfl
@[simp] theorem State.issue_free : (s.issue es).bus.free = s.bus.free := rfl

end Machine

end Sys2Proof.Machine
end

