-- ==== Sys2Proof/Laws/Ops.lean ====
section
/-! SUPPORT. What each shared operation does: the checks of a command, the text buffers, and the canonical form that every
buffer operation keeps. -/

namespace Sys2Proof.Machine

/-! ### Checks -/

@[simp] theorem require_true (e : ErrorCode) : require true e = .ok () := rfl

@[simp] theorem require_false (e : ErrorCode) : require false e = .error e := rfl

theorem require_eq_ok {b : Bool} {e : ErrorCode} {u : Unit} : require b e = .ok u ↔ b = true := by
  cases b <;> simp

theorem require_eq_error {b : Bool} {e e' : ErrorCode} : require b e = .error e' ↔ b = false ∧ e = e' := by
  cases b <;> simp

@[simp] theorem ok_bind {ε α β : Type} (a : α) (f : α → Except ε β) : ((Except.ok a : Except ε α) >>= f) = f a := rfl

@[simp] theorem error_bind {ε α β : Type} (e : ε) (f : α → Except ε β) :
    ((Except.error e : Except ε α) >>= f) = .error e := rfl

@[simp] theorem pure_eq_ok {ε α : Type} (a : α) : (pure a : Except ε α) = .ok a := rfl

/-- A sequence of checks succeeds exactly when each does. -/
theorem bind_eq_ok {ε α β : Type} {x : Except ε α} {f : α → Except ε β} {b : β} :
    (x >>= f) = .ok b ↔ ∃ a, x = .ok a ∧ f a = .ok b := by
  cases x <;> simp

/-- A sequence of checks fails with the error of the first that fails (60_exceptions R303). -/
theorem bind_eq_error {ε α β : Type} {x : Except ε α} {f : α → Except ε β} {e : ε} :
    (x >>= f) = .error e ↔ x = .error e ∨ ∃ a, x = .ok a ∧ f a = .error e := by
  cases x <;> simp

theorem bothTables_eq_ok {c : CoreState} {t1 t2 : Table} :
    c.sbox1.table = .ok t1 ∧ c.sbox2.table = .ok t2 ↔ c.sbox1 = .loaded t1 ∧ c.sbox2 = .loaded t2 := by
  cases h1 : c.sbox1 <;> cases h2 : c.sbox2 <;> simp [SBox.table]

/-! ### Text buffers -/

namespace Buffer

theorem read_nil (k : Nat) : Buffer.read [] k = none := rfl

theorem read_cons (j : Nat) (u : Word) (b : Buffer) (k : Nat) :
    Buffer.read ((j, u) :: b) k = if k = j then some u else Buffer.read b k := by
  by_cases h : k = j
  · subst h; simp [Buffer.read, List.lookup]
  · have : (k == j) = false := by simpa using h
    simp [Buffer.read, List.lookup, this, h]

/-- The entry written reads as the value written. -/
@[simp] theorem read_write_same (b : Buffer) (k : Nat) (v : Word) : (b.write k v).read k = some v := by
  induction b with
  | nil => simp [Buffer.write, read_cons]
  | cons x b ih =>
    obtain ⟨j, u⟩ := x
    unfold Buffer.write
    split
    · simp [read_cons]
    · split
      · simp [read_cons]
      · rename_i h; simp [read_cons, h, ih]

/-- A write leaves every other entry as it was. -/
theorem read_write_other (b : Buffer) {k j : Nat} (v : Word) (h : j ≠ k) : (b.write k v).read j = b.read j := by
  induction b with
  | nil => simp [Buffer.write, read_cons, h, read_nil]
  | cons x b ih =>
    obtain ⟨i, u⟩ := x
    unfold Buffer.write
    split
    · simp [read_cons, h]
    · split
      · rename_i hk; subst hk; simp [read_cons, h]
      · by_cases hj : j = i <;> simp [read_cons, hj, ih]

theorem wfFrom_mono {low low' size : Nat} {b : Buffer} (hl : low ≤ low') (h : wfFrom low' size b = true) :
    wfFrom low size b = true := by
  cases b with
  | nil => rfl
  | cons x b =>
    obtain ⟨k, u⟩ := x
    simp only [wfFrom, Bool.and_eq_true, decide_eq_true_eq] at h ⊢
    exact ⟨⟨le_trans hl h.1.1, h.1.2⟩, h.2⟩

theorem write_wfFrom {low size k : Nat} (v : Word) (hl : low ≤ k) (hk : k < size) {b : Buffer}
    (h : wfFrom low size b = true) : wfFrom low size (b.write k v) = true := by
  induction b generalizing low with
  | nil => simp [Buffer.write, wfFrom, hl, hk]
  | cons x b ih =>
    obtain ⟨j, u⟩ := x
    simp only [wfFrom, Bool.and_eq_true, decide_eq_true_eq] at h
    unfold Buffer.write
    split
    · rename_i hkj
      simp only [wfFrom, Bool.and_eq_true, decide_eq_true_eq]
      exact ⟨⟨hl, hk⟩, ⟨hkj, h.1.2⟩, h.2⟩
    · split
      · rename_i hkj; subst hkj
        simp only [wfFrom, Bool.and_eq_true, decide_eq_true_eq]
        exact ⟨⟨hl, hk⟩, h.2⟩
      · simp only [wfFrom, Bool.and_eq_true, decide_eq_true_eq]
        exact ⟨h.1, ih (by omega) h.2⟩

/-- A write within the buffer keeps the canonical form. -/
theorem write_wf {size k : Nat} (v : Word) (hk : k < size) {b : Buffer} (h : b.wf size = true) :
    (b.write k v).wf size = true := write_wfFrom v (Nat.zero_le k) hk h

/-- Writing a text that fits in the buffer keeps the canonical form. -/
theorem writeText_wf {size : Nat} (out : List Word) {b : Buffer} {k : Nat} (hk : k + out.length ≤ size)
    (h : b.wf size = true) : (b.writeText k out).wf size = true := by
  induction out generalizing b k with
  | nil => exact h
  | cons v out ih =>
    simp only [List.length_cons] at hk
    exact ih (by omega) (write_wf v (by omega) h)

/-- What an entry reads as after a text is written: the text's character where the text reaches, else what it was. -/
theorem read_writeText (out : List Word) (b : Buffer) (k j : Nat) :
    (b.writeText k out).read j = if k ≤ j ∧ j < k + out.length then out[j - k]? else b.read j := by
  induction out generalizing b k with
  | nil =>
    have h : ¬(k ≤ j ∧ j < k + ([] : List Word).length) := by simp
    rw [if_neg h]; rfl
  | cons v out ih =>
    rw [Buffer.writeText, ih]
    by_cases hj : j = k
    · subst hj
      have h1 : ¬(j + 1 ≤ j ∧ j < j + 1 + out.length) := by omega
      have h2 : j ≤ j ∧ j < j + (v :: out).length := by simp
      rw [if_neg h1, if_pos h2]; simp
    · by_cases hin : k ≤ j ∧ j < k + (v :: out).length
      · have h1 : k + 1 ≤ j ∧ j < k + 1 + out.length := by
          simp only [List.length_cons] at hin; omega
        rw [if_pos h1, if_pos hin]
        obtain ⟨d, hd⟩ : ∃ d, j - k = d + 1 := ⟨j - k - 1, by omega⟩
        have hd' : j - (k + 1) = d := by omega
        rw [hd, hd']; rfl
      · have h1 : ¬(k + 1 ≤ j ∧ j < k + 1 + out.length) := by
          simp only [List.length_cons] at hin; omega
        rw [if_neg h1, if_neg hin, read_write_other _ _ hj]

/-- A text is read exactly when each of its entries has been written, and it is those entries. -/
theorem readText_eq_some {b : Buffer} {k n : Nat} {t : List Word} :
    b.readText k n = some t ↔ t.length = n ∧ ∀ j, j < n → b.read (k + j) = t[j]? := by
  induction n generalizing k t with
  | zero =>
    simp only [Buffer.readText, Option.some.injEq]
    constructor
    · rintro rfl; simp
    · rintro ⟨h, -⟩; exact (List.length_eq_zero_iff.mp h).symm
  | succ n ih =>
    unfold Buffer.readText
    constructor
    · intro h
      split at h
      · rename_i v rest hv hr
        obtain rfl := Option.some.inj h
        obtain ⟨hl, hrest⟩ := ih.mp hr
        refine ⟨by simp [hl], fun j hj => ?_⟩
        cases j with
        | zero => simpa using hv
        | succ j =>
          have := hrest j (by omega)
          rw [show k + (j + 1) = k + 1 + j by omega]; simpa using this
      · cases h
    · rintro ⟨hl, h⟩
      cases t with
      | nil => simp at hl
      | cons v rest =>
        have h0 : b.read k = some v := by simpa using h 0 (by omega)
        have hr : b.readText (k + 1) n = some rest := by
          refine ih.mpr ⟨by simpa using hl, fun j hj => ?_⟩
          have := h (j + 1) (by omega)
          rw [show k + 1 + j = k + (j + 1) by omega]; simpa using this
        rw [h0, hr]

/-- A text cannot be read exactly when one of its entries has not been written. -/
theorem readText_eq_none {b : Buffer} {k n : Nat} :
    b.readText k n = none ↔ ∃ j, j < n ∧ b.read (k + j) = none := by
  induction n generalizing k with
  | zero => simp [Buffer.readText]
  | succ n ih =>
    unfold Buffer.readText
    cases hv : b.read k with
    | none => simp only [true_iff]; exact ⟨0, by omega, hv⟩
    | some v =>
      cases hr : b.readText (k + 1) n with
      | none =>
        simp only [true_iff]
        obtain ⟨j, hj, h⟩ := ih.mp hr
        exact ⟨j + 1, by omega, by rw [show k + (j + 1) = k + 1 + j by omega]; exact h⟩
      | some rest =>
        simp only [reduceCtorEq, false_iff, not_exists, not_and]
        intro j hj h
        cases j with
        | zero => simp [hv] at h
        | succ j =>
          have : b.readText (k + 1) n = none :=
            ih.mpr ⟨j, by omega, by rw [show k + 1 + j = k + (j + 1) by omega]; exact h⟩
          simp [hr] at this

end Buffer

end Sys2Proof.Machine
end

