-- ==== Sys2Proof/Laws/Step.lean ====
section
/-! SUPPORT. What one step does with each kind of event, and what each shared piece of a command can answer. -/

namespace Sys2Proof.Machine

@[simp] theorem writeWord_lanesOfWord (w : Word) : writeWord (lanesOfWord w) = some w := by
  simp [lanesOfWord, writeWord]

/-- With nothing pending the core waits (70_reset R343). -/
theorem step_nil {s : State} (h : s.bus.pending = []) : step s = .next s := by
  simp [step, nextEvent, h]

/-- A step takes the first pending event. -/
theorem step_event (s : State) (e : Event) (rest : List Event) :
    step { s with bus := { s.bus with pending := e :: rest } }
      = performEvent e { s with bus := { s.bus with pending := rest } } := rfl

/-- An event while the reset input is released is an access, or an edge of that input. -/
theorem performEvent_released {s : State} (e : Event) (h : s.bus.line = .released) :
    performEvent e s = accessReleased e s := by
  simp [performEvent, h]

/-- A defined write of w does what a write of w to the register there does. -/
theorem step_write (s : State) (w : Word) {offset : Nat} (hl : s.bus.line = .released)
    (ho : offsetDefined offset = true) :
    step { s with bus := { s.bus with pending := .write offset (lanesOfWord w) :: s.bus.pending } }
      = hostWrite (regAt s.cfg offset) w s := by
  rw [step_event, performEvent_released (s := s) _ hl]
  simp [accessReleased, ho]

/-- A defined read does what a read of the register there does. -/
theorem step_read (s : State) {offset : Nat} (hl : s.bus.line = .released) (ho : offsetDefined offset = true) :
    step { s with bus := { s.bus with pending := .read offset [true, true, true, true] :: s.bus.pending } }
      = .next (hostRead (regAt s.cfg offset) s) := by
  rw [step_event, performEvent_released (s := s) _ hl]
  simp [accessReleased, readDefined, ho]

/-- A command with a result ends in its success outcome or in its error outcome. -/
theorem CoreState.complete_cases (c : CoreState) (x : Except ErrorCode Result) :
    (∃ r, x = .ok r ∧ c.complete x = c.succeed r) ∨ (∃ e, x = .error e ∧ c.complete x = c.raise e) := by
  cases x with
  | ok r => exact .inl ⟨r, rfl, rfl⟩
  | error e => exact .inr ⟨e, rfl, rfl⟩

/-- Everything a text command with a supported mode can answer (45_modes R263 to R266). -/
theorem textCommand_cases (run : CoreState → List Word → Except ErrorCode (List Word)) (s : State) :
    (s.cfg.textMax < s.core.inLen.toNat ∧
      textCommand run s = .next (s.onCore fun c => c.raiseText .textTooLong)) ∨
    (s.core.inLen.toNat ≤ s.cfg.textMax ∧
      ((s.core.tin.readText 0 s.core.inLen.toNat = none ∧ textCommand run s = .fault .unwrittenText) ∨
        ∃ t, s.core.tin.readText 0 s.core.inLen.toNat = some t ∧
          ((∃ out, run s.core t = .ok out ∧ textCommand run s = .next (s.onCore fun c => c.succeedText out)) ∨
            ∃ e, run s.core t = .error e ∧ textCommand run s = .next (s.onCore fun c => c.raiseText e)))) := by
  by_cases hlen : s.cfg.textMax < s.core.inLen.toNat
  · exact .inl ⟨hlen, by simp [textCommand, hlen]⟩
  · refine .inr ⟨Nat.le_of_not_lt hlen, ?_⟩
    cases ht : s.core.tin.readText 0 s.core.inLen.toNat with
    | none => exact .inl ⟨rfl, by simp [textCommand, hlen, ht]⟩
    | some t =>
      refine .inr ⟨t, rfl, ?_⟩
      cases hr : run s.core t with
      | ok out => exact .inl ⟨out, rfl, by simp [textCommand, hlen, ht, State.onCore, hr]⟩
      | error e => exact .inr ⟨e, rfl, by simp [textCommand, hlen, ht, State.onCore, hr]⟩

/-- Everything SETP can answer: the core with the item set and the success outcome, or the error outcome
(40_config R122; 60_exceptions R301, R302). -/
theorem execSetp_cases (pid : Pid) (s : State) :
    (∃ c, setParam s.cfg s.core pid = .ok c ∧ execSetp pid s = .next { s with core := c.succeed {} }) ∨
    (∃ e, setParam s.cfg s.core pid = .error e ∧ execSetp pid s = .next { s with core := s.core.raise e }) := by
  cases h : setParam s.cfg s.core pid with
  | ok c => exact .inl ⟨c, rfl, by simp [execSetp, State.onCore, h]⟩
  | error e => exact .inr ⟨e, rfl, by simp [execSetp, State.onCore, h]⟩

end Sys2Proof.Machine
end

