-- ==== Sys2Proof/Laws/Access.lean ====
section
/-! SUPPORT. The address map: which register stands at the offsets of the buffers and of the reserved ranges, and what a
defined read returns. -/

namespace Sys2Proof.Machine

theorem textMax_le {cfg : Config} (h : cfg.wf = true) : cfg.textMax ≤ 16383 := by
  simp only [Config.wf, Bool.and_eq_true, decide_eq_true_eq] at h
  exact h.1.1.1.1.2

/-- The aligned offsets of the window (20_memory R63). -/
theorem offsetDefined_eq_true {offset : Nat} : offsetDefined offset = true ↔ offset % 4 = 0 ∧ offset < 0x30000 := by
  simp [offsetDefined]

/-- The entries of TIN (20_memory R62). -/
theorem regAt_tin {cfg : Config} (hw : cfg.wf = true) {k : Nat} (h : k < cfg.textMax) :
    regAt cfg (0x10000 + 4 * k) = .tin k := by
  have := textMax_le hw
  unfold regAt tinOffset toutOffset
  iterate 12 rw [if_neg (by omega)]
  rw [if_pos (by omega), show (0x10000 + 4 * k - 0x10000) / 4 = k by omega, if_pos h]

/-- The entries of TOUT (20_memory R62). -/
theorem regAt_tout {cfg : Config} {k : Nat} (h : k ≤ cfg.textMax) : regAt cfg (0x20000 + 4 * k) = .tout k := by
  unfold regAt tinOffset toutOffset
  iterate 13 rw [if_neg (by omega)]
  rw [show (0x20000 + 4 * k - 0x20000) / 4 = k by omega, if_pos h]

/-- The reserved offsets (20_memory R62, R64). -/
theorem regAt_reserved {cfg : Config} {offset : Nat} (h4 : offset % 4 = 0)
    (h : (0x02C ≤ offset ∧ offset < 0x10000) ∨ (0x10000 + 4 * cfg.textMax ≤ offset ∧ offset < 0x20000) ∨
      (0x20000 ≤ offset ∧ 0x20000 + 4 * cfg.textMax < offset)) : regAt cfg offset = .reserved := by
  unfold regAt tinOffset toutOffset
  iterate 11 rw [if_neg (by omega)]
  by_cases h1 : offset < 0x10000
  · rw [if_pos h1]
  · rw [if_neg h1]
    by_cases h2 : offset < 0x20000
    · rw [if_pos h2, if_neg (by omega)]
    · rw [if_neg h2, if_neg (by omega)]

/-- A defined read of an entry that has a value returns it and changes nothing of the core (20_memory R66). -/
theorem step_read_value (s : State) {offset : Nat} {v : Word} (hl : s.bus.line = .released) (h4 : offset % 4 = 0)
    (hlt : offset < 0x30000) (h : regValue s.cfg s.core (regAt s.cfg offset) = some v) :
    step { s with bus := { s.bus with pending := .read offset [true, true, true, true] :: s.bus.pending } } =
      .next { s with bus := { s.bus with reads := s.bus.reads ++ [v] } } := by
  rw [step_read s hl (offsetDefined_eq_true.mpr ⟨h4, hlt⟩)]
  unfold hostRead; rw [h]; rfl

end Sys2Proof.Machine
end

