-- ==== Sys2Proof/Laws/Values.lean ====
section
/-! SUPPORT. The operands of a command as numbers: bit strings in a register, halves put side by side, packed table rows. -/

namespace Sys2Proof.Machine

/-- Two bit strings side by side, as numbers. -/
theorem append_toNat {n m : Nat} (a : BitVec n) (b : BitVec m) : (a ++ b).toNat = a.toNat * 2 ^ m + b.toNat := by
  rw [BitVec.toNat_append, ← Nat.shiftLeft_add_eq_or_of_lt b.isLt, Nat.shiftLeft_eq]

/-- The bit string of n bits in a register is the register's value modulo 2^n (20_memory R69). -/
theorem bitString_eq (n : Nat) (v : Word) : bitString n v = BitVec.ofNat n v.toNat := by
  apply BitVec.eq_of_toNat_eq; simp [bitString, BitVec.extractLsb'_toNat]

/-- A register that passes the check of 92 D18 holds exactly its bit string. -/
theorem bitString_toNat_of_fits {n : Nat} {v : Word} (h : fits n v = true) : (bitString n v).toNat = v.toNat := by
  rw [bitString_eq, BitVec.toNat_ofNat]; exact Nat.mod_eq_of_lt (by simpa [fits] using h)

theorem fits_eq_true {n : Nat} {v : Word} : fits n v = true ↔ v.toNat < 2 ^ n := by simp [fits]

theorem fits_eq_false {n : Nat} {v : Word} : fits n v = false ↔ 2 ^ n ≤ v.toNat := by simp [fits]

/-- Entry c of an unpacked row is the c-th group of three bits (40_config R129). -/
theorem unpackRow_toNat (w : PackedRow) (col : Fin 8) : ((unpackRow w)[col]).toNat = w.toNat / 2 ^ (3 * col.val) % 8 := by
  simp [unpackRow, BitVec.extractLsb'_toNat, Nat.shiftRight_eq_div_pow]

/-- The c-th group of three bits of a packed row is entry c (40_config R129). -/
theorem packRow_toNat (row : Vector SboxOut 8) (col : Fin 8) :
    (packRow row).toNat / 2 ^ (3 * col.val) % 8 = (row[col]).toNat := by
  have h : ∀ i (hi : i < 8), (row[i]).toNat < 8 := fun i hi => (row[i]).isLt
  have := h 0 (by omega); have := h 1 (by omega); have := h 2 (by omega); have := h 3 (by omega)
  have := h 4 (by omega); have := h 5 (by omega); have := h 6 (by omega); have := h 7 (by omega)
  simp only [packRow, append_toNat]
  fin_cases col <;> simp <;> omega

/-- Unpacking a packed row gives the row (40_config R129). -/
@[simp] theorem unpackRow_packRow (row : Vector SboxOut 8) : unpackRow (packRow row) = row := by
  apply Vector.ext
  intro i hi
  apply BitVec.eq_of_toNat_eq
  exact (unpackRow_toNat _ ⟨i, hi⟩).trans (packRow_toNat row ⟨i, hi⟩)

/-- Packing an unpacked word gives the word (40_config R129). -/
@[simp] theorem packRow_unpackRow (w : PackedRow) : packRow (unpackRow w) = w := by
  apply BitVec.eq_of_toNat_eq
  have := w.isLt
  have h := fun c => unpackRow_toNat w c
  have h0 := h 0; have h1 := h 1; have h2 := h 2; have h3 := h 3
  have h4 := h 4; have h5 := h 5; have h6 := h 6; have h7 := h 7
  simp only [packRow, append_toNat]
  simp at h0 h1 h2 h3 h4 h5 h6 h7
  rw [h0, h1, h2, h3, h4, h5, h6, h7]
  omega

end Sys2Proof.Machine
end

