-- ==== Sys2Proof/Laws/Cipher.lean ====
section
/-! SUPPORT. The pieces of the cipher: the output bits of BBS, the table lookup, the halves of a block, and what a cipher
command finds of the key stream and the tables. -/

namespace Sys2Proof.Machine

/-- The first bit of a bit string is its most significant one (00_scope R6). -/
theorem bitsValue_cons (b : Bool) (bits : List Bool) : bitsValue (b :: bits) = b.toNat * 2 ^ bits.length + bitsValue bits := by
  have shift : ∀ (l : List Bool) (v : Nat),
      l.foldl (fun v b => 2 * v + b.toNat) v = v * 2 ^ l.length + l.foldl (fun v b => 2 * v + b.toNat) 0 := by
    intro l
    induction l with
    | nil => simp
    | cons c l ih =>
      intro v
      rw [List.foldl_cons, ih, List.foldl_cons, ih (2 * 0 + c.toNat), List.length_cons, pow_succ]; ring
  have := shift bits (2 * 0 + b.toNat)
  simpa [bitsValue] using this

theorem bitsValue_lt (bits : List Bool) : bitsValue bits < 2 ^ bits.length := by
  induction bits with
  | nil => decide
  | cons b l ih => rw [bitsValue_cons]; cases b <;> simp [pow_succ] <;> omega

@[simp] theorem bbsStream_length (n x bits : Nat) : (bbsStream n x bits).length = bits := by
  induction bits generalizing x with
  | zero => rfl
  | succ b ih => simp [bbsStream, ih]

/-- The gcd unit answers for positive operands (41_arith R151). -/
theorem gcd_eq_one {n s : Nat} (hn : n ≠ 0) (hs : s ≠ 0) : Machine.gcd n s = some 1 ↔ Nat.Coprime n s := by
  simp [Machine.gcd, hn, hs, Nat.Coprime]

/-- The lookup by row and column (43_sbox R193). -/
theorem substitute_eq (t : Table) (v : SboxIn) (col : Fin 8) (hc : col.val = v.toNat % 8) :
    substitute t v = if 8 ≤ v.toNat then t.row1[col] else t.row0[col] := by
  have h3 : v.getLsbD 3 = decide (8 ≤ v.toNat) :=
    (by decide : ∀ v : SboxIn, v.getLsbD 3 = decide (8 ≤ v.toNat)) v
  have hcol : (v.extractLsb' 0 3).toNat = col.val := by rw [hc]; simp [BitVec.extractLsb'_toNat]
  unfold substitute
  simp only [h3, hcol]
  by_cases h : 8 ≤ v.toNat <;> simp [h]

@[simp] theorem leftHalf_append (l r : HalfBlock) : leftHalf (l ++ r) = l := by
  apply BitVec.eq_of_toNat_eq
  have := l.isLt; have := r.isLt
  simp only [leftHalf, BitVec.extractLsb'_toNat, Nat.shiftRight_eq_div_pow, append_toNat]; omega

@[simp] theorem rightHalf_append (l r : HalfBlock) : rightHalf (l ++ r) = r := by
  apply BitVec.eq_of_toNat_eq
  have := r.isLt
  simp only [rightHalf, BitVec.extractLsb'_toNat, Nat.shiftRight_eq_div_pow, append_toNat]; omega

@[simp] theorem halves_append (b : Block) : leftHalf b ++ rightHalf b = b := by
  apply BitVec.eq_of_toNat_eq
  have := b.isLt
  rw [append_toNat]
  simp only [leftHalf, rightHalf, BitVec.extractLsb'_toNat, Nat.shiftRight_eq_div_pow]; omega

/-- The bits of a subkey (42_keystream R174). -/
theorem subkey_bit (k : KeyStream) (i : Nat) {j : Nat} (hj : j < 8) :
    (subkey k i).getLsbD (7 - j) = k.getLsbD (8 - (i - 1 + j) % 9) := by
  have : ∀ o, o = (i - 1) % 9 → (i - 1 + j) % 9 = (o + j) % 9 := by intro o h; subst h; omega
  rw [this _ rfl]
  unfold subkey
  generalize (i - 1) % 9 = o
  simp only [BitVec.getLsbD_append]
  interval_cases j <;> simp [keyBit]

/-- The subkeys of decryption, in the order in which they are used (44_feistel R232). -/
theorem roundKeys_reverse (k : KeyStream) (r : Nat) :
    (roundKeys k r).reverse = (List.range r).map fun i => subkey k (r - i) := by
  apply List.ext_getElem
  · simp [roundKeys]
  · intro i h1 h2
    simp [roundKeys] at h1 ⊢
    congr 1; omega

/-- One table is missing (44_feistel R218). -/
theorem bothTables_empty {c : CoreState} (h : c.sbox1 = .empty ∨ c.sbox2 = .empty) :
    bothTables c = .error .sboxEmpty := by
  unfold bothTables
  cases h1 : c.sbox1 <;> cases h2 : c.sbox2 <;> simp_all [SBox.table]

theorem bothTables_loaded {c : CoreState} {t1 t2 : Table} (h1 : c.sbox1 = .loaded t1) (h2 : c.sbox2 = .loaded t2) :
    bothTables c = .ok (t1, t2) := by
  unfold bothTables; rw [h1, h2]; rfl

/-- Everything a cipher command can find: the error of the key stream, a missing table, or both tables and the key stream
(44_feistel R231; 60_exceptions R303). -/
theorem cipherKey_cases (cfg : Config) (c : CoreState) :
    (∃ e, keyStream cfg c = .error e ∧ cipherKey cfg c = .error e) ∨
    (∃ k, keyStream cfg c = .ok k ∧ (c.sbox1 = .empty ∨ c.sbox2 = .empty) ∧ cipherKey cfg c = .error .sboxEmpty) ∨
    (∃ k t1 t2, keyStream cfg c = .ok k ∧ c.sbox1 = .loaded t1 ∧ c.sbox2 = .loaded t2 ∧
      cipherKey cfg c = .ok (k, t1, t2)) := by
  cases hk : keyStream cfg c with
  | error e => exact .inl ⟨e, rfl, by simp [cipherKey, hk]⟩
  | ok k =>
    cases h1 : c.sbox1 with
    | empty => exact .inr (.inl ⟨k, rfl, .inl rfl, by simp [cipherKey, hk, bothTables_empty (.inl h1)]⟩)
    | loaded t1 =>
      cases h2 : c.sbox2 with
      | empty => exact .inr (.inl ⟨k, rfl, .inr rfl, by simp [cipherKey, hk, bothTables_empty (.inr h2)]⟩)
      | loaded t2 => exact .inr (.inr ⟨k, t1, t2, rfl, rfl, rfl, by simp [cipherKey, hk, bothTables_loaded h1 h2]⟩)

end Sys2Proof.Machine
end

