-- ==== Sys2Proof/Laws/Text.lean ====
section
/-! SUPPORT. The pieces of the mode controller: reinsertion, blocks and symbols, chaining, the pad and the strip. -/

namespace Sys2Proof.Machine

/-- Positions moved up by one leave the first character alone. -/
theorem insertPositions_shift (x : Word) (o : List Word) (pos : List (Word × Nat)) :
    insertPositions (x :: o) (pos.map fun p => (p.1, p.2 + 1)) = x :: insertPositions o pos := by
  unfold insertPositions
  induction pos generalizing o with
  | nil => rfl
  | cons p pos ih =>
    simp only [List.map_cons, List.foldl_cons, List.take_succ_cons, List.drop_succ_cons, List.cons_append]
    exact ih _

theorem zipIdx_shift (t : List Word) (n : Nat) : t.zipIdx (n + 1) = (t.zipIdx n).map fun p => (p.1, p.2 + 1) := by
  induction t generalizing n with
  | nil => rfl
  | cons a t ih => simp [List.zipIdx_cons, ih]

/-- The positions of a text, from those of its tail (45_modes R254). -/
theorem getPositions_cons (cfg : Config) (ch : Word) (t : List Word) :
    getPositions cfg (ch :: t)
      = (if inAlphabet cfg ch then [] else [(ch, 0)]) ++ (getPositions cfg t).map fun p => (p.1, p.2 + 1) := by
  unfold getPositions
  rw [List.zipIdx_cons, zipIdx_shift, List.filter_cons, List.filter_map]
  by_cases h : inAlphabet cfg ch = true
  · simp [h]; congr 1
  · simp only [h]; simp; congr 1

/-- Reinsertion takes the next symbol where the text has an alphabet character (45_modes R256). -/
theorem insertPositions_in {cfg : Config} {ch : Word} (h : inAlphabet cfg ch = true) (t : List Word) (x : Word)
    (o : List Word) :
    insertPositions (x :: o) (getPositions cfg (ch :: t)) = x :: insertPositions o (getPositions cfg t) := by
  rw [getPositions_cons, if_pos h, List.nil_append, insertPositions_shift]

/-- Reinsertion puts an out-of-alphabet character where the text has it (45_modes R256). -/
theorem insertPositions_out {cfg : Config} {ch : Word} (h : ¬inAlphabet cfg ch = true) (t : List Word) (o : List Word) :
    insertPositions o (getPositions cfg (ch :: t)) = ch :: insertPositions o (getPositions cfg t) := by
  rw [getPositions_cons, if_neg h, List.singleton_append, ← insertPositions_shift]; rfl

theorem padText_length (pad : Word) (c : List Word) : (padText pad c).length = c.length + c.length % 2 := by
  unfold padText; split <;> (try simp only [List.length_append, List.length_singleton]) <;> omega

theorem blocksOf_length (cfg : Config) : ∀ c : List Word, c.length % 2 = 0 → 2 * (blocksOf cfg c).length = c.length
  | [], _ => rfl
  | [_], h => by simp at h
  | a :: b :: rest, h => by
    have := blocksOf_length cfg rest (by simp only [List.length_cons] at h; omega)
    simp [blocksOf]; omega

/-- Block b holds the symbols 2b and 2b + 1 (45_modes R258). -/
theorem blocksOf_getElem? (cfg : Config) : ∀ (c : List Word) (b : Nat) (x : Block), (blocksOf cfg c)[b]? = some x →
    x = codeOf cfg (c.getD (2 * b) 0#32) ++ codeOf cfg (c.getD (2 * b + 1) 0#32)
  | [], b, x, h => by simp [blocksOf] at h
  | [_], b, x, h => by simp [blocksOf] at h
  | a :: a' :: rest, b, x, h => by
    cases b with
    | zero => simpa [blocksOf] using h.symm
    | succ b =>
      have := blocksOf_getElem? cfg rest b x (by simpa [blocksOf] using h)
      rw [this, show 2 * (b + 1) = 2 * b + 1 + 1 by omega]
      simp only [List.getD_cons_succ]

@[simp] theorem symbolsOf_length (cfg : Config) (xs : List Block) : (symbolsOf cfg xs).length = 2 * xs.length := by
  induction xs with
  | nil => rfl
  | cons x xs ih => simp [symbolsOf, ih]; omega

/-- The symbols of block b stand at 2b and 2b + 1 (45_modes R258). -/
theorem symbolsOf_getElem? (cfg : Config) (xs : List Block) (b : Nat) (x : Block) (h : xs[b]? = some x) :
    (symbolsOf cfg xs)[2 * b]? = some (symOf cfg (leftHalf x)) ∧
    (symbolsOf cfg xs)[2 * b + 1]? = some (symOf cfg (rightHalf x)) := by
  induction xs generalizing b with
  | nil => simp at h
  | cons y xs ih =>
    cases b with
    | zero => simp at h; subst h; simp [symbolsOf]
    | succ b =>
      have := ih b (by simpa using h)
      rw [show 2 * (b + 1) = 2 * b + 1 + 1 by omega]
      simpa [symbolsOf] using this

@[simp] theorem cbcEncrypt_length (f : Block → Block) (chain : Block) (bs : List Block) :
    (cbcEncrypt f chain bs).length = bs.length := by
  induction bs generalizing chain with
  | nil => rfl
  | cons b bs ih => simp [cbcEncrypt, ih]

@[simp] theorem cbcDecrypt_length (f : Block → Block) (chain : Block) (bs : List Block) :
    (cbcDecrypt f chain bs).length = bs.length := by
  induction bs generalizing chain with
  | nil => rfl
  | cons b bs ih => simp [cbcDecrypt, ih]

/-- The strip removes PADs from the end, and all of them (45_modes R261). -/
theorem stripPad_spec (pad : Word) (t : List Word) :
    ∃ n, t = stripPad pad t ++ List.replicate n pad ∧ (stripPad pad t).getLast? ≠ some pad := by
  unfold stripPad
  refine ⟨(t.reverse.takeWhile (fun ch => ch == pad)).length, ?_, ?_⟩
  · have h := congrArg List.reverse (List.takeWhile_append_dropWhile (p := fun ch => ch == pad) (l := t.reverse))
    rw [List.reverse_append, List.reverse_reverse] at h
    conv_lhs => rw [← h]
    congr 1
    rw [List.eq_replicate_iff]
    refine ⟨by simp, fun x hx => ?_⟩
    have := List.mem_takeWhile_imp (List.mem_reverse.mp hx)
    simpa using this
  · rw [List.getLast?_reverse]
    intro h
    have := List.head?_dropWhile_not (p := fun ch => ch == pad) (l := t.reverse)
    rw [h] at this; simp at this

/-- A text with no alphabet character has an empty clean text (45_modes R255). -/
theorem cleanText_eq_nil {cfg : Config} {t : List Word} : cleanText cfg t = [] ↔ ∀ ch ∈ t, ch ∉ cfg.alphabet := by
  simp [cleanText, inAlphabet]

end Sys2Proof.Machine
end

