-- ==== Sys2Proof/Laws/Commands.lean ====
section
/-! SUPPORT. The three shapes a command's meaning has, said once for all commands. -/

namespace Sys2Proof.Machine

/-- Every command is SETP, or a text command, or one whose outcome is that of a result computed from the core
(60_exceptions R301, R302). -/
theorem exec_shape (i : Instr) :
    (∃ pid, i = .setp pid) ∨ (∃ mode, i = .encrypt mode ∨ i = .decrypt mode) ∨
    (∃ f : Config → CoreState → Except ErrorCode Result,
      ∀ s, exec i s = .next (s.onCore fun c => c.complete (f s.cfg c))) := by
  cases i with
  | setp pid => exact .inl ⟨pid, rfl⟩
  | encrypt m => exact .inr (.inl ⟨m, .inl rfl⟩)
  | decrypt m => exact .inr (.inl ⟨m, .inr rfl⟩)
  | getp pid => exact .inr (.inr ⟨fun _ c => getParam c pid, fun _ => rfl⟩)
  | expand l => exact .inr (.inr ⟨fun _ c => expandResult l c, fun _ => rfl⟩)
  | xor l => exact .inr (.inr ⟨fun _ c => xorResult l c, fun _ => rfl⟩)
  | subst l => exact .inr (.inr ⟨fun _ c => substResult l c, fun _ => rfl⟩)
  | ffunc => exact .inr (.inr ⟨fun _ c => ffuncResult c, fun _ => rfl⟩)
  | round => exact .inr (.inr ⟨fun _ c => roundResult c, fun _ => rfl⟩)
  | bbs l => exact .inr (.inr ⟨fun g c => bbsResult g l c, fun _ => rfl⟩)
  | keystream => exact .inr (.inr ⟨fun g c => (do let k ← keyStream g c; return Result.ofBits k), fun _ => rfl⟩)
  | subkey l => exact .inr (.inr ⟨fun g c => subkeyResult g l c, fun _ => rfl⟩)
  | encblk => exact .inr (.inr ⟨fun g c => encblkResult g c, fun _ => rfl⟩)
  | decblk => exact .inr (.inr ⟨fun g c => decblkResult g c, fun _ => rfl⟩)
  | ivgen => exact .inr (.inr ⟨fun _ _ => .ok (Result.ofBits iv), fun _ => rfl⟩)

/-- A text command has an unsupported mode, or is `textCommand` of its own transformation (45_modes R262 to R266). -/
theorem exec_text_shape {i : Instr} {mode : Mode} (h : i = .encrypt mode ∨ i = .decrypt mode) :
    (∃ n, mode = .other n ∧ ∀ s, exec i s = .next (s.onCore fun c => c.raiseText .badMode)) ∨
    ((mode = .ecb ∨ mode = .cbc) ∧ ∃ run : Config → CoreState → List Word → Except ErrorCode (List Word),
      ∀ s, exec i s = textCommand (run s.cfg) s) := by
  rcases h with rfl | rfl
  · cases mode with
    | other n => exact .inl ⟨n, rfl, fun _ => rfl⟩
    | ecb => exact .inr ⟨.inl rfl, fun g c t => encryptText g c ecbEncryption t, fun _ => rfl⟩
    | cbc => exact .inr ⟨.inr rfl, fun g c t => encryptText g c cbcEncryption t, fun _ => rfl⟩
  · cases mode with
    | other n => exact .inl ⟨n, rfl, fun _ => rfl⟩
    | ecb => exact .inr ⟨.inl rfl, fun g c t => decryptText g c ecbDecryption t, fun _ => rfl⟩
    | cbc => exact .inr ⟨.inr rfl, fun g c t => decryptText g c cbcDecryption t, fun _ => rfl⟩

end Sys2Proof.Machine
end

