-- ==== Sys2Proof/Laws/PerInstr.lean ====
section
/-! SUPPORT. What holds of every command as syntax, one lemma per constructor. -/

/-- The opcode of a command (30_encoding R99). -/
def Sys2Proof.Laws.EncodedFields.opcode : Sys2Proof.Instr → Sys2Proof.Opcode
  | .setp _ => .setp
  | .getp _ => .getp
  | .expand _ => .expand
  | .xor _ => .xor
  | .subst _ => .subst
  | .ffunc => .ffunc
  | .round => .round
  | .bbs _ => .bbs
  | .keystream => .keystream
  | .subkey _ => .subkey
  | .encblk => .encblk
  | .decblk => .decblk
  | .ivgen => .ivgen
  | .encrypt _ => .encrypt
  | .decrypt _ => .decrypt

/-- The word of a command holds the command's opcode, a zero RSV field, and a zero in each field that the opcode does not
use (30_encoding R90, R92, R93, R99). -/
def Sys2Proof.Laws.EncodedFields.Statement (i : Sys2Proof.Instr) : Prop :=
  Sys2Proof.opField (Sys2Proof.encode i) = (Sys2Proof.Laws.EncodedFields.opcode i).byte ∧
  Sys2Proof.rsvField (Sys2Proof.encode i) = 0#4 ∧
  ((Sys2Proof.Laws.EncodedFields.opcode i).usesSub = false → Sys2Proof.subField (Sys2Proof.encode i) = 0#4) ∧
  ((Sys2Proof.Laws.EncodedFields.opcode i).usesArg = false → Sys2Proof.argField (Sys2Proof.encode i) = 0#16)

open Sys2Proof Sys2Proof.Laws.EncodedFields

theorem Sys2Proof.Laws.EncodedFields.setp (pid : Pid) : Statement (.setp pid) := by
  simp [Statement, EncodedFields.opcode, encode, Opcode.usesSub, Opcode.usesArg]

theorem Sys2Proof.Laws.EncodedFields.getp (pid : Pid) : Statement (.getp pid) := by
  simp [Statement, EncodedFields.opcode, encode, Opcode.usesSub, Opcode.usesArg]

theorem Sys2Proof.Laws.EncodedFields.expand (len : Half) : Statement (.expand len) := by
  simp [Statement, EncodedFields.opcode, encode, Opcode.usesSub, Opcode.usesArg]

theorem Sys2Proof.Laws.EncodedFields.xor (len : Half) : Statement (.xor len) := by
  simp [Statement, EncodedFields.opcode, encode, Opcode.usesSub, Opcode.usesArg]

theorem Sys2Proof.Laws.EncodedFields.subst (sel : Sel) : Statement (.subst sel) := by
  simp [Statement, EncodedFields.opcode, encode, Opcode.usesSub, Opcode.usesArg]

theorem Sys2Proof.Laws.EncodedFields.ffunc : Statement (.ffunc) := by
  simp [Statement, EncodedFields.opcode, encode, Opcode.usesSub, Opcode.usesArg]

theorem Sys2Proof.Laws.EncodedFields.round : Statement (.round) := by
  simp [Statement, EncodedFields.opcode, encode, Opcode.usesSub, Opcode.usesArg]

theorem Sys2Proof.Laws.EncodedFields.bbs (bits : Half) : Statement (.bbs bits) := by
  simp [Statement, EncodedFields.opcode, encode, Opcode.usesSub, Opcode.usesArg]

theorem Sys2Proof.Laws.EncodedFields.keystream : Statement (.keystream) := by
  simp [Statement, EncodedFields.opcode, encode, Opcode.usesSub, Opcode.usesArg]

theorem Sys2Proof.Laws.EncodedFields.subkey (idx : Half) : Statement (.subkey idx) := by
  simp [Statement, EncodedFields.opcode, encode, Opcode.usesSub, Opcode.usesArg]

theorem Sys2Proof.Laws.EncodedFields.encblk : Statement (.encblk) := by
  simp [Statement, EncodedFields.opcode, encode, Opcode.usesSub, Opcode.usesArg]

theorem Sys2Proof.Laws.EncodedFields.decblk : Statement (.decblk) := by
  simp [Statement, EncodedFields.opcode, encode, Opcode.usesSub, Opcode.usesArg]

theorem Sys2Proof.Laws.EncodedFields.ivgen : Statement (.ivgen) := by
  simp [Statement, EncodedFields.opcode, encode, Opcode.usesSub, Opcode.usesArg]

theorem Sys2Proof.Laws.EncodedFields.encrypt (mode : Mode) : Statement (.encrypt mode) := by
  simp [Statement, EncodedFields.opcode, encode, Opcode.usesSub, Opcode.usesArg]

theorem Sys2Proof.Laws.EncodedFields.decrypt (mode : Mode) : Statement (.decrypt mode) := by
  simp [Statement, EncodedFields.opcode, encode, Opcode.usesSub, Opcode.usesArg]
end

