-- ==== Sys2Proof/Laws/TableFile.lean ====
section
/-! SUPPORT. The file form of a table: what stands between the hyphens, and exactly which entries and rows are accepted. -/

namespace Sys2Proof.Machine

theorem entriesOf_ne_nil (line : List Char) : entriesOf line ≠ [] := by
  cases line with
  | nil => simp [entriesOf]
  | cons c rest =>
    unfold entriesOf
    split
    · simp
    · split <;> simp

@[simp] theorem entriesOf_hyphen (rest : List Char) : entriesOf ('-' :: rest) = [] :: entriesOf rest := by
  simp [entriesOf]

/-- An entry, its hyphen, and the rest of the line. -/
theorem entriesOf_append (e rest : List Char) (h : '-' ∉ e) : entriesOf (e ++ '-' :: rest) = e :: entriesOf rest := by
  induction e with
  | nil => simp
  | cons c e ih =>
    simp only [List.mem_cons, not_or] at h
    simp [entriesOf, Ne.symm h.1, ih h.2]

/-- The last entry of a line. -/
theorem entriesOf_last (e : List Char) (h : '-' ∉ e) : entriesOf e = [e] := by
  induction e with
  | nil => rfl
  | cons c e ih =>
    simp only [List.mem_cons, not_or] at h
    simp [entriesOf, Ne.symm h.1, ih h.2]

/-- No character of the line is lost: the entries with their hyphens are the line. -/
theorem intercalate_entriesOf (line : List Char) : ['-'].intercalate (entriesOf line) = line := by
  induction line with
  | nil => rfl
  | cons c rest ih =>
    unfold entriesOf
    cases he : entriesOf rest with
    | nil => exact absurd he (entriesOf_ne_nil rest)
    | cons e es =>
      rw [he] at ih
      split
      · next h => simp only [List.intercalate, List.intersperse, List.flatten_cons] at ih ⊢; simp [ih, h]
      · cases es <;> simpa [List.intercalate, List.intersperse] using ih

theorem bind_refusal_eq_ok {α β : Type} {x : Except Refusal α} {f : α → Except Refusal β} {b : β} :
    (x >>= f) = .ok b ↔ ∃ a, x = .ok a ∧ f a = .ok b := by
  cases x <;> simp [bind, Except.bind]

theorem digitBit_eq_ok {c : Char} {b : Bool} : digitBit c = .ok b ↔ c = if b then '1' else '0' := by
  unfold digitBit
  constructor
  · intro h
    split at h
    · cases h; assumption
    · split at h
      · cases h; assumption
      · cases h
  · rintro rfl
    cases b <;> rfl

/-- A digit that is refused is refused by name. -/
theorem digitBit_cases (c : Char) : (∃ b, digitBit c = .ok b) ∨ digitBit c = .error (.tableFile .notBinary) := by
  unfold digitBit
  split
  · exact .inl ⟨_, rfl⟩
  · split
    · exact .inl ⟨_, rfl⟩
    · exact .inr rfl

/-- The three binary digits of an entry, most significant first: how a file writes it. -/
def entryDigits (v : SboxOut) : List Char := [v.getLsbD 2, v.getLsbD 1, v.getLsbD 0].map fun b => if b then '1' else '0'

theorem hyphen_notMem_entryDigits (v : SboxOut) : '-' ∉ entryDigits v := by
  revert v; decide

/-- Exactly the three binary digits of a value are accepted as that value. -/
theorem transcribeEntry_eq_ok {digits : List Char} {v : SboxOut} :
    transcribeEntry digits = .ok v ↔ digits = entryDigits v := by
  constructor
  · intro h
    unfold transcribeEntry at h
    split at h
    · next d2 d1 d0 =>
      cases h2 : digitBit d2 <;> cases h1 : digitBit d1 <;> cases h0 : digitBit d0 <;>
        simp only [h2, h1, h0, bind, Except.bind, pure, Except.pure, reduceCtorEq, Except.ok.injEq] at h
      next b2 b1 b0 =>
      rw [digitBit_eq_ok.mp h2, digitBit_eq_ok.mp h1, digitBit_eq_ok.mp h0, ← h]
      clear h h0 h1 h2; revert b2 b1 b0; decide
    · cases h
  · rintro rfl
    revert v; decide

/-- An entry that is refused is refused by name. -/
theorem transcribeEntry_cases (digits : List Char) :
    (∃ v, transcribeEntry digits = .ok v) ∨ ∃ flaw, transcribeEntry digits = .error (.tableFile flaw) := by
  unfold transcribeEntry
  split
  · next d2 d1 d0 =>
    rcases digitBit_cases d2 with ⟨b2, h2⟩ | h2
    · rcases digitBit_cases d1 with ⟨b1, h1⟩ | h1
      · rcases digitBit_cases d0 with ⟨b0, h0⟩ | h0
        · exact .inl ⟨_, by rw [h2, h1, h0]; rfl⟩
        · exact .inr ⟨_, by rw [h2, h1, h0]; rfl⟩
      · exact .inr ⟨_, by rw [h2, h1]; rfl⟩
    · exact .inr ⟨_, by rw [h2]; rfl⟩
  · exact .inr ⟨_, rfl⟩

/-- Exactly the hyphen-separated list of a row's eight entries, column 0 first, is accepted as that row. -/
theorem transcribeRow_eq_ok {line : List Char} {row : Vector SboxOut 8} :
    transcribeRow line = .ok row ↔ line = ['-'].intercalate (row.toList.map entryDigits) := by
  constructor
  · intro h
    unfold transcribeRow at h
    split at h
    · next e0 e1 e2 e3 e4 e5 e6 e7 he =>
      simp only [bind_refusal_eq_ok, transcribeEntry_eq_ok] at h
      obtain ⟨v0, rfl, v1, rfl, v2, rfl, v3, rfl, v4, rfl, v5, rfl, v6, rfl, v7, rfl, h⟩ := h
      cases h
      rw [← intercalate_entriesOf line, he]
      rfl
    · cases h
  · rintro rfl
    obtain ⟨⟨l⟩, hl⟩ := row
    match l, hl with
    | [v0, v1, v2, v3, v4, v5, v6, v7], _ =>
      have entries : entriesOf (['-'].intercalate ([v0, v1, v2, v3, v4, v5, v6, v7].map entryDigits)) =
          [v0, v1, v2, v3, v4, v5, v6, v7].map entryDigits := by
        simp [List.intercalate, List.intersperse, entriesOf_append, entriesOf_last, hyphen_notMem_entryDigits]
      have entry (v : SboxOut) : transcribeEntry (entryDigits v) = .ok v := transcribeEntry_eq_ok.mpr rfl
      simp only [List.map_cons, List.map_nil] at entries
      simp only [transcribeRow, Vector.toList, List.map_cons, List.map_nil, entries, entry]
      rfl

/-- A row that is refused is refused by name. -/
theorem transcribeRow_cases (line : List Char) :
    (∃ row, transcribeRow line = .ok row) ∨ ∃ flaw, transcribeRow line = .error (.tableFile flaw) := by
  have entry : ∀ (e : List Char) (f : SboxOut → Except Refusal (Vector SboxOut 8)),
      (∀ v, (∃ row, f v = .ok row) ∨ ∃ flaw, f v = .error (.tableFile flaw)) →
      (∃ row, (transcribeEntry e >>= f) = .ok row) ∨ ∃ flaw, (transcribeEntry e >>= f) = .error (.tableFile flaw) := by
    intro e f hf
    rcases transcribeEntry_cases e with ⟨v, h⟩ | ⟨flaw, h⟩
    · rw [h]; exact hf v
    · rw [h]; exact .inr ⟨flaw, rfl⟩
  unfold transcribeRow
  split
  · iterate 8 refine entry _ _ fun _ => ?_
    exact .inl ⟨_, rfl⟩
  · exact .inr ⟨_, rfl⟩

end Sys2Proof.Machine
end

