-- ==== Sys2Proof/Tests/Slice0.lean ====
section
/-! SUPPORT. The model's own tests. The expected values are those of spec/95_test_vectors.md (its section is named at each
test) or are written out from the encoding tables of 30_encoding; the witnesses show that the hypotheses of the statements
can be met. -/

namespace Sys2Proof.Tests

open Sys2Proof Sys2Proof.Machine Sys2Proof.Statement

/-! ### The fixture of spec/95 section 0 -/

/-- The character codes of a string. -/
def chars (s : String) : List Word := s.toList.map fun c => BitVec.ofNat 32 c.toNat

/-- ALPHABET of the fixture. -/
def alphabet : List Word := chars "ABCDEFGHIJKLMNOPQRSTUVWXYZabcdefghijklmnopqrstuvwxyz0123456789+/"

/-- The fixture, its prime table cut down to the entries that spec/95 lists: PRIME_TABLE[9] = 23, [21] = 73, [33] = 137,
[49] = 227, [77] = 389, [121] = 661 and [209] = 1289, the places between filled with the next of them. -/
def vectorCfg : Config where
  alphabet := alphabet
  primeTable := List.replicate 8 2 ++ List.replicate 1 23 ++ List.replicate 12 73 ++ List.replicate 12 137
    ++ List.replicate 16 227 ++ List.replicate 28 389 ++ List.replicate 44 661 ++ List.replicate 88 1289
  textMax := 64
  base := 0
  resetRounds := 2#16
  resetP := 11#16
  resetQ := 19#16
  resetPad := 0x2F#32

/-- SBOX1 of the fixture. -/
def table1 : Table := unpackTable 0x1E3C55#24 0x7785A1#24

/-- SBOX2 of the fixture. -/
def table2 : Table := unpackTable 0x4CFB84#24 0x856E1D#24

/-- The machine of a configuration after reset. -/
def fresh (cfg : Config) : State where
  cfg := cfg
  core := CoreState.reset cfg
  bus := { pending := [], reads := [], line := .released, free := 0 }

/-- The same with both tables loaded and the two operands given. -/
def loaded (cfg : Config) (a b : Word) : State :=
  (fresh cfg).onCore fun c => { c with opa := a, opb := b, sbox1 := .loaded table1, sbox2 := .loaded table2 }

/-- The same with a text in TIN. -/
def withText (s : State) (t : List Word) : State :=
  s.onCore fun c => { c with tin := Buffer.writeText [] 0 t, inLen := BitVec.ofNat 16 t.length }

/-- The fixture machine with its operands. -/
def vec (a b : Word) : State := loaded vectorCfg a b

/-- RES0, RES1, RLEN and ERRCODE after a command that gives a next state. -/
def outcome (i : Instr) (s : State) : Option (Word × Word × Nat × ErrorCode) :=
  match exec i s with
  | .next t => some (t.core.res0, t.core.res1, t.core.rlen.toNat, t.core.errCode)
  | .fault _ => none
  | .refused _ => none

/-- The item that a command leaves in the core. -/
def item {α : Type} (f : CoreState → α) (i : Instr) (s : State) : Option α :=
  match exec i s with
  | .next t => some (f t.core)
  | .fault _ => none
  | .refused _ => none

/-- The text that a command leaves in TOUT[0 … OUT_LEN−1]. -/
def outText (i : Instr) (s : State) : Option (List Word) :=
  match exec i s with
  | .next t => t.core.tout.readText 0 t.core.outLen.toNat
  | .fault _ => none
  | .refused _ => none

/-! ### Well-formed commands -/

theorem test_pid_named_by_other_is_ill_formed : (Instr.setp (.other 8#4)).wellFormed = false := by decide
theorem test_getp_pid_named_by_other_is_ill_formed : (Instr.getp (.other 0#4)).wellFormed = false := by decide
theorem test_mode_named_by_other_is_ill_formed : (Instr.encrypt (.other 1#4)).wellFormed = false := by decide
theorem test_decrypt_mode_named_by_other_is_ill_formed : (Instr.decrypt (.other 0#4)).wellFormed = false := by decide
theorem test_pid_nine_is_well_formed : (Instr.setp (.other 9#4)).wellFormed = true := by decide
theorem test_mode_two_is_well_formed : (Instr.encrypt (.other 2#4)).wellFormed = true := by decide

/-! ### Decoding: each word written out from 30_encoding R90, R96 to R99 as ARG ++ RSV ++ SUB ++ OP -/

theorem test_decode_setp : decode (0#16 ++ 0#4 ++ 4#4 ++ 0x01#8) = .ok (.setp .p) := by decide
theorem test_decode_getp : decode (0#16 ++ 0#4 ++ 8#4 ++ 0x02#8) = .ok (.getp .pad) := by decide
theorem test_decode_expand : decode (30#16 ++ 0#4 ++ 0#4 ++ 0x10#8) = .ok (.expand 30#16) := by decide
theorem test_decode_xor : decode (32#16 ++ 0#4 ++ 0#4 ++ 0x11#8) = .ok (.xor 32#16) := by decide
theorem test_decode_subst : decode (0#16 ++ 0#4 ++ 1#4 ++ 0x12#8) = .ok (.subst .s2) := by decide
theorem test_decode_ffunc : decode (0#16 ++ 0#4 ++ 0#4 ++ 0x13#8) = .ok .ffunc := by decide
theorem test_decode_round : decode (0#16 ++ 0#4 ++ 0#4 ++ 0x14#8) = .ok .round := by decide
theorem test_decode_bbs : decode (8#16 ++ 0#4 ++ 0#4 ++ 0x20#8) = .ok (.bbs 8#16) := by decide
theorem test_decode_keystream : decode (0#16 ++ 0#4 ++ 0#4 ++ 0x21#8) = .ok .keystream := by decide
theorem test_decode_subkey : decode (0x8000#16 ++ 0#4 ++ 0#4 ++ 0x22#8) = .ok (.subkey 0x8000#16) := by decide
theorem test_decode_encblk : decode (0#16 ++ 0#4 ++ 0#4 ++ 0x30#8) = .ok .encblk := by decide
theorem test_decode_decblk : decode (0#16 ++ 0#4 ++ 0#4 ++ 0x31#8) = .ok .decblk := by decide
theorem test_decode_ivgen : decode (0#16 ++ 0#4 ++ 0#4 ++ 0x40#8) = .ok .ivgen := by decide
theorem test_decode_encrypt : decode (0#16 ++ 0#4 ++ 1#4 ++ 0x41#8) = .ok (.encrypt .cbc) := by decide
theorem test_decode_decrypt : decode (0#16 ++ 0#4 ++ 2#4 ++ 0x42#8) = .ok (.decrypt (.other 2#4)) := by decide

theorem test_decode_refuses_reserved_opcode : decode 0x00000000#32 = .error .reservedOpcode := by decide
theorem test_decode_refuses_reserved_bits : decode 0x00001001#32 = .error .reservedBits := by decide
theorem test_decode_refuses_unused_sub : decode 0x00080120#32 = .error .unusedSub := by decide
theorem test_decode_refuses_unused_arg : decode 0x00010012#32 = .error .unusedArg := by decide
theorem test_decode_refuses_select_two : decode 0x00000212#32 = .error .badSelect := by decide
theorem test_decode_table_word : decodeTableWord 12 0x401 = some (.setp .p) := by decide

/-! ### Commands, with the results of spec/95 -/

/-- 95 §2.1. -/
theorem test_setp_rounds_is_not_truncated :
    outcome (.setp .rounds) (vec 65536#32 0#32) = some (0#32, 0#32, 0, .invalidValue) := by decide

/-- 95 §0 and §2.1: row 0 of SBOX1 is 101-010-001-110-011-100-111-000. -/
theorem test_setp_sbox1 : item (·.sbox1) (.setp .sbox1) (vec 0x1E3C55#32 0x7785A1#32)
    = some (.loaded ⟨#v[5#3, 2#3, 1#3, 6#3, 3#3, 4#3, 7#3, 0#3], #v[1#3, 4#3, 6#3, 2#3, 0#3, 7#3, 5#3, 3#3]⟩) := by
  decide

/-- 95 §2.1. -/
theorem test_getp_sbox2 :
    outcome (.getp .sbox2) (vec 0#32 0#32) = some (0x004CFB84#32, 0x00856E1D#32, 24, .none) := by decide

/-- 95 §2.1: GETP sbox1 from reset. -/
theorem test_getp_empty_table :
    outcome (.getp .sbox1) (fresh vectorCfg) = some (0#32, 0#32, 0, .none) := by decide

/-- 95 §1.1. -/
theorem test_expand_011001 : outcome (.expand 6#16) (vec 0x19#32 0#32) = some (0x55#32, 0#32, 8, .none) := by decide

/-- 95 §2.6: "10" of length 2. -/
theorem test_expand_shortest : outcome (.expand 2#16) (vec 2#32 0#32) = some (5#32, 0#32, 4, .none) := by decide

/-- 44_feistel R215: the longest XOR. -/
theorem test_xor_32 : outcome (.xor 32#16) (vec 0xFFFF0000#32 0x0F0F0F0F#32)
    = some (0xF0F00F0F#32, 0#32, 32, .none) := by decide

/-- 95 §2.5: input "1011". -/
theorem test_subst_s1_and_s2 : outcome (.subst .s1) (vec 11#32 0#32) = some (2#32, 0#32, 3, .none) ∧
    outcome (.subst .s2) (vec 11#32 0#32) = some (7#32, 0#32, 3, .none) := by decide

/-- 95 §2.5: MALFORMED comes before SBOX_EMPTY. -/
theorem test_subst_checks_operand_first :
    item (·.errCode) (.subst .s1) ((fresh vectorCfg).onCore fun c => { c with opa := 0x10#32 }) = some .malformed := by
  decide

/-- 95 §1.6. -/
theorem test_ffunc : outcome .ffunc (vec 0x26#32 0x65#32) = some (4#32, 0#32, 6, .none) := by decide

/-- 95 §1.6. -/
theorem test_round : outcome .round (vec 0x726#32 0x65#32) = some (0x998#32, 0#32, 12, .none) := by decide

/-- 95 §2.3: (11, 19, 32). -/
theorem test_bbs_32_bits : outcome (.bbs 32#16) (vec 11#32 19#32) = some (0xE68E68E6#32, 0#32, 32, .none) := by decide

/-- 95 §2.3: q is checked before bits. -/
theorem test_bbs_check_order : outcome (.bbs 0#16) (vec 11#32 17#32) = some (0#32, 0#32, 0, .bbsBadQ) := by decide

/-- 95 §2.4. -/
theorem test_keystream : outcome .keystream (vec 0#32 0#32) = some (0x1CD#32, 0#32, 9, .none) := by decide

/-- 95 §2.4. -/
theorem test_subkey_9_wraps : outcome (.subkey 9#16) (vec 0#32 0#32) = some (0xF3#32, 0#32, 8, .none) := by decide

/-- 95 §2.4. -/
theorem test_subkey_negative : outcome (.subkey 0xFFFF#16) (vec 0#32 0#32) = some (0#32, 0#32, 0, .badIndex) := by
  decide

/-- 95 §1.7: ECB of "OK" is one block, 0x38A → 0x192. -/
theorem test_encblk : outcome .encblk (vec 0x38A#32 0#32) = some (0x192#32, 0#32, 12, .none) := by decide

/-- 95 §1.7. -/
theorem test_decblk : outcome .decblk (vec 0x192#32 0#32) = some (0x38A#32, 0#32, 12, .none) := by decide

/-- 95 §1.8. -/
theorem test_ivgen : outcome .ivgen (vec 0#32 0#32) = some (0x9C3#32, 0#32, 12, .none) := by decide

/-- 95 §1.7. -/
theorem test_encrypt_ok_cbc :
    outText (.encrypt .cbc) (withText (vec 0#32 0#32) (chars "OK")) = some (chars "A0") := by decide

/-- 95 §1.7. -/
theorem test_decrypt_ok_ecb :
    outText (.decrypt .ecb) (withText (vec 0#32 0#32) (chars "GS")) = some (chars "OK") := by decide

/-- 93 U1. -/
theorem test_decrypt_unwritten_text :
    exec (.decrypt .ecb) ((vec 0#32 0#32).onCore fun c => { c with inLen := 1#16 }) = .fault .unwrittenText := by rfl

/-- 95 §2.1: an illegal word, through a step, from the state after reset. -/
theorem test_step_bad_command : step ((fresh vectorCfg).withFetchWord 32 0x00011001)
    = .next ((fresh vectorCfg).onCore fun c => { c with err := true, errCode := .badCommand }) := by rfl

/-- 95 §1.3: STATUS = 0x00000A01 after SBOX_EMPTY from reset. -/
theorem test_status_word : statusWord ((CoreState.reset vectorCfg).raise .sboxEmpty) = 0x00000A01#32 := by decide

/-- 95 §1.5. -/
theorem test_positions : getPositions vectorCfg (chars "Hi, Bob!") = [(0x2C#32, 2), (0x20#32, 3), (0x21#32, 7)] ∧
    insertPositions (chars "HiBob") [(0x2C#32, 2), (0x20#32, 3), (0x21#32, 7)] = chars "Hi, Bob!" := by decide

/-- 40_config R129, its example: the file form of SBOX1's row 0 and its packed word. -/
theorem test_transcribe_row : (transcribeRow "101-010-001-110-011-100-111-000".toList).map packRow = .ok 0x1E3C55#24 := by
  decide

/-- 43_sbox R191, 93 U8: one wrong file of each kind, each refused by its name. -/
theorem test_transcribe_refuses :
    transcribeTable ["101-010-001-110-011-100-111-000".toList] = .error (.tableFile .lineCount) ∧
    transcribeRow "101-010-001-110-011-100-111".toList = .error (.tableFile .entryCount) ∧
    transcribeRow "101-010-001-110-011-100-111-00".toList = .error (.tableFile .entryWidth) ∧
    transcribeRow "101-010-001-110-011-100-111-002".toList = .error (.tableFile .notBinary) := by decide

/-! ### Witnesses: the hypotheses of the statements can be met -/

/-- A configuration that meets the spec's constraints, with nine primes: enough for P = Q = 3. -/
def smallCfg : Config where
  alphabet := alphabet
  primeTable := [2, 3, 5, 7, 11, 13, 17, 19, 23]
  textMax := 4
  base := 0
  resetRounds := 2#16
  resetP := 3#16
  resetQ := 3#16
  resetPad := 0x2F#32

theorem smallCfg_wf : smallCfg.wf = true := by decide

/-- The small machine with both tables loaded and its operands. -/
def small (a b : Word) : State := loaded smallCfg a b

/-- The small machine with a text. -/
def smallText (t : List Word) : State := withText (small 0#32 0#32) t

/-- The small machine with an access pending. -/
def pendingState (s : State) (e : Event) : State := { s with bus := { s.bus with pending := [e] } }

/-- The small machine after reset: both tables EMPTY. -/
def bare (a b : Word) : State := (fresh smallCfg).onCore fun c => { c with opa := a, opb := b }

/-- The small machine with Q = 7, whose n = 21 lies beyond the prime table. -/
def noSeed (a : Word) : State := (small a 0#32).onCore fun c => { c with q := 7#16 }

/-- K = 0x0AA for P = Q = 3 (95 §2.4). -/
theorem smallCfg_bbs : bbs smallCfg 3 3 9 = .ok 0x0AA := by decide

theorem smallCfg_bbs_noSeed : bbs smallCfg 3 7 9 = .error .seedUnavailable := by decide

/-- Every state of the small configuration with P = Q = 3 has that key stream. -/
theorem keyStream_three {s : State} (hc : s.cfg = smallCfg) (hp : s.core.p = 3#16) (hq : s.core.q = 3#16) :
    keyStream s.cfg s.core = .ok 0x0AA#9 := by
  have := smallCfg_bbs
  unfold keyStream
  rw [hc, hp, hq]
  show (do let v ← bbs smallCfg 3 3 9; return BitVec.ofNat 9 v) = _
  rw [this]; rfl

theorem keyStream_noSeed {s : State} (hc : s.cfg = smallCfg) (hp : s.core.p = 3#16) (hq : s.core.q = 7#16) :
    keyStream s.cfg s.core = .error .seedUnavailable := by
  have := smallCfg_bbs_noSeed
  unfold keyStream
  rw [hc, hp, hq]
  show (do let v ← bbs smallCfg 3 7 9; return BitVec.ofNat 9 v) = _
  rw [this]; rfl

theorem small_ready (a b : Word) : CipherReady (small a b) 0x0AA#9 table1 table2 :=
  ⟨keyStream_three rfl rfl rfl, rfl, rfl⟩

theorem smallText_ready (t : List Word) : CipherReady (smallText t) 0x0AA#9 table1 table2 :=
  ⟨keyStream_three rfl rfl rfl, rfl, rfl⟩

/-- Every small state whose text fits in TIN meets the invariant. -/
theorem smallText_inv {t : List Word} (h : t.length ≤ 4) : (smallText t).Inv := by
  refine ⟨smallCfg_wf, (by unfold ConfigInv; decide : ConfigInv smallCfg (CoreState.reset smallCfg)),
    ⟨by simp [smallText, withText, small, loaded, fresh, CoreState.reset, State.onCore],
      (by decide : (0#6).toNat ≤ 32), (by decide : (0#32 : Word).toNat ≤ 4 + 1), ?_⟩, ?_, rfl⟩
  · intro k hk; exact absurd hk (Nat.not_lt_zero k)
  · exact Buffer.writeText_wf (size := 4) t (by simpa using h) (by decide)

theorem smallText_input {t : List Word} (h : t.length ≤ 4) : InputText (smallText t) t := by
  refine ⟨by simp [smallText, withText, State.onCore]; omega, fun j hj => ?_⟩
  simp [smallText, withText, State.onCore, Buffer.read_writeText, hj]

/-- The pad of a text of one symbol. -/
theorem smallText_padded : PaddedClean (smallText (chars "A!")) (chars "A!") (chars "A/") := by
  unfold PaddedClean; decide

theorem witness_DecodeInvertsEncode : (Instr.setp (.other 9#4)).wellFormed = true ∧
    (Instr.getp (.other 15#4)).wellFormed = true ∧ (Instr.decrypt (.other 2#4)).wellFormed = true := by decide

theorem witness_EncodeInvertsDecode : decode 0x00000901#32 = .ok (.setp (.other 9#4)) := by decide

theorem witness_StepRunsTheDecodedCommand : (small 0#32 0#32).bus.line = .released ∧
    decode (0xFF#8 ++ 0xFF#8 ++ 0x00#8 ++ 0x22#8) = .ok (.subkey 0xFFFF#16) := by decide

/-- One word for each way to be illegal, at its boundary: OP 0x43 and 0x15, RSV = 1, SUB = 1 of FFUNC, ARG = 1 of FFUNC,
SEL = 2; and the legal words beside them. -/
theorem witness_IllegalWordsReportBadCommand : (small 0#32 0#32).bus.line = .released ∧
    (0x43#32).toNat % 256 = 0x43 ∧ (0x00001013#32).toNat / 4096 % 16 = 1 ∧ (0x00000113#32).toNat / 256 % 16 = 1 ∧
    (0x00010013#32).toNat / 65536 = 1 ∧ (0x00000212#32).toNat % 256 = 0x12 ∧ (0x00000212#32).toNat / 256 % 16 = 2 ∧
    decode 0x00000112#32 = .ok (.subst .s2) ∧ decode 0x00000013#32 = .ok .ffunc := by decide

/-- Each clause at its boundary: ROUNDS 2 and 65535, BLOCK_SIZE, ENCODING, P and Q at 3 (the least legal value), PAD, and
the largest row. -/
theorem witness_SetpWritesTheNamedItem :
    2 ≤ (small 2#32 0#32).core.opa.toNat ∧ (small 65535#32 0#32).core.opa.toNat ≤ 65535 ∧
    (small 12#32 0#32).core.opa = 12#32 ∧ (small 0#32 0#32).core.opa = 0#32 ∧
    (Nat.Prime (small 3#32 0#32).core.opa.toNat ∧ (small 3#32 0#32).core.opa.toNat % 4 = 3) ∧
    (small 0x41#32 0#32).core.opa ∈ smallCfg.alphabet ∧ (small 0xFFFFFF#32 0xFFFFFF#32).core.opa.toNat < 2 ^ 24 ∧
    (small 0xFFFFFF#32 0xFFFFFF#32).core.opb.toNat < 2 ^ 24 :=
  ⟨by decide, by decide, by decide, by decide, ⟨Nat.prime_three, by decide⟩, by decide, by decide, by decide⟩

theorem witness_SetpRefusesOtherValues :
    (small 1#32 0#32).core.opa.toNat < 2 ∧ 65535 < (small 65536#32 0#32).core.opa.toNat ∧
    (small 16#32 0#32).core.opa ≠ 12#32 ∧ (small 1#32 0#32).core.opa ≠ 0#32 ∧
    ¬((small 13#32 0#32).core.opa.toNat % 4 = 3) ∧ ¬((small 65539#32 0#32).core.opa.toNat ≤ 65535) ∧
    (small 0x21#32 0#32).core.opa ∉ smallCfg.alphabet ∧ 2 ^ 24 ≤ (small 0x1000000#32 0#32).core.opa.toNat ∧
    2 ^ 24 ≤ (small 0#32 0x1000000#32).core.opb.toNat := by decide

theorem witness_GetpReturnsTheItem : (bare 0#32 0#32).core.sbox1 = .empty ∧ (bare 0#32 0#32).core.sbox2 = .empty ∧
    (small 0#32 0#32).core.sbox1 = .loaded table1 ∧ (small 0#32 0#32).core.sbox2 = .loaded table2 := by decide

theorem witness_GetpReadsBackTheLoadedTable : (small 0xFFFFFF#32 0#32).core.opa.toNat < 2 ^ 24 ∧
    (small 0xFFFFFF#32 0#32).core.opb.toNat < 2 ^ 24 ∧ (∃ t, exec (.setp .sbox1) (small 0xFFFFFF#32 0#32) = .next t) ∧
    ∃ t, exec (.setp .sbox2) (small 0xFFFFFF#32 0#32) = .next t := ⟨by decide, by decide, ⟨_, rfl⟩, ⟨_, rfl⟩⟩

/-- p = q = 3: the search starts and ends at position 9, with s = 23 (95 §2.3). -/
theorem witness_BbsWritesTheBitStream : smallCfg.wf = true ∧ Nat.Prime 3 ∧ 3 % 4 = 3 ∧
    (small 3#32 3#32).core.opa.toNat = 3 ∧ (small 3#32 3#32).core.opb.toNat = 3 ∧ 1 ≤ (32#16).toNat ∧
    (32#16).toNat ≤ 32 ∧ smallCfg.primeTable[9 - 1]? = some 23 ∧ Nat.Coprime (3 * 3) 23 ∧
    (∀ i e : Nat, 3 * 3 ≤ i → i < 9 → smallCfg.primeTable[i - 1]? = some e → ¬Nat.Coprime (3 * 3) e) ∧
    ∃ x : Nat → Nat, x 0 = 23 ^ 2 % (3 * 3) ∧ ∀ t, x (t + 1) = x t ^ 2 % (3 * 3) :=
  ⟨smallCfg_wf, Nat.prime_three, by decide, by decide, by decide, by decide, by decide, by decide, by decide,
    fun i e h1 h2 => absurd h1 (by omega), fun t => Nat.rec (23 ^ 2 % 9) (fun _ v => v ^ 2 % 9) t, rfl, fun _ => rfl⟩

/-- Each clause: p = 5, then q = 2, then BITS 0 and 33, then n = 21 beyond the table of nine. -/
theorem witness_BbsReportsTheFirstError : smallCfg.wf = true ∧ ¬((small 5#32 3#32).core.opa.toNat % 4 = 3) ∧
    Nat.Prime (small 3#32 2#32).core.opa.toNat ∧ (small 3#32 2#32).core.opa.toNat % 4 = 3 ∧
    ¬((small 3#32 2#32).core.opb.toNat % 4 = 3) ∧ ¬(1 ≤ (0#16).toNat) ∧ ¬((33#16).toNat ≤ 32) ∧
    Nat.Prime (small 3#32 7#32).core.opb.toNat ∧ (small 3#32 7#32).core.opb.toNat % 4 = 3 ∧
    ∀ j e : Nat, 3 * 7 ≤ j → smallCfg.primeTable[j - 1]? = some e → ¬Nat.Coprime (3 * 7) e := by
  refine ⟨smallCfg_wf, by decide, Nat.prime_three, by decide, by decide, by decide, by decide,
    show Nat.Prime 7 by norm_num, by decide, fun j e hj h => ?_⟩
  have := (List.getElem?_eq_some_iff.mp h).1
  simp only [smallCfg, List.length_cons, List.length_nil] at this; omega

theorem witness_SeedSearchNeverAdvances : smallCfg.wf = true ∧ StrictlyAscending smallCfg.primeTable ∧ Nat.Prime 3 :=
  ⟨smallCfg_wf, by unfold StrictlyAscending; decide, Nat.prime_three⟩

theorem witness_KeystreamIsBbsOfPAndQ : keyStream (small 0#32 0#32).cfg (small 0#32 0#32).core = .ok 0x0AA#9 ∧
    keyStream (noSeed 0#32).cfg (noSeed 0#32).core = .error .seedUnavailable ∧
    (∃ t, exec .keystream (small 0#32 0#32) = .next t) ∧ ∃ u, exec (.bbs 9#16) (small 3#32 3#32) = .next u :=
  ⟨keyStream_three rfl rfl rfl, keyStream_noSeed rfl rfl rfl, ⟨_, rfl⟩, ⟨_, rfl⟩⟩

theorem witness_KeyStreamLacksOnlyTheSeed : (smallText []).Inv ∧
    keyStream (smallText []).cfg (smallText []).core = .ok 0x0AA#9 := ⟨smallText_inv (by decide), keyStream_three rfl rfl rfl⟩

theorem witness_SubkeyWritesTheCircularWindow : (0#16).toInt ≤ 0 ∧ (0x8000#16).toInt ≤ 0 ∧ 0 < (1#16).toInt ∧
    0 < (0x7FFF#16).toInt ∧ keyStream (small 0#32 0#32).cfg (small 0#32 0#32).core = .ok 0x0AA#9 ∧
    keyStream (noSeed 0#32).cfg (noSeed 0#32).core = .error .seedUnavailable :=
  ⟨by decide, by decide, by decide, by decide, keyStream_three rfl rfl rfl, keyStream_noSeed rfl rfl rfl⟩

theorem witness_SubkeysRepeatEveryNine : 1 ≤ 1 ∧ subkey 0x1CD#9 10 = subkey 0x1CD#9 1 := by decide

theorem witness_SubstLooksUpTheSelectedTable : 16 ≤ (small 16#32 0#32).core.opa.toNat ∧
    (bare 15#32 0#32).core.opa.toNat < 16 ∧ (bare 15#32 0#32).core.sbox1 = .empty ∧
    (small 15#32 0#32).core.opa.toNat < 16 ∧ (small 15#32 0#32).core.sbox2 = .loaded table2 ∧
    (7 : Fin 8).val = (small 15#32 0#32).core.opa.toNat % 8 := by decide

/-- Lengths 1 and 32 are refused, an operand of 4 with length 2 is, and lengths 2 and 30 run. -/
theorem witness_ExpandDoublesTheMiddlePair : ¬((1#16).toNat % 2 = 0) ∧ ¬((32#16).toNat ≤ 30) ∧
    2 ^ (2#16).toNat ≤ (small 4#32 0#32).core.opa.toNat ∧ (2#16).toNat = 2 * 1 ∧
    (small 3#32 0#32).core.opa.toNat < 2 ^ (2#16).toNat ∧ (30#16).toNat = 2 * 15 ∧
    (small 0x3FFFFFFF#32 0#32).core.opa.toNat < 2 ^ (30#16).toNat := by decide

theorem witness_XorCombinesTheOperands : (0#16).toNat < 1 ∧ 32 < (33#16).toNat ∧
    2 ^ (1#16).toNat ≤ (small 2#32 0#32).core.opa.toNat ∧ 2 ^ (1#16).toNat ≤ (small 0#32 2#32).core.opb.toNat ∧
    (small 0xFFFFFFFF#32 0xFFFFFFFF#32).core.opa.toNat < 2 ^ (32#16).toNat ∧
    (small 0xFFFFFFFF#32 0xFFFFFFFF#32).core.opb.toNat < 2 ^ (32#16).toNat := by decide

theorem witness_FfuncSubstitutesBothHalves : 64 ≤ (small 64#32 0#32).core.opa.toNat ∧
    256 ≤ (small 0#32 256#32).core.opb.toNat ∧ (bare 63#32 255#32).core.opa.toNat < 64 ∧
    (bare 63#32 255#32).core.sbox1 = .empty ∧ (small 63#32 255#32).core.opb.toNat < 256 ∧
    (small 63#32 255#32).core.sbox1 = .loaded table1 ∧ (small 63#32 255#32).core.sbox2 = .loaded table2 ∧
    (expandValue 6 63 ^^^ 255) / 16 % 8 = (0 : Fin 8).val := by decide

theorem witness_RoundSwapsAndAddsF : 4096 ≤ (small 4096#32 0#32).core.opa.toNat ∧
    256 ≤ (small 0#32 256#32).core.opb.toNat ∧ (bare 4095#32 255#32).core.opa.toNat < 4096 ∧
    (bare 4095#32 255#32).core.opb.toNat < 256 ∧ (bare 4095#32 255#32).core.sbox2 = .empty ∧
    (small 4095#32 255#32).core.sbox1 = .loaded table1 ∧ (63#6 : HalfBlock).toNat = 4095 / 64 ∧
    (63#6 : HalfBlock).toNat = 4095 % 64 ∧ (255#8 : Subkey).toNat = 255 := by decide

/-- The halves of ENCBLK's rounds, from a block and the subkeys by the recurrence of 44_feistel R222. -/
def halves (keys : Nat → Subkey) (l r : HalfBlock) : Nat → HalfBlock × HalfBlock
  | 0 => (l, r)
  | i + 1 =>
    ((halves keys l r i).2, (halves keys l r i).1 ^^^ fFunction table1 table2 (halves keys l r i).2 (keys i))

theorem witness_EncblkRunsTheRounds : 4096 ≤ (small 4096#32 0#32).core.opa.toNat ∧
    keyStream (noSeed 4095#32).cfg (noSeed 4095#32).core = .error .seedUnavailable ∧
    keyStream (bare 4095#32 0#32).cfg (bare 4095#32 0#32).core = .ok 0x0AA#9 ∧ (bare 4095#32 0#32).core.sbox1 = .empty ∧
    (small 4095#32 0#32).core.opa.toNat < 4096 ∧ CipherReady (small 4095#32 0#32) 0x0AA#9 table1 table2 ∧
    ∃ l r : Nat → HalfBlock, (l 0).toNat = 4095 / 64 ∧ (r 0).toNat = 4095 % 64 ∧
      ∀ i, l (i + 1) = r i ∧ r (i + 1) = l i ^^^ fFunction table1 table2 (r i) (subkey 0x0AA#9 (i + 1)) :=
  ⟨by decide, keyStream_noSeed rfl rfl rfl, keyStream_three rfl rfl rfl, by decide, by decide, small_ready _ _,
    fun i => (halves (fun t => subkey 0x0AA#9 (t + 1)) 63#6 63#6 i).1,
    fun i => (halves (fun t => subkey 0x0AA#9 (t + 1)) 63#6 63#6 i).2, by decide, by decide, fun _ => ⟨rfl, rfl⟩⟩

theorem witness_DecblkRunsTheRoundsBackwards : (small 4095#32 0#32).core.opa.toNat < 4096 ∧
    CipherReady (small 4095#32 0#32) 0x0AA#9 table1 table2 ∧ (small 4095#32 0#32).core.rounds.toNat = 2 ∧
    ∃ l r : Nat → HalfBlock, (l 0).toNat = 4095 / 64 ∧ (r 0).toNat = 4095 % 64 ∧
      ∀ i, i < 2 → l (i + 1) = r i ∧ r (i + 1) = l i ^^^ fFunction table1 table2 (r i) (subkey 0x0AA#9 (2 - i)) :=
  ⟨by decide, small_ready _ _, by decide, fun i => (halves (fun t => subkey 0x0AA#9 (2 - t)) 63#6 63#6 i).1,
    fun i => (halves (fun t => subkey 0x0AA#9 (2 - t)) 63#6 63#6 i).2, by decide, by decide, fun _ _ => ⟨rfl, rfl⟩⟩

theorem witness_BlockRoundTrip : (small 4095#32 0#32).core.opa.toNat < 4096 ∧
    CipherReady (small 4095#32 0#32) 0x0AA#9 table1 table2 := ⟨by decide, small_ready _ _⟩

theorem witness_CodeAndSymAreInverse : smallCfg.wf = true ∧ 0x2F#32 ∈ smallCfg.alphabet := ⟨smallCfg_wf, by decide⟩

/-- The text "A!": one symbol and one character outside the alphabet. The hypotheses of ENCRYPT's statement and of
DECRYPT's are the same. -/
theorem witness_EncryptTransformsTheText : (smallText (chars "A!")).Inv ∧
    InputText (smallText (chars "A!")) (chars "A!") ∧ (smallText (chars "A!")).core.inLen.toNat ≤ smallCfg.textMax ∧
    (∃ ch ∈ chars "A!", ch ∈ smallCfg.alphabet) ∧ CipherReady (smallText (chars "A!")) 0x0AA#9 table1 table2 ∧
    PaddedClean (smallText (chars "A!")) (chars "A!") (chars "A/") :=
  ⟨smallText_inv (by decide), smallText_input (by decide), by decide, ⟨0x41#32, by decide, by decide⟩, smallText_ready _,
    smallText_padded⟩

theorem witness_DecryptTransformsTheText : (smallText (chars "A!")).Inv ∧
    InputText (smallText (chars "A!")) (chars "A!") ∧ (smallText (chars "A!")).core.inLen.toNat ≤ smallCfg.textMax ∧
    (∃ ch ∈ chars "A!", ch ∈ smallCfg.alphabet) ∧ CipherReady (smallText (chars "A!")) 0x0AA#9 table1 table2 ∧
    PaddedClean (smallText (chars "A!")) (chars "A!") (chars "A/") := witness_EncryptTransformsTheText

/-- A text of TEXT_MAX characters outside the alphabet. -/
theorem witness_TextWithoutSymbolsIsCopied : (smallText (List.replicate 4 0x21#32)).Inv ∧
    InputText (smallText (List.replicate 4 0x21#32)) (List.replicate 4 0x21#32) ∧
    (smallText (List.replicate 4 0x21#32)).core.inLen.toNat ≤ smallCfg.textMax ∧ ∀ ch ∈ List.replicate 4 0x21#32, ch ∉ smallCfg.alphabet :=
  ⟨smallText_inv (by decide), smallText_input (by decide), by decide,
    fun ch h => by rw [List.eq_of_mem_replicate h]; decide⟩

theorem witness_TextCommandsReportTheFirstError :
    smallCfg.textMax < (smallText (chars "ABCDE")).core.inLen.toNat ∧
    (smallText (chars "ABCD")).core.inLen.toNat ≤ smallCfg.textMax ∧
    InputText (smallText (chars "ABCD")) (chars "ABCD") ∧ (∃ ch ∈ chars "ABCD", ch ∈ smallCfg.alphabet) ∧
    keyStream (withText (noSeed 0#32) (chars "ABCD")).cfg (withText (noSeed 0#32) (chars "ABCD")).core
      = .error .seedUnavailable ∧
    keyStream (withText (bare 0#32 0#32) (chars "ABCD")).cfg (withText (bare 0#32 0#32) (chars "ABCD")).core
      = .ok 0x0AA#9 ∧ (withText (bare 0#32 0#32) (chars "ABCD")).core.sbox1 = .empty :=
  ⟨by decide, by decide, smallText_input (by decide), ⟨0x41#32, by decide, by decide⟩, keyStream_noSeed rfl rfl rfl,
    keyStream_three rfl rfl rfl, by decide⟩

/-- "A!A" has an even number of symbols, "A!" an odd one; "A/" ends in PAD. -/
theorem witness_TextRoundTripUnlessItEndsInPad : (smallText (chars "A!")).Inv ∧
    InputText (smallText (chars "A!")) (chars "A!") ∧ CipherReady (smallText (chars "A!")) 0x0AA#9 table1 table2 ∧
    (chars "A!").length + ((chars "A!").filter (· ∈ smallCfg.alphabet)).length % 2 ≤ smallCfg.textMax ∧
    (chars "A!").getLast? ≠ some (smallText (chars "A!")).core.pad ∧
    (chars "A/").getLast? = some (smallText (chars "A/")).core.pad :=
  ⟨smallText_inv (by decide), smallText_input (by decide), smallText_ready _, by decide, by decide, by decide⟩

/-- A next state of each kind: SETP, another command, and a text command, succeeding and failing. -/
theorem witness_CommandsChangeOnlyTheirItems : (∃ t, exec (.setp .pad) (small 0x41#32 0#32) = .next t) ∧
    (∃ t, exec .round (small 0#32 0#32) = .next t) ∧ (∃ t, exec (.encrypt .cbc) (smallText (chars "A!")) = .next t) ∧
    ∃ t, exec (.decrypt (.other 2#4)) (small 0#32 0#32) = .next t := ⟨⟨_, rfl⟩, ⟨_, rfl⟩, ⟨_, rfl⟩, ⟨_, rfl⟩⟩

theorem witness_FailedCommandsWriteOnlyTheError :
    (∃ t, exec .round (small 0#32 0#32) = .next t ∧ t.core.err = false) ∧
    (∃ t, exec .round (bare 0#32 0#32) = .next t ∧ t.core.err = true) ∧
    ∃ t, exec (.decrypt (.other 2#4)) (small 0#32 0#32) = .next t ∧ t.core.err = true :=
  ⟨⟨_, rfl, rfl⟩, ⟨_, rfl, rfl⟩, ⟨_, rfl, rfl⟩⟩

/-- Two states that agree on the inputs and differ in the results and in a TIN entry beyond IN_LEN. -/
theorem witness_OutcomeDependsOnlyOnTheInputs :
    let s := smallText (chars "A!")
    let s' := s.onCore fun c => { c with res0 := 1#32, tin := c.tin.write 3 0x42#32 }
    (∀ k, k < s.core.inLen.toNat → s.core.tin.read k = s'.core.tin.read k) ∧ s.core.inLen = s'.core.inLen ∧
    s.core.sbox1 = s'.core.sbox1 ∧ s.core.res0 ≠ s'.core.res0 ∧ ∃ t, exec (.encrypt .ecb) s = .next t :=
  ⟨by decide, by decide, by decide, by decide, ⟨_, rfl⟩⟩

theorem witness_RepeatedCommandWritesTheSame : (smallText (chars "A!")).Inv ∧
    ∃ t, exec (.encrypt .cbc) (smallText (chars "A!")) = .next t := ⟨smallText_inv (by decide), ⟨_, rfl⟩⟩

/-- Each kind of offset at a boundary: the last register, the last TIN and TOUT entries, and the first and last reserved
offsets of the three reserved ranges (TEXT_MAX = 4). -/
theorem witness_ReadsReturnTheRegister : (smallText (chars "ABCD")).bus.line = .released ∧ smallCfg.wf = true ∧
    regAt smallCfg 0x028 = .cap ∧ regAt smallCfg 0x02C = .reserved ∧ regAt smallCfg 0xFFFC = .reserved ∧
    regAt smallCfg 0x1000C = .tin 3 ∧ (smallText (chars "ABCD")).core.tin.read 3 = some 0x44#32 ∧
    regAt smallCfg 0x10010 = .reserved ∧ regAt smallCfg 0x1FFFC = .reserved ∧ regAt smallCfg 0x20010 = .tout 4 ∧
    ((small 0#32 0#32).onCore fun c => { c with tout := c.tout.write 4 7#32 }).core.tout.read 4 = some 7#32 ∧
    regAt smallCfg 0x20014 = .reserved ∧ regAt smallCfg 0x2FFFC = .reserved :=
  ⟨by decide, smallCfg_wf, by decide, by decide, by decide, by decide, by decide, by decide, by decide, by decide,
    by decide, by decide, by decide⟩

theorem witness_StatusShowsTheLastOutcome : (small 0#32 0#32).bus.line = .released := by decide

theorem witness_UnwrittenEntriesReadAsSomeValue : (small 0#32 0#32).bus.line = .released ∧ smallCfg.wf = true ∧
    3 < smallCfg.textMax ∧ (small 0#32 0#32).core.tin.read 3 = none ∧ 4 ≤ smallCfg.textMax ∧
    (small 0#32 0#32).core.tout.read 4 = none :=
  ⟨by decide, smallCfg_wf, by decide, by decide, by decide, by decide⟩

theorem witness_WritesStoreTheValue : (small 0#32 0#32).bus.line = .released ∧ smallCfg.wf = true ∧
    3 < smallCfg.textMax := ⟨by decide, smallCfg_wf, by decide⟩

theorem witness_OtherWritesAreIgnored : (small 0#32 0#32).bus.line = .released ∧ smallCfg.wf = true ∧
    0x028 % 4 = 0 ∧ 0x02C ≤ 0xFFFC ∧ 0xFFFC ≤ 0x0FFFF ∧ 0x10000 + 4 * smallCfg.textMax ≤ 0x10010 ∧
    0x2FFFC < 0x30000 := ⟨by decide, smallCfg_wf, by decide, by decide, by decide, by decide, by decide⟩

/-- Both sides of each question: a defined access and an undefined one. -/
theorem witness_UndefinedAccessesAreRefused : (small 0#32 0#32).bus.line = .released ∧
    readDefined 0x2FFFC [true, true, true, true] = true ∧ readDefined 0x30000 [true, true, true, true] = false ∧
    readDefined 0x002 [true, true, true, true] = false ∧ readDefined 0x000 [true, true, true, false] = false ∧
    writeWord [some 1#8, none, some 3#8, some 4#8] = none := by decide

/-- The small machine with its reset input asserted. -/
def held (line : ResetLine) : State := (small 0#32 0#32).setLine line

theorem witness_ReleasedResetGivesTheResetState : (held .asserted).bus.line = .asserted ∧
    (held .assertedMidCommand).bus.line = .assertedMidCommand := by decide

theorem witness_CutCommandLeavesTheResetState :
    let s := (small 0#32 0#32).issue [.cutCommand 0x14#32, .releaseReset]
    s.bus.line = .released ∧ s.bus.pending = [.cutCommand 0x14#32, .releaseReset] := by decide

theorem witness_StepKeepsTheInvariant : (smallText (chars "A!")).Inv ∧ ∃ t, step (smallText (chars "A!")) = .next t :=
  ⟨smallText_inv (by decide), ⟨_, rfl⟩⟩

theorem witness_OnlyResetEmptiesATable :
    let s := pendingState (held .asserted) .releaseReset
    ∃ t, step s = .next t ∧ s.core.sbox1 ≠ .empty ∧ t.core.sbox1 = .empty := ⟨_, rfl, by decide, by rfl⟩

/-- All three ways a step can end. -/
theorem witness_StopsAreOnlyTheNamedOnes : (small 0#32 0#32).bus.line = .released ∧ StepSafe (small 0#32 0#32) ∧
    step (pendingState (small 0#32 0#32) (.read 2 [true, true, true, true])) = .refused .undefinedAccess ∧
    step (pendingState ((small 0#32 0#32).onCore fun c => { c with inLen := 1#16 }) (writeEvent .cmd 0x41#32))
      = .fault .unwrittenText := ⟨by decide, ⟨_, rfl⟩, by rfl, by rfl⟩

theorem witness_LdsboxLoadsTheTable : (bare 0#32 0#32).bus.line = .released ∧ (bare 0#32 0#32).bus.pending = [] := by
  decide

/-- Both sides: a file that is the form of a table, and one that is the form of none. -/
theorem witness_OnlyTableFilesAreTranscribed :
    (∃ t : Table, [("101-010-001-110-011-100-111-000").toList, ("001-100-110-010-000-111-101-011").toList]
      = Statement.fileOf t) ∧ ∀ t : Table, ([] : List (List Char)) ≠ Statement.fileOf t :=
  ⟨⟨{ row0 := #v[5#3, 2#3, 1#3, 6#3, 3#3, 4#3, 7#3, 0#3], row1 := #v[1#3, 4#3, 6#3, 2#3, 0#3, 7#3, 5#3, 3#3] },
    by decide⟩, fun _ h => nomatch h⟩

end Sys2Proof.Tests
end

section
/-! PROOFS. 10_state: the invariant, the tables, STATUS, CMD and the state after reset. One inversion lemma (`step_effect`)
says what a step can make of the core; the statements about steps are read off it. -/

namespace Sys2Proof.Machine

/-! ### Sequences of checks -/

/-- A value with the property P, or an error that a host can tell from success: any but NONE (60_exceptions R300, R301). -/
def Meets {α : Type} (P : α → Prop) : Except ErrorCode α → Prop
  | .ok a => P a
  | .error e => e ≠ .none

theorem meets_ok {α : Type} {P : α → Prop} {a : α} (h : P a) : Meets P (.ok a) := h

theorem meets_error {α : Type} {P : α → Prop} {e : ErrorCode} (h : e ≠ .none) : Meets P (.error e) := h

theorem meets_bind {α β : Type} {P : α → Prop} {Q : β → Prop} {x : Except ErrorCode α} {f : α → Except ErrorCode β}
    (hx : Meets P x) (hf : ∀ a, P a → Meets Q (f a)) : Meets Q (x >>= f) := by
  cases x with
  | ok a => exact hf a hx
  | error e => exact hx

theorem meets_require {b : Bool} {e : ErrorCode} (h : e ≠ .none) : Meets (fun _ => b = true) (require b e) := by
  cases b with
  | true => rfl
  | false => exact h

/-- A sequence that begins with a check: what follows may use that the check passed. -/
theorem meets_require_bind {β : Type} {Q : β → Prop} {b : Bool} {e : ErrorCode} {f : Unit → Except ErrorCode β}
    (he : e ≠ .none) (hf : b = true → Meets Q (f ())) : Meets Q (require b e >>= f) :=
  meets_bind (meets_require he) fun _ hb => hf hb

theorem meets_table (b : SBox) : Meets (fun _ => True) b.table := by
  cases b with
  | empty => exact meets_error (by decide)
  | loaded t => exact meets_ok trivial

theorem meets_bothTables (c : CoreState) : Meets (fun _ => True) (bothTables c) :=
  meets_bind (meets_table c.sbox1) fun _ _ => meets_bind (meets_table c.sbox2) fun _ _ => meets_ok trivial

/-- BBS answers only where its BITS check passed (42_keystream R166). -/
theorem meets_bbs (cfg : Config) (p q bits : Nat) : Meets (fun _ => bits ≤ 32) (bbs cfg p q bits) := by
  refine meets_require_bind (by decide) fun _ => meets_require_bind (by decide) fun _ =>
    meets_require_bind (by decide) fun hbits => ?_
  cases seedSearch cfg.primeTable (p * q) with
  | none => exact meets_error (by decide)
  | some s => exact meets_ok (of_decide_eq_true hbits).2

theorem meets_keyStream (cfg : Config) (c : CoreState) : Meets (fun _ => True) (keyStream cfg c) :=
  meets_bind (meets_bbs ..) fun _ _ => meets_ok trivial

theorem meets_cipherKey (cfg : Config) (c : CoreState) : Meets (fun _ => True) (cipherKey cfg c) :=
  meets_bind (meets_keyStream cfg c) fun _ _ => meets_bind (meets_bothTables c) fun _ _ => meets_ok trivial

/-! ### RLEN of a result -/

/-- A result's length in bits is one that RLEN can hold (10_state R21). -/
def Result.Bounded (r : Result) : Prop := r.rlen.toNat ≤ 32

/-- RLEN holds every length up to 32 as it is. -/
theorem ofNat_rlen_le {n : Nat} (h : n ≤ 32) : (BitVec.ofNat 6 n).toNat ≤ 32 := by
  rw [BitVec.toNat_ofNat]; omega

theorem Result.ofBits_bounded {n : Nat} (v : BitVec n) (h : n ≤ 32) : (Result.ofBits v).Bounded := ofNat_rlen_le h

theorem meets_getParam (c : CoreState) (pid : Pid) : Meets Result.Bounded (getParam c pid) := by
  have table (b : SBox) : (tableResult b).Bounded := by cases b <;> exact ofNat_rlen_le (by decide)
  cases pid with
  | sbox1 => exact table c.sbox1
  | sbox2 => exact table c.sbox2
  | other n => exact meets_error (by decide)
  | rounds | blockSize | keyLength | encoding | p | q | pad => exact Result.ofBits_bounded _ (le_refl 32)

theorem meets_expandResult (len : Half) (c : CoreState) : Meets Result.Bounded (expandResult len c) :=
  meets_require_bind (by decide) fun hlen => meets_require_bind (by decide) fun _ =>
    have h := of_decide_eq_true hlen
    meets_ok (ofNat_rlen_le (by omega))

theorem meets_xorResult (len : Half) (c : CoreState) : Meets Result.Bounded (xorResult len c) :=
  meets_require_bind (by decide) fun hlen => meets_require_bind (by decide) fun _ =>
    meets_ok (ofNat_rlen_le (of_decide_eq_true hlen).2)

theorem meets_substResult (sel : Sel) (c : CoreState) : Meets Result.Bounded (substResult sel c) :=
  meets_require_bind (by decide) fun _ => meets_bind (meets_table _) fun _ _ =>
    meets_ok (Result.ofBits_bounded _ (by decide))

theorem meets_ffuncResult (c : CoreState) : Meets Result.Bounded (ffuncResult c) :=
  meets_require_bind (by decide) fun _ => meets_bind (meets_bothTables c) fun _ _ =>
    meets_ok (Result.ofBits_bounded _ (by decide))

theorem meets_roundResult (c : CoreState) : Meets Result.Bounded (roundResult c) :=
  meets_require_bind (by decide) fun _ => meets_bind (meets_bothTables c) fun _ _ =>
    meets_ok (Result.ofBits_bounded _ (by decide))

theorem meets_bbsResult (cfg : Config) (bits : Half) (c : CoreState) : Meets Result.Bounded (bbsResult cfg bits c) :=
  meets_bind (meets_bbs ..) fun _ h => meets_ok (ofNat_rlen_le h)

theorem meets_keystreamResult (cfg : Config) (c : CoreState) :
    Meets Result.Bounded (do let k ← keyStream cfg c; return Result.ofBits k) :=
  meets_bind (meets_keyStream cfg c) fun _ _ => meets_ok (Result.ofBits_bounded _ (by decide))

theorem meets_subkeyResult (cfg : Config) (idx : Half) (c : CoreState) :
    Meets Result.Bounded (subkeyResult cfg idx c) :=
  meets_require_bind (by decide) fun _ => meets_bind (meets_keyStream cfg c) fun _ _ =>
    meets_ok (Result.ofBits_bounded _ (by decide))

theorem meets_encblkResult (cfg : Config) (c : CoreState) : Meets Result.Bounded (encblkResult cfg c) :=
  meets_require_bind (by decide) fun _ => meets_bind (meets_cipherKey cfg c) fun _ _ =>
    meets_ok (Result.ofBits_bounded _ (by decide))

theorem meets_decblkResult (cfg : Config) (c : CoreState) : Meets Result.Bounded (decblkResult cfg c) :=
  meets_require_bind (by decide) fun _ => meets_bind (meets_cipherKey cfg c) fun _ _ =>
    meets_ok (Result.ofBits_bounded _ (by decide))

/-! ### SETP -/

/-- What SETP can make of the core before its outcome is written: nothing, or one item with a value that passed the item's
check (40_config R121 to R130). -/
inductive ParamSet (cfg : Config) (c : CoreState) : CoreState → Prop where
  | same : ParamSet cfg c c
  | rounds (v : Half) (h : 2 ≤ v.toNat) : ParamSet cfg c { c with rounds := v }
  | p (v : Half) (h : validPQ v.toNat = true) : ParamSet cfg c { c with p := v }
  | q (v : Half) (h : validPQ v.toNat = true) : ParamSet cfg c { c with q := v }
  | sbox1 (t : Table) : ParamSet cfg c { c with sbox1 := .loaded t }
  | sbox2 (t : Table) : ParamSet cfg c { c with sbox2 := .loaded t }
  | pad (v : Word) (h : v ∈ cfg.alphabet) : ParamSet cfg c { c with pad := v }

/-- A value up to 65535 fits in a 16-bit item as it is (10_state R30, R34). -/
theorem bitString_16_toNat {v : Word} (h : v.toNat ≤ 65535) : (bitString 16 v).toNat = v.toNat :=
  bitString_toNat_of_fits (fits_eq_true.mpr (by omega))

theorem validPQ_bitString {v : Word} (h : validPQ v.toNat = true) : validPQ (bitString 16 v).toNat = true := by
  have hle : v.toNat ≤ 65535 := by
    simp only [validPQ, Bool.and_eq_true, decide_eq_true_eq] at h
    exact h.1
  rwa [bitString_16_toNat hle]

theorem meets_rowOf (v : Word) : Meets (fun _ => True) (rowOf v) :=
  meets_require_bind (by decide) fun _ => meets_ok trivial

/-- SETP never makes a table EMPTY: its operands stand for a table (40_config R128). -/
theorem meets_tableOperand (c : CoreState) : Meets (fun b => ∃ t, b = .loaded t) (tableOperand c) :=
  meets_bind (meets_rowOf c.opa) fun _ _ => meets_bind (meets_rowOf c.opb) fun _ _ => meets_ok ⟨_, rfl⟩

theorem meets_setParam (cfg : Config) (c : CoreState) (pid : Pid) :
    Meets (ParamSet cfg c) (setParam cfg c pid) := by
  cases pid with
  | rounds =>
    refine meets_require_bind (by decide) fun h => meets_ok (.rounds _ ?_)
    obtain ⟨hlow, hhigh⟩ := of_decide_eq_true h
    rwa [bitString_16_toNat hhigh]
  | blockSize | encoding => exact meets_require_bind (by decide) fun _ => meets_ok .same
  | keyLength | other n => exact meets_error (by decide)
  | p => exact meets_require_bind (by decide) fun h => meets_ok (.p _ (validPQ_bitString h))
  | q => exact meets_require_bind (by decide) fun h => meets_ok (.q _ (validPQ_bitString h))
  | sbox1 => exact meets_bind (meets_tableOperand c) fun _ ⟨t, ht⟩ => meets_ok (ht ▸ .sbox1 t)
  | sbox2 => exact meets_bind (meets_tableOperand c) fun _ ⟨t, ht⟩ => meets_ok (ht ▸ .sbox2 t)
  | pad => exact meets_require_bind (by decide) fun h => meets_ok (.pad _ (of_decide_eq_true h))

/-! ### The length of a text command's text -/

theorem insertPositions_length (o : List Word) (pos : List (Word × Nat)) :
    (insertPositions o pos).length = o.length + pos.length := by
  induction pos generalizing o with
  | nil => rfl
  | cons p pos ih =>
    have hinsert : (o.take p.2 ++ p.1 :: o.drop p.2).length = o.length + 1 := by
      simp only [List.length_append, List.length_cons, List.length_take, List.length_drop]; omega
    have htail := ih (o.take p.2 ++ p.1 :: o.drop p.2)
    rw [hinsert] at htail
    simp only [List.length_cons]
    exact htail.trans (by omega)

/-- Each character of a text is in its clean text or among its positions (45_modes R254, R255). -/
theorem cleanText_length_add_getPositions_length (cfg : Config) (t : List Word) :
    (cleanText cfg t).length + (getPositions cfg t).length = t.length := by
  induction t with
  | nil => rfl
  | cons ch t ih =>
    by_cases h : inAlphabet cfg ch = true
    · have hclean : cleanText cfg (ch :: t) = ch :: cleanText cfg t := List.filter_cons_of_pos h
      have hpos : (getPositions cfg (ch :: t)).length = (getPositions cfg t).length := by simp [getPositions_cons, h]
      rw [hclean, hpos, List.length_cons, List.length_cons]; omega
    · have hclean : cleanText cfg (ch :: t) = cleanText cfg t := List.filter_cons_of_neg h
      have hpos : (getPositions cfg (ch :: t)).length = (getPositions cfg t).length + 1 := by
        simp [getPositions_cons, h]
      rw [hclean, hpos, List.length_cons]; omega

/-- A transformation that makes as many blocks as it is given makes a text at most one character longer, by the pad
(45_modes R257, R263, R264). -/
theorem meets_cryptText (cfg : Config) (c : CoreState) {f : Transform}
    (hf : ∀ g bs, (f.chain g bs).length = bs.length) (t : List Word) :
    Meets (fun out => out.length ≤ t.length + 1) (cryptText cfg c f t) := by
  have hsplit := cleanText_length_add_getPositions_length cfg t
  have hpad := padText_length c.pad (cleanText cfg t)
  have hblocks := blocksOf_length cfg (padText c.pad (cleanText cfg t)) (by omega)
  unfold cryptText
  split
  · refine meets_ok ?_
    rw [insertPositions_length, List.length_nil]; omega
  · next b bs hbs =>
    refine meets_bind (meets_cipherKey cfg c) fun k _ => meets_ok ?_
    rw [insertPositions_length, symbolsOf_length, hf, ← hbs]; omega

theorem stripPad_length_le (pad : Word) (t : List Word) : (stripPad pad t).length ≤ t.length := by
  obtain ⟨n, ht, -⟩ := stripPad_spec pad t
  have := congrArg List.length ht
  rw [List.length_append] at this; omega

theorem meets_decryptText (cfg : Config) (c : CoreState) {f : Transform}
    (hf : ∀ g bs, (f.chain g bs).length = bs.length) (t : List Word) :
    Meets (fun out => out.length ≤ t.length + 1) (decryptText cfg c f t) :=
  meets_bind (meets_cryptText cfg c hf t) fun out h => meets_ok ((stripPad_length_le c.pad out).trans h)

/-! ### What a command, and what a step, can make of the core -/

/-- What a command can make of the core (60_exceptions R301, R302; 40_config R122; 45_modes R263, R265). -/
inductive CommandEffect (cfg : Config) (c : CoreState) : CoreState → Prop where
  | succeed (r : Result) (h : r.Bounded) : CommandEffect cfg c (c.succeed r)
  | raise (e : ErrorCode) (h : e ≠ .none) : CommandEffect cfg c (c.raise e)
  | set (c' : CoreState) (h : ParamSet cfg c c') : CommandEffect cfg c (c'.succeed {})
  | succeedText (out : List Word) (h : out.length ≤ cfg.textMax + 1) : CommandEffect cfg c (c.succeedText out)
  | raiseText (e : ErrorCode) (h : e ≠ .none) : CommandEffect cfg c (c.raiseText e)

theorem complete_effect {cfg : Config} {c : CoreState} {x : Except ErrorCode Result} (hx : Meets Result.Bounded x) :
    CommandEffect cfg c (c.complete x) := by
  cases x with
  | ok r => exact .succeed r hx
  | error e => exact .raise e hx

theorem onCore_effect {s t : State} {f : CoreState → CoreState} (hf : CommandEffect s.cfg s.core (f s.core))
    (h : Host.Outcome.next (φ := Fault) (ρ := Refusal) (s.onCore f) = .next t) :
    t.cfg = s.cfg ∧ CommandEffect s.cfg s.core t.core := by
  cases h; exact ⟨rfl, hf⟩

theorem execSetp_effect {pid : Pid} {s t : State} (h : execSetp pid s = .next t) :
    t.cfg = s.cfg ∧ CommandEffect s.cfg s.core t.core := by
  have hset := meets_setParam s.cfg s.core pid
  obtain ⟨c, hc, hnext⟩ | ⟨e, he, hnext⟩ := execSetp_cases pid s
  · rw [hc] at hset
    rw [hnext] at h; cases h
    exact ⟨rfl, .set c hset⟩
  · rw [he] at hset
    rw [hnext] at h; cases h
    exact ⟨rfl, .raise e hset⟩

theorem textCommand_effect {run : CoreState → List Word → Except ErrorCode (List Word)} {s t : State}
    (hrun : ∀ c text, Meets (fun out => out.length ≤ text.length + 1) (run c text))
    (h : textCommand run s = .next t) : t.cfg = s.cfg ∧ CommandEffect s.cfg s.core t.core := by
  obtain ⟨-, hnext⟩ | ⟨hlen, ⟨-, hnext⟩ | ⟨text, htext, hrest⟩⟩ := textCommand_cases run s
  · exact onCore_effect (.raiseText _ (by decide)) (hnext ▸ h)
  · rw [hnext] at h; cases h
  · have htextLen := (Buffer.readText_eq_some.mp htext).1
    have hout := hrun s.core text
    obtain ⟨out, hok, hnext⟩ | ⟨e, herr, hnext⟩ := hrest
    · rw [hok] at hout
      have hfits : out.length ≤ s.cfg.textMax + 1 := le_trans hout (by omega)
      exact onCore_effect (.succeedText out hfits) (hnext ▸ h)
    · rw [herr] at hout
      exact onCore_effect (.raiseText e hout) (hnext ▸ h)

theorem execEncrypt_effect {mode : Mode} {s t : State} (h : execEncrypt mode s = .next t) :
    t.cfg = s.cfg ∧ CommandEffect s.cfg s.core t.core := by
  cases mode with
  | ecb => exact textCommand_effect (fun c => meets_cryptText s.cfg c fun _ _ => List.length_map _) h
  | cbc => exact textCommand_effect (fun c => meets_cryptText s.cfg c fun g => cbcEncrypt_length g iv) h
  | other n => exact onCore_effect (.raiseText _ (by decide)) h

theorem execDecrypt_effect {mode : Mode} {s t : State} (h : execDecrypt mode s = .next t) :
    t.cfg = s.cfg ∧ CommandEffect s.cfg s.core t.core := by
  cases mode with
  | ecb => exact textCommand_effect (fun c => meets_decryptText s.cfg c fun _ _ => List.length_map _) h
  | cbc => exact textCommand_effect (fun c => meets_decryptText s.cfg c fun g => cbcDecrypt_length g iv) h
  | other n => exact onCore_effect (.raiseText _ (by decide)) h

theorem exec_effect {i : Instr} {s t : State} (h : exec i s = .next t) :
    t.cfg = s.cfg ∧ CommandEffect s.cfg s.core t.core := by
  cases i with
  | setp pid => exact execSetp_effect h
  | encrypt mode => exact execEncrypt_effect h
  | decrypt mode => exact execDecrypt_effect h
  | getp pid => exact onCore_effect (complete_effect (meets_getParam _ pid)) h
  | expand len => exact onCore_effect (complete_effect (meets_expandResult len _)) h
  | xor len => exact onCore_effect (complete_effect (meets_xorResult len _)) h
  | subst sel => exact onCore_effect (complete_effect (meets_substResult sel _)) h
  | ffunc => exact onCore_effect (complete_effect (meets_ffuncResult _)) h
  | round => exact onCore_effect (complete_effect (meets_roundResult _)) h
  | bbs bits => exact onCore_effect (complete_effect (meets_bbsResult _ bits _)) h
  | keystream => exact onCore_effect (complete_effect (meets_keystreamResult _ _)) h
  | subkey idx => exact onCore_effect (complete_effect (meets_subkeyResult _ idx _)) h
  | encblk => exact onCore_effect (complete_effect (meets_encblkResult _ _)) h
  | decblk => exact onCore_effect (complete_effect (meets_decblkResult _ _)) h
  | ivgen => exact onCore_effect (.succeed _ (Result.ofBits_bounded iv (by decide))) h

/-- A write to CMD ends as the command does, or as BAD_COMMAND where the word does not decode (30_encoding R91). -/
theorem runCommand_effect {w : Word} {s t : State} (h : runCommand w s = .next t) :
    t.cfg = s.cfg ∧ CommandEffect s.cfg s.core t.core := by
  unfold runCommand at h
  split at h
  · exact exec_effect h
  · exact onCore_effect (.raise _ (by decide)) h

/-- What an access can make of the core (20_memory R65, R66). -/
inductive AccessEffect (cfg : Config) (c : CoreState) : CoreState → Prop where
  | same : AccessEffect cfg c c
  | command (c' : CoreState) (h : CommandEffect cfg c c') : AccessEffect cfg c c'
  | opa (w : Word) : AccessEffect cfg c { c with opa := w }
  | opb (w : Word) : AccessEffect cfg c { c with opb := w }
  | inLen (n : Half) : AccessEffect cfg c { c with inLen := n }
  | tin (k : Nat) (w : Word) (h : k < cfg.textMax) : AccessEffect cfg c { c with tin := c.tin.write k w }

/-- The address map has no TIN entry beyond TEXT_MAX (20_memory R62). -/
theorem lt_textMax_of_regAt {cfg : Config} {offset k : Nat} (h : regAt cfg offset = .tin k) : k < cfg.textMax := by
  unfold regAt at h
  -- The map's first twelve conditions lead to other registers.
  iterate 12 (obtain ⟨-, h⟩ | ⟨-, h⟩ := ite_eq_iff.mp h; · cases h)
  obtain ⟨-, h⟩ | ⟨-, h⟩ := ite_eq_iff.mp h
  · obtain ⟨hk, h⟩ | ⟨-, h⟩ := ite_eq_iff.mp h
    · cases h; exact hk
    · cases h
  · obtain ⟨-, h⟩ | ⟨-, h⟩ := ite_eq_iff.mp h <;> cases h

@[simp] theorem hostRead_cfg (r : RegName) (s : State) : (hostRead r s).cfg = s.cfg := by
  unfold hostRead; split <;> rfl

@[simp] theorem hostRead_core (r : RegName) (s : State) : (hostRead r s).core = s.core := by
  unfold hostRead; split <;> rfl

theorem hostWrite_effect {r : RegName} {w : Word} {s t : State} (hr : ∀ k, r = .tin k → k < s.cfg.textMax)
    (h : hostWrite r w s = .next t) : t.cfg = s.cfg ∧ AccessEffect s.cfg s.core t.core := by
  cases r with
  | cmd =>
    obtain ⟨hcfg, heffect⟩ := runCommand_effect h
    exact ⟨hcfg, .command _ heffect⟩
  | opa => cases h; exact ⟨rfl, .opa w⟩
  | opb => cases h; exact ⟨rfl, .opb w⟩
  | inLen => cases h; exact ⟨rfl, .inLen _⟩
  | tin k => cases h; exact ⟨rfl, .tin k w (hr k rfl)⟩
  | id | status | rlen | res0 | res1 | outLen | cap | tout k | reserved => cases h; exact ⟨rfl, .same⟩

theorem accessReleased_effect {e : Event} {s t : State} (h : accessReleased e s = .next t) :
    t.cfg = s.cfg ∧ AccessEffect s.cfg s.core t.core := by
  cases e with
  | read offset enables =>
    simp only [accessReleased] at h
    split at h
    · cases h
      exact ⟨hostRead_cfg .., hostRead_core (regAt s.cfg offset) s ▸ .same⟩
    · cases h
  | write offset lanes =>
    simp only [accessReleased] at h
    split at h
    · exact hostWrite_effect (fun _ => lt_textMax_of_regAt) h
    · cases h
  | assertReset | releaseReset | cutCommand w => cases h; exact ⟨rfl, .same⟩

/-- While reset is asserted, an event that gives a next state is an edge of the reset input (93 U4). -/
theorem performEvent_held {e : Event} {s t : State} (hline : s.bus.line ≠ .released)
    (h : performEvent e s = .next t) : t = s ∨ e = .releaseReset ∧ t = s.releaseReset := by
  cases hl : s.bus.line with
  | released => exact absurd hl hline
  | asserted | assertedMidCommand =>
    cases e with
    | releaseReset => simp only [performEvent, hl] at h; cases h; exact .inr ⟨rfl, rfl⟩
    | assertReset => simp only [performEvent, hl] at h; cases h; exact .inl rfl
    | read offset enables | write offset lanes | cutCommand w => simp only [performEvent, hl] at h; cases h

/-- Everything one event can make of the core. -/
theorem performEvent_effect {e : Event} {s t : State} (h : performEvent e s = .next t) :
    t.cfg = s.cfg ∧ (AccessEffect s.cfg s.core t.core ∨
      (s.bus.line ≠ .released ∧ e = .releaseReset ∧ t.core = CoreState.reset s.cfg)) := by
  by_cases hline : s.bus.line = .released
  · rw [performEvent_released e hline] at h
    obtain ⟨hcfg, haccess⟩ := accessReleased_effect h
    exact ⟨hcfg, .inl haccess⟩
  · obtain rfl | ⟨rfl, rfl⟩ := performEvent_held hline h
    · exact ⟨rfl, .inl .same⟩
    · exact ⟨rfl, .inr ⟨hline, rfl, rfl⟩⟩

/-- Everything one step can make of the core: what an access makes of it, or the reset values, which only the release of
an asserted reset input gives; the parameters stay (00_scope R5; 20_memory R66; 70_reset R340). -/
theorem step_effect {s t : State} (h : step s = .next t) :
    t.cfg = s.cfg ∧ (AccessEffect s.cfg s.core t.core ∨
      (s.bus.line ≠ .released ∧ s.bus.pending.head? = some .releaseReset ∧ t.core = CoreState.reset s.cfg)) := by
  cases hp : s.bus.pending with
  | nil => rw [step_nil hp] at h; cases h; exact ⟨rfl, .inl .same⟩
  | cons e rest =>
    have hevent : performEvent e { s with bus := { s.bus with pending := rest } } = .next t := by
      simpa only [step, nextEvent, hp] using h
    obtain ⟨hcfg, haccess | ⟨hline, rfl, hcore⟩⟩ := performEvent_effect hevent
    · exact ⟨hcfg, .inl haccess⟩
    · exact ⟨hcfg, .inr ⟨hline, rfl, hcore⟩⟩

/-! ### The invariant -/

/-- The invariant's part about the core. -/
def CoreInv (cfg : Config) (c : CoreState) : Prop := ConfigInv cfg c ∧ OutcomeInv cfg c ∧ BufferInv cfg c

theorem inv_iff {s : State} : s.Inv ↔ s.cfg.wf = true ∧ CoreInv s.cfg s.core := Iff.rfl

/-- The reset values meet the invariant on the configuration (00_scope R5; 10_state R43). -/
theorem reset_configInv {cfg : Config} (hw : cfg.wf = true) : ConfigInv cfg (CoreState.reset cfg) := by
  simp only [Config.wf, Bool.and_eq_true, decide_eq_true_eq] at hw
  obtain ⟨⟨⟨⟨-, hrounds⟩, hp⟩, hq⟩, hpad⟩ := hw
  exact ⟨hrounds, hp, hq, hpad⟩

theorem reset_coreInv {cfg : Config} (hw : cfg.wf = true) : CoreInv cfg (CoreState.reset cfg) :=
  ⟨reset_configInv hw, ⟨iff_of_true rfl rfl, Nat.zero_le _, Nat.zero_le _, fun k hk => absurd hk (Nat.not_lt_zero k)⟩,
    rfl, rfl⟩

section Preservation

variable {cfg : Config} {c c' : CoreState}

theorem succeed_coreInv {r : Result} (hr : r.Bounded) (hc : CoreInv cfg c) : CoreInv cfg (c.succeed r) := by
  obtain ⟨hconfig, ⟨-, -, houtLen, hwritten⟩, hbuffer⟩ := hc
  exact ⟨hconfig, ⟨iff_of_true rfl rfl, hr, houtLen, hwritten⟩, hbuffer⟩

theorem raise_coreInv {e : ErrorCode} (he : e ≠ .none) (hc : CoreInv cfg c) : CoreInv cfg (c.raise e) := by
  obtain ⟨hconfig, ⟨-, -, houtLen, hwritten⟩, hbuffer⟩ := hc
  exact ⟨hconfig, ⟨iff_of_false Bool.noConfusion he, Nat.zero_le _, houtLen, hwritten⟩, hbuffer⟩

theorem raiseText_coreInv {e : ErrorCode} (he : e ≠ .none) (hc : CoreInv cfg c) : CoreInv cfg (c.raiseText e) := by
  obtain ⟨hconfig, ⟨herr, hrlen, -, -⟩, hbuffer⟩ := raise_coreInv he hc
  exact ⟨hconfig, ⟨herr, hrlen, Nat.zero_le _, fun k hk => absurd hk (Nat.not_lt_zero k)⟩, hbuffer⟩

/-- The text written is what OUT_LEN counts (10_state R27, R29). -/
theorem succeedText_coreInv {out : List Word} (hw : cfg.wf = true) (hout : out.length ≤ cfg.textMax + 1)
    (hc : CoreInv cfg c) : CoreInv cfg (c.succeedText out) := by
  obtain ⟨hconfig, -, htin, htout⟩ := hc
  have htextMax := textMax_le hw
  have houtLen : (c.succeedText out).outLen.toNat = out.length := by
    rw [CoreState.succeedText_outLen, BitVec.toNat_ofNat]; omega
  refine ⟨hconfig, ⟨iff_of_true rfl rfl, Nat.zero_le _, houtLen ▸ hout, fun k hk => ?_⟩, htin,
    Buffer.writeText_wf out (by omega) htout⟩
  rw [houtLen] at hk
  rw [CoreState.succeedText_tout, Buffer.read_writeText, if_pos (by omega)]
  simp [hk]

theorem paramSet_coreInv (h : ParamSet cfg c c') (hc : CoreInv cfg c) : CoreInv cfg c' := by
  obtain ⟨⟨hrounds, hp, hq, hpad⟩, hrest⟩ := hc
  cases h with
  | rounds v hv => exact ⟨⟨hv, hp, hq, hpad⟩, hrest⟩
  | p v hv => exact ⟨⟨hrounds, hv, hq, hpad⟩, hrest⟩
  | q v hv => exact ⟨⟨hrounds, hp, hv, hpad⟩, hrest⟩
  | pad v hv => exact ⟨⟨hrounds, hp, hq, hv⟩, hrest⟩
  | same | sbox1 t | sbox2 t => exact ⟨⟨hrounds, hp, hq, hpad⟩, hrest⟩

theorem commandEffect_coreInv (hw : cfg.wf = true) (h : CommandEffect cfg c c') (hc : CoreInv cfg c) :
    CoreInv cfg c' := by
  cases h with
  | succeed r hr => exact succeed_coreInv hr hc
  | raise e he => exact raise_coreInv he hc
  | set d hd => exact succeed_coreInv (ofNat_rlen_le (by decide)) (paramSet_coreInv hd hc)
  | succeedText out hout => exact succeedText_coreInv hw hout hc
  | raiseText e he => exact raiseText_coreInv he hc

theorem accessEffect_coreInv (hw : cfg.wf = true) (h : AccessEffect cfg c c') (hc : CoreInv cfg c) :
    CoreInv cfg c' := by
  cases h with
  | command _ h => exact commandEffect_coreInv hw h hc
  | tin k w hk =>
    obtain ⟨hconfig, houtcome, htin, htout⟩ := hc
    exact ⟨hconfig, houtcome, Buffer.write_wf w hk htin, htout⟩
  | same | opa w | opb w | inLen n => exact hc

end Preservation

/-- Settles O51, from what a step can make of the core and the invariant's preservation by each of these. -/
theorem stepKeepsTheInvariant : Obligations.StepKeepsTheInvariant := by
  intro s t hs h
  obtain ⟨hw, hcore⟩ := inv_iff.mp hs
  obtain ⟨hcfg, heffect⟩ := step_effect h
  rw [inv_iff, hcfg]
  refine ⟨hw, ?_⟩
  obtain haccess | ⟨-, -, hreset⟩ := heffect
  · exact accessEffect_coreInv hw haccess hcore
  · exact hreset ▸ reset_coreInv hw

/-! ### The tables -/

/-- A table that is loaded in c is loaded in c'. -/
def KeepsTables (c c' : CoreState) : Prop :=
  (c.sbox1 ≠ .empty → c'.sbox1 ≠ .empty) ∧ (c.sbox2 ≠ .empty → c'.sbox2 ≠ .empty)

theorem paramSet_keepsTables {cfg : Config} {c c' : CoreState} (h : ParamSet cfg c c') : KeepsTables c c' := by
  cases h with
  | sbox1 t => exact ⟨fun _ => SBox.noConfusion, id⟩
  | sbox2 t => exact ⟨id, fun _ => SBox.noConfusion⟩
  | same | rounds v | p v | q v | pad v => exact ⟨id, id⟩

theorem commandEffect_keepsTables {cfg : Config} {c c' : CoreState} (h : CommandEffect cfg c c') :
    KeepsTables c c' := by
  cases h with
  | set d hd =>
    have hkeep : KeepsTables c d := paramSet_keepsTables hd
    exact hkeep
  | succeed r | raise e | succeedText out | raiseText e => exact ⟨id, id⟩

theorem accessEffect_keepsTables {cfg : Config} {c c' : CoreState} (h : AccessEffect cfg c c') :
    KeepsTables c c' := by
  cases h with
  | command _ h => exact commandEffect_keepsTables h
  | same | opa w | opb w | inLen n | tin k w => exact ⟨id, id⟩

/-- Settles O52: an access keeps a loaded table, and a step that is no access releases reset. -/
theorem onlyResetEmptiesATable : Obligations.OnlyResetEmptiesATable := by
  intro s t h
  obtain ⟨hcfg, haccess | ⟨hline, hevent, -⟩⟩ := step_effect h
  · obtain ⟨hkeep1, hkeep2⟩ := accessEffect_keepsTables haccess
    refine ⟨hcfg, ?_⟩
    rintro (⟨hloaded, hempty⟩ | ⟨hloaded, hempty⟩)
    · exact absurd hempty (hkeep1 hloaded)
    · exact absurd hempty (hkeep2 hloaded)
  · exact ⟨hcfg, fun _ => ⟨hline, hevent⟩⟩

/-! ### STATUS -/

theorem errorCode_code_toNat (e : ErrorCode) : e.code.toNat = Statement.errorNumber e := by cases e <;> rfl

/-- The STATUS word as a number (10_state R24). -/
theorem statusWord_toNat (c : CoreState) :
    (statusWord c).toNat = c.err.toNat + 256 * c.errCode.code.toNat + 65536 * c.sbox1.isLoaded.toNat
      + 131072 * c.sbox2.isLoaded.toNat := by
  simp only [statusWord, append_toNat, BitVec.toNat_ofBool, BitVec.toNat_ofNat]
  omega

theorem isLoaded_toNat_mul (b : SBox) (n : Nat) : n * b.isLoaded.toNat = if b = .empty then 0 else n := by
  cases b <;> simp [SBox.isLoaded]

/-- Settles O42: the read returns the STATUS word, whose value is the sum of its fields. -/
theorem statusShowsTheLastOutcome : Obligations.StatusShowsTheLastOutcome := by
  intro s hl
  refine ⟨statusWord s.core, step_read_value s hl (by decide) (by decide) rfl, ?_⟩
  rw [statusWord_toNat, errorCode_code_toNat, isLoaded_toNat_mul, isLoaded_toNat_mul]

/-! ### CMD -/

/-- Settles O4: the four lanes are the word that is written to CMD, and the command is the one it decodes to. -/
theorem stepRunsTheDecodedCommand : Obligations.StepRunsTheDecodedCommand := by
  intro s b0 b1 b2 b3 i hl hdecode
  rw [step_event, performEvent_released (s := s) _ hl]
  have hcmd : regAt s.cfg 0x004 = .cmd := rfl
  have hoffset : offsetDefined 0x004 = true := rfl
  have hrun : runCommand (wordOfBytes b0 b1 b2 b3) s = exec i s := by simp only [runCommand, wordOfBytes, hdecode]
  simp only [accessReleased, hoffset, writeWord, hcmd, hostWrite, hrun]

/-! ### Reset -/

/-- Settles O47, by the two ways in which the reset input can be asserted. -/
theorem releasedResetGivesTheResetState : Obligations.ReleasedResetGivesTheResetState := by
  intro s rest hline
  simp only [step_event]
  obtain hl | hl := hline <;>
    simp [performEvent, hl, State.releaseReset, State.setLine, CoreState.reset]

/-- Settles O49: the definition of the state after reset, item by item. -/
theorem resetStateHoldsTheResetValues : Obligations.ResetStateHoldsTheResetValues := ⟨rfl, rfl, rfl, rfl⟩

/-- Settles O50: the chip's parameters meet the constraints, and so the reset values meet the invariant. -/
theorem resetStateMeetsTheInvariant : Obligations.ResetStateMeetsTheInvariant :=
  inv_iff.mpr ⟨Config.chip.wf, reset_coreInv Config.chip.wf⟩

end Sys2Proof.Machine
end

section
/-! PROOFS. 20_memory: what a command can answer and what it leaves unchanged, the register window, and where the machine
stops. `exec_cases` says once everything a command can answer, `hostWrite_cases` everything a defined write can. -/

namespace Sys2Proof.Machine

/-! ### Everything a command can answer -/

/-- A text command whose checks of mode and length pass and which finds an entry of its text not written since reset
(45_modes R253; 93 U1). -/
def ReadsUnwrittenText (i : Instr) (s : State) : Prop :=
  i ∈ [Instr.encrypt .ecb, .encrypt .cbc, .decrypt .ecb, .decrypt .cbc] ∧
  s.core.inLen.toNat ≤ s.cfg.textMax ∧ ∃ k, k < s.core.inLen.toNat ∧ s.core.tin.read k = none

/-- The states that a command can lead to, with the commands that can lead there (60_exceptions R301, R302; 40_config R122;
45_modes R263, R265). -/
inductive CommandNext (s : State) : Instr → State → Prop where
  | succeed (i : Instr) (r : Result) : CommandNext s i (s.onCore fun c => c.succeed r)
  | raise (i : Instr) (e : ErrorCode) : CommandNext s i (s.onCore fun c => c.raise e)
  | set (pid : Pid) (c : CoreState) (h : ParamSet s.cfg s.core c) :
    CommandNext s (.setp pid) { s with core := c.succeed {} }
  | succeedText (i : Instr) (mode : Mode) (h : i = .encrypt mode ∨ i = .decrypt mode) (out : List Word) :
    CommandNext s i (s.onCore fun c => c.succeedText out)
  | raiseText (i : Instr) (mode : Mode) (h : i = .encrypt mode ∨ i = .decrypt mode) (e : ErrorCode) :
    CommandNext s i (s.onCore fun c => c.raiseText e)

theorem execSetp_next (pid : Pid) (s : State) : ∃ t, exec (.setp pid) s = .next t ∧ CommandNext s (.setp pid) t := by
  have hset := meets_setParam s.cfg s.core pid
  obtain ⟨c, hc, hnext⟩ | ⟨e, -, hnext⟩ := execSetp_cases pid s
  · rw [hc] at hset
    exact ⟨_, hnext, .set pid c hset⟩
  · exact ⟨_, hnext, .raise _ e⟩

theorem exec_text_cases {i : Instr} {mode : Mode} (h : i = .encrypt mode ∨ i = .decrypt mode) (s : State) :
    (∃ t, exec i s = .next t ∧ CommandNext s i t) ∨ (exec i s = .fault .unwrittenText ∧ ReadsUnwrittenText i s) := by
  obtain ⟨n, -, hbad⟩ | ⟨hmode, run, hrun⟩ := exec_text_shape h
  · exact .inl ⟨_, hbad s, .raiseText i mode h _⟩
  · rw [hrun s]
    obtain ⟨-, hnext⟩ | ⟨hlen, ⟨hread, hfault⟩ | ⟨text, -, ⟨out, -, hnext⟩ | ⟨e, -, hnext⟩⟩⟩ :=
      textCommand_cases (run s.cfg) s
    · exact .inl ⟨_, hnext, .raiseText i mode h _⟩
    · have hmem : i ∈ [Instr.encrypt .ecb, .encrypt .cbc, .decrypt .ecb, .decrypt .cbc] := by
        obtain rfl | rfl := h <;> obtain rfl | rfl := hmode <;> decide
      obtain ⟨k, hk, hnone⟩ := Buffer.readText_eq_none.mp hread
      rw [Nat.zero_add] at hnone
      exact .inr ⟨hfault, hmem, hlen, k, hk, hnone⟩
    · exact .inl ⟨_, hnext, .succeedText i mode h out⟩
    · exact .inl ⟨_, hnext, .raiseText i mode h e⟩

/-- Everything a command can answer: a next state, or the fault of a text command that reads an unwritten entry. -/
theorem exec_cases (i : Instr) (s : State) :
    (∃ t, exec i s = .next t ∧ CommandNext s i t) ∨ (exec i s = .fault .unwrittenText ∧ ReadsUnwrittenText i s) := by
  obtain ⟨pid, rfl⟩ | ⟨mode, h⟩ | ⟨f, hf⟩ := exec_shape i
  · exact .inl (execSetp_next pid s)
  · exact exec_text_cases h s
  · refine .inl ⟨{ s with core := s.core.complete (f s.cfg s.core) }, hf s, ?_⟩
    cases f s.cfg s.core with
    | ok r => exact .succeed i r
    | error e => exact .raise i e

theorem exec_next {i : Instr} {s t : State} (h : exec i s = .next t) : CommandNext s i t := by
  obtain ⟨t', hnext, heffect⟩ | ⟨hfault, -⟩ := exec_cases i s
  · rw [hnext] at h; cases h; exact heffect
  · rw [hfault] at h; cases h

/-- SETP sets an item of the configuration and leaves every other item of the core (40_config R122). -/
theorem paramSet_frame {cfg : Config} {c c' : CoreState} (h : ParamSet cfg c c') :
    c'.opa = c.opa ∧ c'.opb = c.opb ∧ c'.inLen = c.inLen ∧ c'.tin = c.tin ∧ c'.outLen = c.outLen ∧ c'.tout = c.tout := by
  cases h <;> exact ⟨rfl, rfl, rfl, rfl, rfl, rfl⟩

/-- Settles O37, from the states that a command can lead to. -/
theorem commandsChangeOnlyTheirItems : Obligations.CommandsChangeOnlyTheirItems := by
  intro i s t h
  cases exec_next h with
  | succeed r | raise e => simp
  | set pid c hset =>
    obtain ⟨hopa, hopb, hinLen, htin, houtLen, htout⟩ := paramSet_frame hset
    simp [hopa, hopb, hinLen, htin, houtLen, htout]
  | succeedText _ mode htext out | raiseText _ mode htext e =>
    obtain rfl | rfl := htext <;> simp

/-! ### A command's outcome is computed from its inputs -/

/-- The items that a command computes its results from beside the text: OPA, OPB and the configuration. The items that a
command writes as its outcome, and those of the text buffers, are blanked (60_exceptions R304). -/
def CoreState.inputs (c : CoreState) : CoreState :=
  { c with
    res0 := 0#32, res1 := 0#32, rlen := 0#6, err := false, errCode := .none
    inLen := 0#16, outLen := 0#32, tin := [], tout := [] }

@[simp] theorem CoreState.complete_inputs (c : CoreState) (x : Except ErrorCode Result) :
    (c.complete x).inputs = c.inputs := by cases x <;> rfl

@[simp] theorem CoreState.succeedText_inputs (c : CoreState) (out : List Word) :
    (c.succeedText out).inputs = c.inputs := rfl

@[simp] theorem CoreState.raiseText_inputs (c : CoreState) (e : ErrorCode) : (c.raiseText e).inputs = c.inputs := rfl

/-- Every command but SETP computes its result, or the text it makes of the input text, from its inputs alone. -/
theorem exec_from_inputs (i : Instr) :
    (∃ pid, i = .setp pid) ∨
    (∃ f : Config → CoreState → Except ErrorCode Result,
      ∀ s, exec i s = .next (s.onCore fun c => c.complete (f s.cfg c.inputs))) ∨
    (∃ run : Config → CoreState → List Word → Except ErrorCode (List Word),
      ∀ s, exec i s = textCommand (fun c => run s.cfg c.inputs) s) ∨
    (∃ e, ∀ s, exec i s = .next (s.onCore fun c => c.raiseText e)) := by
  cases i with
  | setp pid => exact .inl ⟨pid, rfl⟩
  | getp pid => exact .inr (.inl ⟨fun _ c => getParam c pid, fun _ => by cases pid <;> rfl⟩)
  | expand len => exact .inr (.inl ⟨fun _ => expandResult len, fun _ => rfl⟩)
  | xor len => exact .inr (.inl ⟨fun _ => xorResult len, fun _ => rfl⟩)
  | subst sel => exact .inr (.inl ⟨fun _ => substResult sel, fun _ => by cases sel <;> rfl⟩)
  | ffunc => exact .inr (.inl ⟨fun _ => ffuncResult, fun _ => rfl⟩)
  | round => exact .inr (.inl ⟨fun _ => roundResult, fun _ => rfl⟩)
  | bbs bits => exact .inr (.inl ⟨fun cfg => bbsResult cfg bits, fun _ => rfl⟩)
  | keystream => exact .inr (.inl ⟨fun cfg c => (keyStream cfg c).map Result.ofBits, fun _ => rfl⟩)
  | subkey idx => exact .inr (.inl ⟨fun cfg => subkeyResult cfg idx, fun _ => rfl⟩)
  | encblk => exact .inr (.inl ⟨encblkResult, fun _ => rfl⟩)
  | decblk => exact .inr (.inl ⟨decblkResult, fun _ => rfl⟩)
  | ivgen => exact .inr (.inl ⟨fun _ _ => .ok (Result.ofBits iv), fun _ => rfl⟩)
  | encrypt mode =>
    cases mode with
    | ecb => exact .inr (.inr (.inl ⟨fun cfg c => encryptText cfg c ecbEncryption, fun _ => rfl⟩))
    | cbc => exact .inr (.inr (.inl ⟨fun cfg c => encryptText cfg c cbcEncryption, fun _ => rfl⟩))
    | other n => exact .inr (.inr (.inr ⟨.badMode, fun _ => rfl⟩))
  | decrypt mode =>
    cases mode with
    | ecb => exact .inr (.inr (.inl ⟨fun cfg c => decryptText cfg c ecbDecryption, fun _ => rfl⟩))
    | cbc => exact .inr (.inr (.inl ⟨fun cfg c => decryptText cfg c cbcDecryption, fun _ => rfl⟩))
    | other n => exact .inr (.inr (.inr ⟨.badMode, fun _ => rfl⟩))

/-! ### Repeating a command -/

/-- A change that leaves the core as it is leaves the state as it is. -/
theorem State.onCore_eq_self {s : State} {f : CoreState → CoreState} (h : f s.core = s.core) : s.onCore f = s := by
  unfold State.onCore; rw [h]

theorem CoreState.complete_complete (c : CoreState) (x : Except ErrorCode Result) :
    (c.complete x).complete x = c.complete x := by cases x <;> rfl

namespace Buffer

/-- A buffer in canonical form lists no index below its lower bound. -/
theorem le_of_read {low size k : Nat} {v : Word} {b : Buffer} (h : wfFrom low size b = true)
    (hread : b.read k = some v) : low ≤ k := by
  induction b generalizing low with
  | nil => cases hread
  | cons x b ih =>
    obtain ⟨j, u⟩ := x
    simp only [wfFrom, Bool.and_eq_true, decide_eq_true_eq] at h
    obtain ⟨⟨hlow, -⟩, hrest⟩ := h
    rw [read_cons] at hread
    split at hread
    · omega
    · have := ih hrest hread; omega

/-- Writing to an entry the value it has leaves a buffer in canonical form as it is. -/
theorem write_eq_self {low size k : Nat} {v : Word} {b : Buffer} (h : wfFrom low size b = true)
    (hread : b.read k = some v) : b.write k v = b := by
  induction b generalizing low with
  | nil => cases hread
  | cons x b ih =>
    obtain ⟨j, u⟩ := x
    simp only [wfFrom, Bool.and_eq_true, decide_eq_true_eq] at h
    obtain ⟨-, hrest⟩ := h
    rw [read_cons] at hread
    by_cases hk : k = j
    · rw [if_pos hk] at hread; cases hread; subst hk
      simp [Buffer.write]
    · rw [if_neg hk] at hread
      have hlow := le_of_read hrest hread
      rw [Buffer.write, if_neg (by omega), if_neg hk, ih hrest hread]

/-- Writing the text that the entries already hold leaves a buffer in canonical form as it is. -/
theorem writeText_eq_self {size k : Nat} {out : List Word} {b : Buffer} (h : b.wf size = true)
    (hread : ∀ j, j < out.length → b.read (k + j) = out[j]?) : b.writeText k out = b := by
  induction out generalizing k with
  | nil => rfl
  | cons v out ih =>
    have hhead : b.read k = some v := hread 0 (by simp)
    rw [Buffer.writeText, write_eq_self h hhead]
    refine ih fun j hj => ?_
    have htail := hread (j + 1) (by simpa using hj)
    rwa [show k + 1 + j = k + (j + 1) by omega]

/-- A text written twice leaves what it leaves written once, where that is in canonical form. -/
theorem writeText_writeText {size : Nat} {out : List Word} {b : Buffer} {k : Nat}
    (h : (b.writeText k out).wf size = true) : (b.writeText k out).writeText k out = b.writeText k out :=
  writeText_eq_self h fun j hj => by
    rw [read_writeText, if_pos (by omega), Nat.add_sub_cancel_left]

end Buffer

theorem CoreState.succeedText_succeedText {size : Nat} {c : CoreState} {out : List Word}
    (h : (c.succeedText out).tout.wf size = true) : (c.succeedText out).succeedText out = c.succeedText out := by
  have htout : (c.succeedText out).tout.writeText 0 out = (c.succeedText out).tout := Buffer.writeText_writeText h
  rw [CoreState.succeedText, htout]; rfl

section TextCommand

variable {run : CoreState → List Word → Except ErrorCode (List Word)} {s : State} {text out : List Word} {e : ErrorCode}

theorem textCommand_tooLong (hlen : s.cfg.textMax < s.core.inLen.toNat) :
    textCommand run s = .next (s.onCore fun c => c.raiseText .textTooLong) := by
  simp [textCommand, hlen]

theorem textCommand_ok (hlen : s.core.inLen.toNat ≤ s.cfg.textMax)
    (htext : s.core.tin.readText 0 s.core.inLen.toNat = some text) (hrun : run s.core text = .ok out) :
    textCommand run s = .next (s.onCore fun c => c.succeedText out) := by
  simp [textCommand, Nat.not_lt.mpr hlen, htext, State.onCore, hrun]

theorem textCommand_error (hlen : s.core.inLen.toNat ≤ s.cfg.textMax)
    (htext : s.core.tin.readText 0 s.core.inLen.toNat = some text) (hrun : run s.core text = .error e) :
    textCommand run s = .next (s.onCore fun c => c.raiseText e) := by
  simp [textCommand, Nat.not_lt.mpr hlen, htext, State.onCore, hrun]

end TextCommand

/-- A text command finds its input text and its inputs as they were, and writes the same text over the one in TOUT. -/
theorem textCommand_repeats {run : Config → CoreState → List Word → Except ErrorCode (List Word)} {s t : State}
    {size : Nat} (hwf : t.core.tout.wf size = true) (h : textCommand (fun c => run s.cfg c.inputs) s = .next t) :
    textCommand (fun c => run t.cfg c.inputs) t = .next t := by
  obtain ⟨hlen, hnext⟩ | ⟨hlen, ⟨-, hfault⟩ | ⟨text, htext, ⟨out, hrun, hnext⟩ | ⟨e, hrun, hnext⟩⟩⟩ :=
    textCommand_cases (fun c => run s.cfg c.inputs) s
  · rw [hnext] at h; cases h
    rw [textCommand_tooLong (by simpa using hlen), State.onCore_eq_self rfl]
  · rw [hfault] at h; cases h
  · rw [hnext] at h; cases h
    rw [textCommand_ok (by simpa using hlen) (by simpa using htext) (by simpa using hrun),
      State.onCore_eq_self (CoreState.succeedText_succeedText hwf)]
  · rw [hnext] at h; cases h
    rw [textCommand_error (by simpa using hlen) (by simpa using htext) (by simpa using hrun), State.onCore_eq_self rfl]

/-- SETP of the same operands sets the item to the value it has. -/
theorem setParam_repeats {cfg : Config} {c c' : CoreState} {pid : Pid} (h : setParam cfg c pid = .ok c') :
    setParam cfg (c'.succeed {}) pid = .ok (c'.succeed {}) := by
  cases pid with
  | rounds | blockSize | encoding | p | q | sbox1 | sbox2 | pad =>
    obtain ⟨a, hcheck, hset⟩ := bind_eq_ok.mp h
    cases hset
    exact bind_eq_ok.mpr ⟨a, hcheck, rfl⟩
  | keyLength | other n => cases h

/-- SETP's checks look at no outcome of an earlier command. -/
theorem setParam_raise {cfg : Config} {c : CoreState} {pid : Pid} {e : ErrorCode} (e' : ErrorCode)
    (h : setParam cfg c pid = .error e) : setParam cfg (c.raise e') pid = .error e := by
  cases pid with
  | rounds | blockSize | encoding | p | q | sbox1 | sbox2 | pad =>
    obtain hcheck | ⟨a, -, hset⟩ := bind_eq_error.mp h
    · exact bind_eq_error.mpr (.inl hcheck)
    · cases hset
  | keyLength | other n => exact h

theorem execSetp_repeats {pid : Pid} {s t : State} (h : execSetp pid s = .next t) : execSetp pid t = .next t := by
  obtain ⟨c, hc, hnext⟩ | ⟨e, he, hnext⟩ := execSetp_cases pid s
  · rw [hnext] at h; cases h
    simp only [execSetp, State.onCore, setParam_repeats hc]; rfl
  · rw [hnext] at h; cases h
    simp only [execSetp, State.onCore, setParam_raise e he]; rfl

/-- Settles O40: a command leaves its inputs as they are, and its outcome written over itself is that outcome. -/
theorem repeatedCommandWritesTheSame : Obligations.RepeatedCommandWritesTheSame := by
  intro i s t hs h
  obtain ⟨pid, rfl⟩ | ⟨f, hf⟩ | ⟨run, hrun⟩ | ⟨e, he⟩ := exec_from_inputs i
  · exact execSetp_repeats h
  · rw [hf] at h; cases h
    rw [hf, State.onCore_eq_self]
    simp [CoreState.complete_complete]
  · obtain ⟨hw, hcore⟩ := inv_iff.mp hs
    obtain ⟨-, heffect⟩ := exec_effect h
    obtain ⟨-, -, -, htout⟩ := commandEffect_coreInv hw heffect hcore
    rw [hrun] at h ⊢
    exact textCommand_repeats htout h
  · rw [he] at h; cases h
    rw [he, State.onCore_eq_self rfl]

/-! ### Reads -/

/-- A defined read of an entry without a value returns a free value and changes nothing of the core (93 U1, U2; log 5). -/
theorem step_read_free (s : State) {offset : Nat} (hl : s.bus.line = .released) (h4 : offset % 4 = 0)
    (hlt : offset < 0x30000) (h : regValue s.cfg s.core (regAt s.cfg offset) = none) :
    step { s with bus := { s.bus with pending := .read offset [true, true, true, true] :: s.bus.pending } } =
      .next { s with bus := { s.bus with
        reads := s.bus.reads ++ [Config.freeWord s.bus.free], free := s.bus.free + 1 } } := by
  rw [step_read s hl (offsetDefined_eq_true.mpr ⟨h4, hlt⟩)]
  unfold hostRead; rw [h]; rfl

/-- The word that CAP reads as is TEXT_MAX, which fits in 16 bits (20_memory R62; 00_scope R5). -/
theorem capWord_eq {cfg : Config} (hw : cfg.wf = true) :
    (BitVec.ofNat 16 cfg.textMax).setWidth 32 = BitVec.ofNat 32 cfg.textMax := by
  have htextMax := textMax_le hw
  rw [← BitVec.ofNat_toNat, BitVec.toNat_ofNat, Nat.mod_eq_of_lt (by omega)]

/-- Settles O41, by the register at each offset. -/
theorem readsReturnTheRegister : Obligations.ReadsReturnTheRegister := by
  intro s offset v hl hw h
  have htextMax := textMax_le hw
  obtain ⟨rfl, rfl⟩ | ⟨rfl, rfl⟩ | ⟨rfl, rfl⟩ | ⟨rfl, rfl⟩ | ⟨rfl, rfl⟩ | ⟨rfl, rfl⟩ | ⟨rfl, rfl⟩ | ⟨rfl, rfl⟩ |
    ⟨rfl, rfl⟩ | ⟨rfl, rfl⟩ | ⟨k, rfl, hk, hread⟩ | ⟨k, rfl, hk, hread⟩ | ⟨rfl, h4, hreserved⟩ := h
  · exact step_read_value s hl rfl (by decide) rfl
  · exact step_read_value s hl rfl (by decide) rfl
  · exact step_read_value s hl rfl (by decide) (congrArg some (BitVec.ofNat_toNat 32 s.core.rlen).symm)
  · exact step_read_value s hl rfl (by decide) rfl
  · exact step_read_value s hl rfl (by decide) rfl
  · exact step_read_value s hl rfl (by decide) rfl
  · exact step_read_value s hl rfl (by decide) rfl
  · exact step_read_value s hl rfl (by decide) (congrArg some (BitVec.ofNat_toNat 32 s.core.inLen).symm)
  · exact step_read_value s hl rfl (by decide) rfl
  · exact step_read_value s hl rfl (by decide) (congrArg some (capWord_eq hw))
  · exact step_read_value s hl (by omega) (by omega) (by rw [regAt_tin hw hk]; exact hread)
  · exact step_read_value s hl (by omega) (by omega) (by rw [regAt_tout hk]; exact hread)
  · exact step_read_value s hl h4 (by omega) (by rw [regAt_reserved h4 (by omega)]; rfl)

/-- Settles O43: the register there has no value, so the read draws a free one. -/
theorem unwrittenEntriesReadAsSomeValue : Obligations.UnwrittenEntriesReadAsSomeValue := by
  intro s k hl hw
  have htextMax := textMax_le hw
  refine ⟨fun hk hread => ⟨_, step_read_free s hl (by omega) (by omega) ?_⟩,
    fun hk hread => ⟨_, step_read_free s hl (by omega) (by omega) ?_⟩⟩
  · rw [regAt_tin hw hk]; exact hread
  · rw [regAt_tout hk]; exact hread

/-! ### Writes -/

/-- Settles O44, by the register at each offset. -/
theorem writesStoreTheValue : Obligations.WritesStoreTheValue := by
  intro s w k hl hw write
  have htextMax := textMax_le hw
  refine ⟨step_write s w hl rfl, step_write s w hl rfl, ?_, fun hk => ⟨s.core.tin.write k w, ?_, ?_, ?_⟩⟩
  · have hlow : bitString 16 w = BitVec.ofNat 16 (w.toNat % 65536) := by
      rw [bitString_eq]; exact BitVec.eq_of_toNat_eq (by simp)
    rw [← hlow]
    exact step_write s w hl rfl
  · have hreg := regAt_tin hw hk
    exact (step_write s w hl (offsetDefined_eq_true.mpr ⟨by omega, by omega⟩)).trans (by rw [hreg]; rfl)
  · exact Buffer.read_write_same ..
  · exact fun j hj => Buffer.read_write_other _ w hj

/-- The registers that ignore a write: the read-only ones and the reserved offsets (20_memory R64, R65). -/
def RegName.ignoresWrites : RegName → Bool
  | .id | .status | .rlen | .res0 | .res1 | .outLen | .cap | .tout _ | .reserved => true
  | .opa | .opb | .inLen | .tin _ | .cmd => false

theorem hostWrite_ignored {r : RegName} (w : Word) (s : State) (h : r.ignoresWrites = true) :
    hostWrite r w s = .next s := by
  cases r with
  | id | status | rlen | res0 | res1 | outLen | cap | tout k | reserved => rfl
  | opa | opb | inLen | tin k | cmd => cases h

/-- The read-only registers and the reserved offsets of the address map (20_memory R62, R64). -/
theorem regAt_ignoresWrites {cfg : Config} {offset : Nat} (h4 : offset % 4 = 0)
    (h : offset ∈ [0x000, 0x008, 0x00C, 0x018, 0x01C, 0x024, 0x028] ∨ (0x02C ≤ offset ∧ offset ≤ 0x0FFFF) ∨
      (0x10000 + 4 * cfg.textMax ≤ offset ∧ offset < 0x30000)) : (regAt cfg offset).ignoresWrites = true := by
  obtain h | h | h := h
  · simp only [List.mem_cons, List.not_mem_nil, or_false] at h
    obtain rfl | rfl | rfl | rfl | rfl | rfl | rfl := h <;> rfl
  · rw [regAt_reserved h4 (.inl (by omega))]; rfl
  · by_cases htout : 0x20000 ≤ offset ∧ offset ≤ 0x20000 + 4 * cfg.textMax
    · obtain ⟨k, rfl⟩ : ∃ k, offset = 0x20000 + 4 * k := ⟨(offset - 0x20000) / 4, by omega⟩
      rw [regAt_tout (by omega)]; rfl
    · rw [regAt_reserved h4 (by omega)]; rfl

/-- Settles O45: the register at such an offset ignores a write. -/
theorem otherWritesAreIgnored : Obligations.OtherWritesAreIgnored := by
  intro s w offset hl hw h4 h
  have htextMax := textMax_le hw
  have hlt : offset < 0x30000 := by
    obtain h | h | h := h
    · simp only [List.mem_cons, List.not_mem_nil, or_false] at h; omega
    · omega
    · omega
  rw [step_write s w hl (offsetDefined_eq_true.mpr ⟨h4, hlt⟩)]
  exact hostWrite_ignored w s (regAt_ignoresWrites h4 h)

/-! ### Stops -/

theorem runCommand_cases (w : Word) (s : State) :
    (∃ t, runCommand w s = .next t) ∨
    (runCommand w s = .fault .unwrittenText ∧ ∃ i, decode w = .ok i ∧ ReadsUnwrittenText i s) := by
  cases hw : decode w with
  | error r => exact .inl ⟨_, by simp only [runCommand, hw]; rfl⟩
  | ok i =>
    have hrun : runCommand w s = exec i s := by simp only [runCommand, hw]
    rw [hrun]
    obtain ⟨t, hnext, -⟩ | ⟨hfault, hreads⟩ := exec_cases i s
    · exact .inl ⟨t, hnext⟩
    · exact .inr ⟨hfault, i, rfl, hreads⟩

/-- Everything a defined write can answer: a next state, or the fault of a text command written to CMD. -/
theorem hostWrite_cases (r : RegName) (w : Word) (s : State) :
    (∃ t, hostWrite r w s = .next t) ∨
    (hostWrite r w s = .fault .unwrittenText ∧ r = .cmd ∧ ∃ i, decode w = .ok i ∧ ReadsUnwrittenText i s) := by
  cases r with
  | cmd =>
    obtain hnext | ⟨hfault, hreads⟩ := runCommand_cases w s
    · exact .inl hnext
    · exact .inr ⟨hfault, rfl, hreads⟩
  | opa | opb | inLen | tin k | id | status | rlen | res0 | res1 | outLen | cap | tout k | reserved =>
    exact .inl ⟨_, rfl⟩

theorem hostWrite_ne_refused (r : RegName) (w : Word) (s : State) (q : Refusal) : hostWrite r w s ≠ .refused q := by
  obtain ⟨t, h⟩ | ⟨h, -⟩ := hostWrite_cases r w s <;> rw [h] <;> nofun

section Access

variable (s : State) {offset : Nat} {enables : List Bool} {lanes : List (Option Byte)} {w : Word}

theorem accessReleased_read (h : readDefined offset enables = true) :
    accessReleased (.read offset enables) s = .next (hostRead (regAt s.cfg offset) s) := by
  simp [accessReleased, h]

theorem accessReleased_read_undefined (h : readDefined offset enables = false) :
    accessReleased (.read offset enables) s = .refused .undefinedAccess := by
  simp [accessReleased, h]

theorem accessReleased_write (ho : offsetDefined offset = true) (hw : writeWord lanes = some w) :
    accessReleased (.write offset lanes) s = hostWrite (regAt s.cfg offset) w s := by
  simp [accessReleased, ho, hw]

theorem accessReleased_write_undefined (h : offsetDefined offset = false ∨ writeWord lanes = none) :
    accessReleased (.write offset lanes) s = .refused .undefinedAccess := by
  obtain h | h := h <;> simp [accessReleased, h]

end Access

/-- A read is defined when it is aligned, in the window, 32 bits wide and whole (20_memory R63). -/
theorem readDefined_eq_true {offset : Nat} {enables : List Bool} :
    readDefined offset enables = true ↔
      offset % 4 = 0 ∧ offset < 0x30000 ∧ enables.length = 4 ∧ ∀ e ∈ enables, e = true := by
  have hwhole : enables = [true, true, true, true] ↔ enables.length = 4 ∧ ∀ e ∈ enables, e = true :=
    List.eq_replicate_iff (n := 4)
  rw [readDefined, Bool.and_eq_true, offsetDefined_eq_true, decide_eq_true_eq, hwhole, and_assoc]

theorem lanesOfWord_wordOfBytes (b0 b1 b2 b3 : Byte) :
    lanesOfWord (wordOfBytes b0 b1 b2 b3) = [some b0, some b1, some b2, some b3] := by
  have hword := wordOfBytes_toNat b0 b1 b2 b3
  have h0 := b0.isLt; have h1 := b1.isLt; have h2 := b2.isLt; have h3 := b3.isLt
  simp only [lanesOfWord, List.cons.injEq, Option.some.injEq, ← BitVec.toNat_inj, laneOfWord_toNat, hword]
  norm_num; omega

/-- A word is written by exactly the four lanes that carry its bytes (20_memory R68). -/
theorem writeWord_eq_some {lanes : List (Option Byte)} {w : Word} :
    writeWord lanes = some w ↔ lanes = lanesOfWord w := by
  constructor
  · intro h
    unfold writeWord at h
    split at h
    · cases h; exact (lanesOfWord_wordOfBytes ..).symm
    · cases h
  · rintro rfl; exact writeWord_lanesOfWord w

/-- A write carries a word exactly when it is 32 bits wide and whole (20_memory R63). -/
theorem exists_writeWord_eq_some {lanes : List (Option Byte)} :
    (∃ w, writeWord lanes = some w) ↔ lanes.length = 4 ∧ ∀ l ∈ lanes, l.isSome = true := by
  constructor
  · rintro ⟨w, h⟩
    rw [writeWord_eq_some.mp h]
    simp [lanesOfWord]
  · rintro ⟨hlen, hsome⟩
    match lanes, hlen with
    | [some b0, some b1, some b2, some b3], _ => exact ⟨_, rfl⟩
    | [none, _, _, _], _ | [_, none, _, _], _ | [_, _, none, _], _ | [_, _, _, none], _ => simp at hsome

/-- A write is outside the defined set by its offset or by its lanes. -/
theorem not_writeDefined {offset : Nat} {lanes : List (Option Byte)} :
    ¬(offsetDefined offset = true ∧ ∃ w, writeWord lanes = some w) ↔
      offsetDefined offset = false ∨ writeWord lanes = none := by
  cases offsetDefined offset <;> cases writeWord lanes <;> simp

/-- With reset released, the event at the head of the pending ones is an access or an edge of the reset input. -/
theorem step_released (s : State) (e : Event) (hl : s.bus.line = .released) :
    step { s with bus := { s.bus with pending := e :: s.bus.pending } } = accessReleased e s :=
  (step_event s e s.bus.pending).trans (performEvent_released (s := s) e hl)

/-- Settles O46: an access outside the defined set is refused, a defined read gives a next state, and a defined write is
a write to a register, which is never refused. -/
theorem undefinedAccessesAreRefused : Obligations.UndefinedAccessesAreRefused := by
  intro s offset enables lanes hl
  rw [step_released s _ hl, step_released s _ hl, ← readDefined_eq_true, ← exists_writeWord_eq_some, ← and_assoc,
    ← offsetDefined_eq_true]
  constructor
  · cases hdefined : readDefined offset enables with
    | true => rw [accessReleased_read s hdefined]; simp
    | false => rw [accessReleased_read_undefined s hdefined]; simp
  · by_cases hdefined : offsetDefined offset = true ∧ ∃ w, writeWord lanes = some w
    · obtain ⟨ho, w, hw⟩ := id hdefined
      rw [accessReleased_write s ho hw]
      exact iff_of_false (hostWrite_ne_refused _ w s _) (not_not.mpr hdefined)
    · exact iff_of_true (accessReleased_write_undefined s (not_writeDefined.mp hdefined)) hdefined

/-- CMD stands at one offset of the address map (20_memory R62). -/
theorem offset_of_regAt_cmd {cfg : Config} {offset : Nat} (h : regAt cfg offset = .cmd) : offset = 0x004 := by
  unfold regAt at h
  obtain ⟨-, h⟩ | ⟨-, h⟩ := ite_eq_iff.mp h
  · cases h
  obtain ⟨hcmd, -⟩ | ⟨-, h⟩ := ite_eq_iff.mp h
  · exact hcmd
  -- The map's other registers are not CMD.
  iterate 10 (obtain ⟨-, h⟩ | ⟨-, h⟩ := ite_eq_iff.mp h; · cases h)
  obtain ⟨-, h⟩ | ⟨-, h⟩ := ite_eq_iff.mp h <;> obtain ⟨-, h⟩ | ⟨-, h⟩ := ite_eq_iff.mp h <;> cases h

/-- The accesses outside the defined set (20_memory R63). -/
def Event.Undefined (e : Event) : Prop :=
  (∃ o en, e = .read o en ∧ readDefined o en = false) ∨
  (∃ o ls, e = .write o ls ∧ (offsetDefined o = false ∨ writeWord ls = none))

/-- Everything an event can answer while reset is released: a next state, the refusal of an undefined access, or the fault
of a text command written to CMD. -/
theorem accessReleased_cases (e : Event) (s : State) :
    (∃ t, accessReleased e s = .next t) ∨
    (accessReleased e s = .refused .undefinedAccess ∧ e.Undefined) ∨
    (accessReleased e s = .fault .unwrittenText ∧
      ∃ w i, e = .write 0x004 (lanesOfWord w) ∧ decode w = .ok i ∧ ReadsUnwrittenText i s) := by
  cases e with
  | assertReset | releaseReset | cutCommand w => exact .inl ⟨_, rfl⟩
  | read offset enables =>
    cases hdefined : readDefined offset enables with
    | true => exact .inl ⟨_, accessReleased_read s hdefined⟩
    | false => exact .inr (.inl ⟨accessReleased_read_undefined s hdefined, .inl ⟨_, _, rfl, hdefined⟩⟩)
  | write offset lanes =>
    by_cases hdefined : offsetDefined offset = true ∧ ∃ w, writeWord lanes = some w
    · obtain ⟨ho, w, hw⟩ := hdefined
      rw [accessReleased_write s ho hw]
      obtain hnext | ⟨hfault, hcmd, i, hdecode, hreads⟩ := hostWrite_cases (regAt s.cfg offset) w s
      · exact .inl hnext
      · obtain rfl := offset_of_regAt_cmd hcmd
        obtain rfl := writeWord_eq_some.mp hw
        exact .inr (.inr ⟨hfault, w, i, rfl, hdecode, hreads⟩)
    · have hundefined := not_writeDefined.mp hdefined
      exact .inr (.inl ⟨accessReleased_write_undefined s hundefined, .inr ⟨_, _, rfl, hundefined⟩⟩)

theorem not_textWritten_of_reads {i : Instr} {s : State} (h : ReadsUnwrittenText i s) : ¬TextWritten s.core := by
  obtain ⟨-, -, k, hk, hnone⟩ := h
  intro hwritten
  have := hwritten k hk
  rw [hnone] at this
  cases this

/-- Settles O53: with nothing pending the core waits, and else the step answers what its event does. -/
theorem stopsAreOnlyTheNamedOnes : Obligations.StopsAreOnlyTheNamedOnes := by
  intro s hl
  cases hp : s.bus.pending with
  | nil => exact .inl ⟨s, step_nil hp⟩
  | cons e rest =>
    have hstep : step s = accessReleased e { s with bus := { s.bus with pending := rest } } := by
      simp only [step, nextEvent, hp]
      exact performEvent_released e hl
    rw [StepSafe, hstep]
    obtain hnext | ⟨hrefused, hundefined⟩ | ⟨hfault, w, i, rfl, hdecode, hreads⟩ :=
      accessReleased_cases e { s with bus := { s.bus with pending := rest } }
    · exact .inl hnext
    · exact .inr (.inl ⟨hrefused, e, rfl, hundefined⟩)
    · have hunwritten := not_textWritten_of_reads hreads
      obtain ⟨hmem, hlen, -⟩ := hreads
      exact .inr (.inr ⟨hfault, hunwritten, hlen, w, i, rfl, hdecode, hmem⟩)

end Sys2Proof.Machine
end

section
/-! PROOFS. 30_encoding: the command words that an opcode stands for (`Opcode.IsWordOf`), what the decoder makes of them, the
illegal words, and the pseudo-instruction `ldsbox`. -/

namespace Sys2Proof

open Laws.EncodedFields (opcode)

/-! ### The words of an opcode -/

/-- The word has the opcode's OP, a zero RSV field, and a zero in each field that the opcode does not use (30_encoding R91 to
R93). -/
structure Opcode.IsWordOf (op : Opcode) (w : Word) : Prop where
  op_eq : opField w = op.byte
  rsv_eq : rsvField w = 0#4
  sub_eq : op.usesSub = false → subField w = 0#4
  arg_eq : op.usesArg = false → argField w = 0#16

theorem Opcode.IsWordOf.decode_eq {op : Opcode} {w : Word} (h : op.IsWordOf w) :
    decode w = assemble op (subField w) (argField w) := by
  obtain ⟨hop, hrsv, hsub, harg⟩ := h
  have hsub' : ¬(subField w ≠ 0#4 ∧ op.usesSub = false) := fun ⟨hne, hunused⟩ => hne (hsub hunused)
  have harg' : ¬(argField w ≠ 0#16 ∧ op.usesArg = false) := fun ⟨hne, hunused⟩ => hne (harg hunused)
  simp only [decode, hop, Opcode.ofByte_byte, hrsv, ne_eq, not_true_eq_false, if_false]
  rw [if_neg hsub', if_neg harg']

/-- The checks of the decoder are those of `Opcode.IsWordOf` (30_encoding R91). -/
theorem isWordOf_of_decode_eq_ok {w : Word} {i : Instr} (h : decode w = .ok i) :
    ∃ op : Opcode, op.IsWordOf w ∧ assemble op (subField w) (argField w) = .ok i := by
  cases hop : Opcode.ofByte (opField w) with
  | none => simp only [decode, hop] at h; cases h
  | some op =>
    simp only [decode, hop] at h
    split_ifs at h with hrsv hsub harg
    refine ⟨op, ⟨(Opcode.byte_of_ofByte hop).symm, not_not.mp hrsv, fun hunused => ?_, fun hunused => ?_⟩, h⟩
    · exact not_not.mp fun hne => hsub ⟨hne, hunused⟩
    · exact not_not.mp fun hne => harg ⟨hne, hunused⟩

/-! ### Decoding inverts encoding -/

/-- The word of a command is one of its opcode's words, by the law of each constructor. -/
theorem isWordOf_encode (i : Instr) : (opcode i).IsWordOf (encode i) := by
  have fields : Laws.EncodedFields.Statement i := by
    cases i with
    | setp pid => exact Laws.EncodedFields.setp pid
    | getp pid => exact Laws.EncodedFields.getp pid
    | expand len => exact Laws.EncodedFields.expand len
    | xor len => exact Laws.EncodedFields.xor len
    | subst sel => exact Laws.EncodedFields.subst sel
    | ffunc => exact Laws.EncodedFields.ffunc
    | round => exact Laws.EncodedFields.round
    | bbs bits => exact Laws.EncodedFields.bbs bits
    | keystream => exact Laws.EncodedFields.keystream
    | subkey idx => exact Laws.EncodedFields.subkey idx
    | encblk => exact Laws.EncodedFields.encblk
    | decblk => exact Laws.EncodedFields.decblk
    | ivgen => exact Laws.EncodedFields.ivgen
    | encrypt mode => exact Laws.EncodedFields.encrypt mode
    | decrypt mode => exact Laws.EncodedFields.decrypt mode
  obtain ⟨hop, hrsv, hsub, harg⟩ := fields
  exact ⟨hop, hrsv, hsub, harg⟩

/-- The fields of a well-formed command's word stand for that command (30_encoding R94 to R98). -/
theorem assemble_encode {i : Instr} (h : i.wellFormed = true) :
    assemble (opcode i) (subField (encode i)) (argField (encode i)) = .ok i := by
  cases i with
  | setp pid | getp pid => simp [encode, opcode, assemble, Pid.ofField_toField h]
  | encrypt mode | decrypt mode => simp [encode, opcode, assemble, Mode.ofField_toField h]
  | subst sel => simp [encode, opcode, assemble]
  | expand len | xor len | bbs len | subkey len => simp [encode, opcode, assemble]
  | ffunc | round | keystream | encblk | decblk | ivgen => rfl

/-- Settles O1: the word of a command passes the decoder's checks, and its fields stand for the command. -/
theorem decodeInvertsEncode : Obligations.DecodeInvertsEncode := fun i h =>
  (isWordOf_encode i).decode_eq.trans (assemble_encode h)

/-! ### Encoding inverts decoding -/

/-- What an opcode and its fields stand for is a well-formed command, and its word has the same opcode and the same fields
(30_encoding R94 to R99). -/
theorem encode_of_assemble_eq_ok {op : Opcode} {sub : BitVec 4} {arg : Half} {i : Instr}
    (hsub : op.usesSub = false → sub = 0#4) (harg : op.usesArg = false → arg = 0#16) (h : assemble op sub arg = .ok i) :
    i.wellFormed = true ∧ encode i = commandWord op sub arg := by
  cases op with
  | setp | getp =>
    cases h; obtain rfl := harg rfl
    exact ⟨Pid.wellFormed_ofField sub, by simp only [encode, Pid.toField_ofField]⟩
  | encrypt | decrypt =>
    cases h; obtain rfl := harg rfl
    exact ⟨Mode.wellFormed_ofField sub, by simp only [encode, Mode.toField_ofField]⟩
  | subst =>
    obtain rfl := harg rfl
    cases hsel : Sel.ofField? sub with
    | none => simp only [assemble, hsel] at h; cases h
    | some sel =>
      simp only [assemble, hsel] at h; cases h
      exact ⟨rfl, by simp only [encode, Sel.toField_ofField? hsel]⟩
  | expand | xor | bbs | subkey =>
    cases h; obtain rfl := hsub rfl
    exact ⟨rfl, rfl⟩
  | ffunc | round | keystream | encblk | decblk | ivgen =>
    cases h; obtain rfl := hsub rfl; obtain rfl := harg rfl
    exact ⟨rfl, rfl⟩

/-- Settles O2: the command's word has the fields of the word that was decoded. -/
theorem encodeInvertsDecode : Obligations.EncodeInvertsDecode := by
  intro w i h
  obtain ⟨op, hword, hassemble⟩ := isWordOf_of_decode_eq_ok h
  obtain ⟨hwf, hencode⟩ := encode_of_assemble_eq_ok hword.sub_eq hword.arg_eq hassemble
  exact ⟨hwf, hencode.trans (commandWord_fields hword.op_eq hword.rsv_eq)⟩

/-- Settles O3, by running the decoder on each word. -/
theorem writtenOutWordsDecode : Obligations.WrittenOutWordsDecode := by
  unfold Obligations.WrittenOutWordsDecode; decide

/-! ### Illegal words -/

/-- The opcode map's OP column (30_encoding R99, R100). -/
theorem mem_opcodes_iff (b : BitVec 8) :
    b.toNat ∈ [0x01, 0x02, 0x10, 0x11, 0x12, 0x13, 0x14, 0x20, 0x21, 0x22, 0x30, 0x31, 0x40, 0x41, 0x42] ↔
      ∃ op : Opcode, b = op.byte := by
  refine Iff.trans (b := (Opcode.ofByte b).isSome = true) (by revert b; decide) ?_
  rw [Option.isSome_iff_exists]
  constructor
  · rintro ⟨op, hop⟩
    exact ⟨op, (Opcode.byte_of_ofByte hop).symm⟩
  · rintro ⟨op, rfl⟩
    exact ⟨op, Opcode.ofByte_byte op⟩

/-- The opcodes with a SUB field, by their bytes (30_encoding R99). -/
theorem Opcode.byte_mem_usesSub (op : Opcode) :
    op.byte.toNat ∈ [0x01, 0x02, 0x12, 0x41, 0x42] ↔ op.usesSub = true := by cases op <;> decide

/-- The opcodes with an ARG field, by their bytes (30_encoding R99). -/
theorem Opcode.byte_mem_usesArg (op : Opcode) :
    op.byte.toNat ∈ [0x10, 0x11, 0x20, 0x22] ↔ op.usesArg = true := by cases op <;> decide

theorem Opcode.byte_eq_subst (op : Opcode) : op.byte.toNat = 0x12 ↔ op = .subst := by cases op <;> decide

/-- The illegal words, by the word's bits (30_encoding R91 to R93, R98): OP is not one of the fifteen, RSV is not 0, a field
that the opcode does not use is not 0, or SUBST has SEL 2 to 15. -/
def IllegalWord (w : Word) : Prop :=
  w.toNat % 256 ∉ [0x01, 0x02, 0x10, 0x11, 0x12, 0x13, 0x14, 0x20, 0x21, 0x22, 0x30, 0x31, 0x40, 0x41, 0x42] ∨
  w.toNat / 4096 % 16 ≠ 0 ∨
  (w.toNat / 256 % 16 ≠ 0 ∧ w.toNat % 256 ∉ [0x01, 0x02, 0x12, 0x41, 0x42]) ∨
  (w.toNat / 65536 ≠ 0 ∧ w.toNat % 256 ∉ [0x10, 0x11, 0x20, 0x22]) ∨
  (w.toNat % 256 = 0x12 ∧ 2 ≤ w.toNat / 256 % 16)

theorem toNat_eq_zero_iff {n : Nat} (v : BitVec n) : v.toNat = 0 ↔ v = 0#n := by
  rw [← BitVec.toNat_inj, BitVec.toNat_ofNat, Nat.zero_mod]

/-- The legal words are the words of the opcodes, SUBST with a SEL that selects a table. -/
theorem not_illegalWord_iff (w : Word) :
    ¬IllegalWord w ↔ ∃ op : Opcode, op.IsWordOf w ∧ (op = .subst → (subField w).toNat < 2) := by
  rw [IllegalWord, ← opField_toNat, ← subField_toNat, ← rsvField_toNat, ← argField_toNat]
  simp only [not_or, not_not, not_and, not_le, mem_opcodes_iff, ne_eq, toNat_eq_zero_iff]
  constructor
  · rintro ⟨⟨op, hop⟩, hrsv, hsub, harg, hsel⟩
    rw [hop, Opcode.byte_mem_usesSub] at hsub
    rw [hop, Opcode.byte_mem_usesArg] at harg
    rw [hop, Opcode.byte_eq_subst] at hsel
    refine ⟨op, ⟨hop, hrsv, fun hunused => ?_, fun hunused => ?_⟩, hsel⟩
    · exact not_not.mp fun hne => Bool.eq_false_iff.mp hunused (hsub hne)
    · exact not_not.mp fun hne => Bool.eq_false_iff.mp hunused (harg hne)
  · rintro ⟨op, ⟨hop, hrsv, hsub, harg⟩, hsel⟩
    rw [hop, Opcode.byte_mem_usesSub, Opcode.byte_mem_usesArg, Opcode.byte_eq_subst]
    refine ⟨⟨op, rfl⟩, hrsv, fun hne => ?_, fun hne => ?_, hsel⟩
    · exact Bool.eq_true_of_not_eq_false fun hunused => hne (hsub hunused)
    · exact Bool.eq_true_of_not_eq_false fun hunused => hne (harg hunused)

/-- SEL 0 and 1 select a table (30_encoding R98). -/
theorem Sel.exists_ofField?_eq_some (n : BitVec 4) : (∃ sel, Sel.ofField? n = some sel) ↔ n.toNat < 2 := by
  rw [← Option.isSome_iff_exists]; revert n; decide

/-- An opcode and its fields stand for a command, but for SUBST with a SEL that selects nothing (30_encoding R98). -/
theorem exists_assemble_eq_ok_iff (op : Opcode) (sub : BitVec 4) (arg : Half) :
    (∃ i, assemble op sub arg = .ok i) ↔ (op = .subst → sub.toNat < 2) := by
  cases op with
  | subst =>
    rw [← Sel.exists_ofField?_eq_some]
    cases hsel : Sel.ofField? sub <;> simp [assemble, hsel]
  | _ => exact iff_of_true ⟨_, rfl⟩ nofun

/-- The words that decode are the legal words (30_encoding R91). -/
theorem exists_decode_eq_ok_iff (w : Word) : (∃ i, decode w = .ok i) ↔ ¬IllegalWord w := by
  rw [not_illegalWord_iff]
  constructor
  · rintro ⟨i, h⟩
    obtain ⟨op, hword, hassemble⟩ := isWordOf_of_decode_eq_ok h
    exact ⟨op, hword, (exists_assemble_eq_ok_iff ..).mp ⟨i, hassemble⟩⟩
  · rintro ⟨op, hword, hsel⟩
    rw [hword.decode_eq]
    exact (exists_assemble_eq_ok_iff ..).mpr hsel

end Sys2Proof

namespace Sys2Proof.Machine

theorem runCommand_ok {w : Word} {i : Instr} (s : State) (h : decode w = .ok i) : runCommand w s = exec i s := by
  simp only [runCommand, h]

theorem runCommand_error {w : Word} {r : Reject} (s : State) (h : decode w = .error r) :
    runCommand w s = .next (s.onCore fun c => c.raise .badCommand) := by
  simp only [runCommand, h]

/-- Settles O5: the step runs the written word, and the word decodes unless it is illegal. -/
theorem illegalWordsReportBadCommand : Obligations.IllegalWordsReportBadCommand := by
  intro s w hl op sub rsv arg illegal write
  have hwrite : write = runCommand w s := step_write s w hl rfl
  have hdecode : (∃ i, decode w = .ok i) ↔ ¬illegal := exists_decode_eq_ok_iff w
  cases hw : decode w with
  | error r =>
    have hillegal : illegal := not_not.mp fun hlegal => by
      obtain ⟨i, hi⟩ := hdecode.mpr hlegal
      rw [hw] at hi; cases hi
    exact ⟨fun _ => hwrite.trans (runCommand_error s hw), fun hlegal => absurd hillegal hlegal⟩
  | ok i =>
    obtain ⟨hwf, hencode⟩ := encodeInvertsDecode w i hw
    exact ⟨fun hillegal => absurd hillegal (hdecode.mp ⟨i, hw⟩),
      fun _ => ⟨i, hwf, hencode, hwrite.trans (runCommand_ok s hw)⟩⟩

/-! ### `ldsbox` -/

/-- A packed row has no bit above its 24 bits, so SETP takes it as it is (40_config R128). -/
theorem rowOf_setWidth (row : PackedRow) : rowOf (row.setWidth 32) = .ok row := by
  have hrow := row.isLt
  have hwidth : (row.setWidth 32).toNat = row.toNat := by
    rw [BitVec.toNat_setWidth]; omega
  have hfits : fits 24 (row.setWidth 32) = true := fits_eq_true.mpr (by rwa [hwidth])
  have hbits : bitString 24 (row.setWidth 32) = row :=
    BitVec.eq_of_toNat_eq ((bitString_toNat_of_fits hfits).trans hwidth)
  simp [rowOf, hfits, hbits]

/-- The two packed rows of a table are the operands that stand for it (40_config R128, R129). -/
theorem tableOperand_packRow {c : CoreState} {t : Table} (ha : c.opa = (packRow t.row0).setWidth 32)
    (hb : c.opb = (packRow t.row1).setWidth 32) : tableOperand c = .ok (.loaded t) := by
  simp [tableOperand, ha, hb, rowOf_setWidth, unpackTable]

/-- The core with a table loaded, the one that SEL selects (10_state R36; 30_encoding R98). -/
def CoreState.loadTable (c : CoreState) (t : Table) : Sel → CoreState
  | .s1 => { c with sbox1 := .loaded t }
  | .s2 => { c with sbox2 := .loaded t }

theorem setParam_tablePid {cfg : Config} {c : CoreState} {t : Table} (sel : Sel)
    (h : tableOperand c = .ok (.loaded t)) : setParam cfg c (Sel.tablePid sel) = .ok (c.loadTable t sel) := by
  cases sel <;> simp [Sel.tablePid, setParam, h, CoreState.loadTable]

/-- The SETP of `ldsbox` loads the table whose rows are its operands (40_config R128). -/
theorem exec_setp_tablePid {s : State} {t : Table} (sel : Sel) (h : tableOperand s.core = .ok (.loaded t)) :
    exec (.setp (Sel.tablePid sel)) s = .next (s.onCore fun c => (c.loadTable t sel).succeed {}) := by
  obtain ⟨c, hc, hnext⟩ | ⟨e, he, -⟩ := execSetp_cases (Sel.tablePid sel) s
  · rw [setParam_tablePid sel h] at hc; cases hc
    exact hnext
  · rw [setParam_tablePid sel h] at he; cases he

/-- A run takes its first step and goes on from there. -/
theorem run_succ {s t : State} (k : Nat) (h : step s = .next t) :
    Host.Core.run Sys2Proof.core (k + 1) s = Host.Core.run Sys2Proof.core k t := by
  have hcore : Sys2Proof.core.step s = .next t := h
  simp only [Host.Core.run, hcore]

@[simp] theorem State.issue_nil (s : State) : s.issue [] = s := by simp [State.issue]

/-- With nothing else pending, an issued write of a word is performed first, and the events issued after it stay. -/
theorem step_issue_write {s : State} {r : RegName} (w : Word) (es : List Event) (hl : s.bus.line = .released)
    (hp : s.bus.pending = []) (ho : offsetDefined r.offset = true) :
    step (s.issue (writeEvent r w :: es)) = hostWrite (regAt s.cfg r.offset) w (s.issue es) := by
  have hissue : s.issue (writeEvent r w :: es) = { s.issue es with
      bus := { (s.issue es).bus with pending := writeEvent r w :: (s.issue es).bus.pending } } := by
    simp [State.issue, hp]
  rw [hissue]
  exact step_write (s.issue es) w hl ho

/-- An issued write of a well-formed command's word to CMD runs the command (10_state R23; 30_encoding R104). -/
theorem step_issue_command {s : State} {i : Instr} (es : List Event) (hl : s.bus.line = .released)
    (hp : s.bus.pending = []) (hi : i.wellFormed = true) :
    step (s.issue (writeEvent .cmd (encode i) :: es)) = exec i (s.issue es) :=
  (step_issue_write (encode i) es hl hp rfl).trans (runCommand_ok _ (decodeInvertsEncode i hi))

/-- The state with the packed rows of a table in OPA and OPB (40_config R128, R129). -/
def State.withTableOperands (s : State) (t : Table) : State :=
  s.onCore fun c => { c with opa := (packRow t.row0).setWidth 32, opb := (packRow t.row1).setWidth 32 }

theorem tablePid_wellFormed (sel : Sel) : (Instr.setp (Sel.tablePid sel)).wellFormed = true := by cases sel <;> rfl

/-- The three accesses of `ldsbox`: the two rows go to OPA and OPB, and then SETP loads the table (30_encoding R103). -/
theorem run_ldsbox {s : State} (sel : Sel) (t : Table) (hl : s.bus.line = .released) (hp : s.bus.pending = []) :
    Host.Core.run Sys2Proof.core 3 (s.issue (Line.ldsbox sel t).events) =
      .next ((s.withTableOperands t).onCore fun c => (c.loadTable t sel).succeed {}) := by
  have hsetp : exec (.setp (Sel.tablePid sel)) ((s.withTableOperands t).issue []) =
      .next ((s.withTableOperands t).onCore fun c => (c.loadTable t sel).succeed {}) := by
    rw [State.issue_nil]
    exact exec_setp_tablePid sel (tableOperand_packRow rfl rfl)
  calc Host.Core.run Sys2Proof.core 3 (s.issue (Line.ldsbox sel t).events)
    _ = Host.Core.run Sys2Proof.core 2 ((s.onCore fun c => { c with opa := (packRow t.row0).setWidth 32 }).issue
          [writeEvent .opb ((packRow t.row1).setWidth 32), writeEvent .cmd (encode (.setp (Sel.tablePid sel)))]) :=
        run_succ 2 (step_issue_write _ _ hl hp rfl)
    _ = Host.Core.run Sys2Proof.core 1
          ((s.withTableOperands t).issue [writeEvent .cmd (encode (.setp (Sel.tablePid sel)))]) :=
        run_succ 1 (step_issue_write (s := s.onCore _) _ _ hl hp rfl)
    _ = .next ((s.withTableOperands t).onCore fun c => (c.loadTable t sel).succeed {}) :=
        run_succ 0 ((step_issue_command (s := s.withTableOperands t) [] hl hp (tablePid_wellFormed sel)).trans hsetp)

/-- Settles O54, by the state that the three accesses lead to. -/
theorem ldsboxLoadsTheTable : Obligations.LdsboxLoadsTheTable := by
  intro s sel t hl hp
  exact ⟨_, run_ldsbox sel t hl hp, hp, rfl, by cases sel <;> rfl, by cases sel <;> rfl⟩

end Sys2Proof.Machine
end

section
/-! PROOFS. 40_config: the primality test behind validPQ, the checks of SETP, what GETP returns, and a table set by SETP
and read back by GETP. `setp_checked` says once what a SETP with one check does. -/

namespace Sys2Proof.Machine

open Sys2Proof.Statement

/-! ### Valid values of P and Q -/

/-- The trial division stops at the first divisor whose square is above n, since no later one has a smaller square
(41_arith R150). -/
theorem noDivisorFrom_iff (n fuel d : Nat) :
    noDivisorFrom n fuel d = true ↔ ∀ k, d ≤ k → k < d + fuel → k * k ≤ n → ¬k ∣ n := by
  induction fuel generalizing d with
  | zero => simp only [noDivisorFrom, true_iff]; intro k hlow hhigh; omega
  | succ fuel ih =>
    unfold noDivisorFrom
    split
    next hstop =>
      have hbeyond : ∀ k, d ≤ k → ¬k * k ≤ n := fun k hk hsq => by have := Nat.mul_le_mul hk hk; omega
      exact iff_of_true rfl fun k hk _ hsq => absurd hsq (hbeyond k hk)
    next hgo =>
      split
      next hdvd =>
        refine iff_of_false Bool.false_ne_true fun h => ?_
        exact h d le_rfl (by omega) (by omega) (Nat.dvd_of_mod_eq_zero hdvd)
      next hndvd =>
        rw [ih]
        constructor
        · intro h k hlow hhigh hsq
          obtain rfl | hlt := hlow.eq_or_lt
          · exact fun hd => hndvd (Nat.mod_eq_zero_of_dvd hd)
          · exact h k hlt (by omega) hsq
        · exact fun h k hlow hhigh => h k (by omega) (by omega)

/-- The trial division finds the primes (41_arith R150). -/
theorem isPrime_iff_prime (n : Nat) : isPrime n = true ↔ Nat.Prime n := by
  simp only [isPrime, Bool.and_eq_true, decide_eq_true_eq, noDivisorFrom_iff, Nat.prime_def_le_sqrt, Nat.le_sqrt]
  refine and_congr_right fun _ => forall_congr' fun k => forall_congr' fun hk => ⟨fun h hsq => ?_, fun h _ hsq => h hsq⟩
  have hle : k ≤ n := (Nat.le_mul_self k).trans hsq
  exact h (by omega) hsq

/-- 40_config R127. -/
theorem validPQ_iff (v : Nat) : validPQ v = true ↔ v ≤ 65535 ∧ Nat.Prime v ∧ v % 4 = 3 := by
  simp only [validPQ, primeThreeModFour, Bool.and_eq_true, decide_eq_true_eq, isPrime_iff_prime]

theorem validPQ_eq_false_iff (v : Nat) : validPQ v = false ↔ ¬(v ≤ 65535 ∧ Nat.Prime v ∧ v % 4 = 3) := by
  rw [← validPQ_iff, Bool.not_eq_true]

/-! ### The outcome of SETP -/

theorem setsTo_of_setParam {pid : Pid} {s : State} {c : CoreState} (h : setParam s.cfg s.core pid = .ok c) :
    SetsTo pid s c := by
  obtain ⟨c', hc, hnext⟩ | ⟨e, he, -⟩ := execSetp_cases pid s
  · rw [h] at hc; cases hc
    exact hnext
  · rw [h] at he; cases he

theorem failsWith_of_setParam {pid : Pid} {s : State} {e : ErrorCode} (h : setParam s.cfg s.core pid = .error e) :
    FailsWith (.setp pid) s e := by
  obtain ⟨c, hc, -⟩ | ⟨e', he, hnext⟩ := execSetp_cases pid s
  · rw [h] at hc; cases hc
  · rw [h] at he; cases he
    exact hnext

/-- A SETP with one check sets its item when the value passes, and is INVALID_VALUE when it does not (40_config R122). -/
theorem setp_checked {pid : Pid} {s : State} {ok : Bool} {c : CoreState}
    (h : setParam s.cfg s.core pid = (do require ok .invalidValue; return c)) :
    (ok = true → SetsTo pid s c) ∧ (ok = false → FailsWith (.setp pid) s .invalidValue) := by
  constructor
  · rintro rfl; exact setsTo_of_setParam h
  · rintro rfl; exact failsWith_of_setParam h

/-! ### The table operands -/

theorem rowOf_of_lt {v : Word} (h : v.toNat < 2 ^ 24) : rowOf v = .ok (bitString 24 v) := by
  simp [rowOf, fits_eq_true.mpr h]

theorem rowOf_of_le {v : Word} (h : 2 ^ 24 ≤ v.toNat) : rowOf v = .error .invalidValue := by
  simp [rowOf, fits_eq_false.mpr h]

/-- The table that OPA and OPB stand for (40_config R128, R129). -/
def CoreState.operandTable (c : CoreState) : Table := unpackTable (bitString 24 c.opa) (bitString 24 c.opb)

theorem tableOperand_of_lt {c : CoreState} (ha : c.opa.toNat < 2 ^ 24) (hb : c.opb.toNat < 2 ^ 24) :
    tableOperand c = .ok (.loaded c.operandTable) := by
  simp [tableOperand, rowOf_of_lt ha, rowOf_of_lt hb, CoreState.operandTable]

theorem tableOperand_of_le {c : CoreState} (h : 2 ^ 24 ≤ c.opa.toNat ∨ 2 ^ 24 ≤ c.opb.toNat) :
    tableOperand c = .error .invalidValue := by
  by_cases ha : 2 ^ 24 ≤ c.opa.toNat
  · simp [tableOperand, rowOf_of_le ha]
  · simp [tableOperand, rowOf_of_lt (Nat.lt_of_not_le ha), rowOf_of_le (h.resolve_left ha)]

theorem setParam_tablePid_error {cfg : Config} {c : CoreState} {e : ErrorCode} (sel : Sel)
    (h : tableOperand c = .error e) : setParam cfg c (Sel.tablePid sel) = .error e := by
  cases sel <;> simp [Sel.tablePid, setParam, h]

/-- A SETP of a table sets it to the rows in OPA and OPB when neither has a bit above its 24 (40_config R128). -/
theorem setp_tablePid_setsTo {s : State} (sel : Sel) (ha : s.core.opa.toNat < 2 ^ 24) (hb : s.core.opb.toNat < 2 ^ 24) :
    SetsTo (Sel.tablePid sel) s (s.core.loadTable s.core.operandTable sel) :=
  setsTo_of_setParam (setParam_tablePid sel (tableOperand_of_lt ha hb))

theorem setp_tablePid_failsWith {s : State} (sel : Sel) (h : 2 ^ 24 ≤ s.core.opa.toNat ∨ 2 ^ 24 ≤ s.core.opb.toNat) :
    FailsWith (.setp (Sel.tablePid sel)) s .invalidValue :=
  failsWith_of_setParam (setParam_tablePid_error sel (tableOperand_of_le h))

/-- An entry of an unpacked row register is its group of three bits in the register (40_config R129). -/
theorem unpackRow_bitString_toNat {v : Word} (h : v.toNat < 2 ^ 24) (col : Fin 8) :
    (unpackRow (bitString 24 v))[col].toNat = v.toNat / 2 ^ (3 * col.val) % 8 := by
  rw [unpackRow_toNat, bitString_toNat_of_fits (fits_eq_true.mpr h)]

/-- Settles O6: each PID has its one check, and the value that passes it is the item's next value. -/
theorem setpWritesTheNamedItem : Obligations.SetpWritesTheNamedItem := by
  intro s
  rw [← bitString_eq]
  refine ⟨fun hlow hhigh => ?_, fun h => ?_, fun h => ?_, fun hle hprime hmod => ?_, fun h => ?_, fun ha hb => ?_⟩
  · exact (setp_checked rfl).1 (decide_eq_true ⟨hlow, hhigh⟩)
  · exact (setp_checked rfl).1 (decide_eq_true (congrArg BitVec.toNat h))
  · exact (setp_checked rfl).1 (decide_eq_true (congrArg BitVec.toNat h))
  · have hvalid := (validPQ_iff _).mpr ⟨hle, hprime, hmod⟩
    exact ⟨(setp_checked rfl).1 hvalid, (setp_checked rfl).1 hvalid⟩
  · exact (setp_checked rfl).1 (decide_eq_true h)
  · exact ⟨s.core.operandTable, setp_tablePid_setsTo .s1 ha hb, setp_tablePid_setsTo .s2 ha hb,
      fun col => ⟨unpackRow_bitString_toNat ha col, unpackRow_bitString_toNat hb col⟩⟩

/-- Settles O7: KEY_LENGTH is read-only, PIDs 9 to 15 name nothing, and each other PID has its one check. -/
theorem setpRefusesOtherValues : Obligations.SetpRefusesOtherValues := by
  intro s
  refine ⟨fun h => ?_, fun h => ?_, ?_, fun h => ?_, fun h => ?_, fun h => ?_, fun h => ?_, fun n => ?_⟩
  · exact (setp_checked rfl).2 (decide_eq_false (by omega))
  · exact (setp_checked rfl).2 (decide_eq_false fun h' => h (BitVec.eq_of_toNat_eq h'))
  · exact failsWith_of_setParam rfl
  · exact (setp_checked rfl).2 (decide_eq_false fun h' => h (BitVec.eq_of_toNat_eq h'))
  · have hinvalid := (validPQ_eq_false_iff _).mpr h
    exact ⟨(setp_checked rfl).2 hinvalid, (setp_checked rfl).2 hinvalid⟩
  · exact (setp_checked rfl).2 (decide_eq_false h)
  · exact ⟨setp_tablePid_failsWith .s1 h, setp_tablePid_failsWith .s2 h⟩
  · exact failsWith_of_setParam rfl

/-! ### GETP -/

theorem completesWith_of_getParam {pid : Pid} {s : State} {r0 r1 : Word} {len : Nat}
    (h : getParam s.core pid = .ok { res0 := r0, res1 := r1, rlen := BitVec.ofNat 6 len }) :
    CompletesWith (.getp pid) s r0 r1 len := by
  show execGetp pid s = _
  simp only [execGetp, State.onCore, h, CoreState.complete_ok]; rfl

/-- A scalar fills its result word (40_config R135). -/
theorem scalar_eq (v : Word) : scalar v = { res0 := v, rlen := BitVec.ofNat 6 32 } := by
  simp [scalar, Result.ofBits]

theorem completesWith_of_scalar {pid : Pid} {s : State} {v : Word} (h : getParam s.core pid = .ok (scalar v)) :
    CompletesWith (.getp pid) s v 0#32 32 :=
  completesWith_of_getParam (h.trans (congrArg _ (scalar_eq v)))

theorem getParam_tablePid (c : CoreState) (sel : Sel) :
    getParam c (Sel.tablePid sel) = .ok (tableResult (selectTable c sel)) := by cases sel <;> rfl

theorem getp_tablePid_empty {s : State} (sel : Sel) (h : selectTable s.core sel = .empty) :
    CompletesWith (.getp (Sel.tablePid sel)) s 0#32 0#32 0 :=
  completesWith_of_getParam (by rw [getParam_tablePid, h]; rfl)

theorem getp_tablePid_loaded {s : State} {t : Table} (sel : Sel) (h : selectTable s.core sel = .loaded t) :
    CompletesWith (.getp (Sel.tablePid sel)) s ((packRow t.row0).setWidth 32) ((packRow t.row1).setWidth 32) 24 :=
  completesWith_of_getParam (by rw [getParam_tablePid, h]; rfl)

/-- A packed row keeps its value in a register (40_config R129). -/
theorem packRow_setWidth_toNat (row : Vector SboxOut 8) : ((packRow row).setWidth 32).toNat = (packRow row).toNat :=
  BitVec.toNat_setWidth_of_le (by decide)

/-- Settles O8: the scalar that each PID names, and the two tables by their rows. -/
theorem getpReturnsTheItem : Obligations.GetpReturnsTheItem := by
  intro s
  simp only [BitVec.ofNat_toNat]
  refine ⟨completesWith_of_scalar rfl, completesWith_of_scalar rfl, completesWith_of_scalar rfl,
    completesWith_of_scalar rfl, completesWith_of_scalar rfl, completesWith_of_scalar rfl, completesWith_of_scalar rfl,
    getp_tablePid_empty .s1, getp_tablePid_empty .s2, fun t => ?_, fun n => rfl⟩
  refine ⟨_, _, getp_tablePid_loaded .s1, getp_tablePid_loaded .s2, ?_⟩
  simp only [packRow_setWidth_toNat]
  exact ⟨(packRow t.row0).isLt, (packRow t.row1).isLt, fun col => ⟨packRow_toNat t.row0 col, packRow_toNat t.row1 col⟩⟩

/-! ### A table set and read back -/

/-- A row register without a bit above its 24 comes back from its row (40_config R129). -/
theorem packRow_unpackRow_bitString {v : Word} (h : v.toNat < 2 ^ 24) :
    (packRow (unpackRow (bitString 24 v))).setWidth 32 = v := by
  apply BitVec.eq_of_toNat_eq
  rw [packRow_setWidth_toNat, packRow_unpackRow, bitString_toNat_of_fits (fits_eq_true.mpr h)]

theorem getp_tablePid_of_setp {s t : State} (sel : Sel) (ha : s.core.opa.toNat < 2 ^ 24)
    (hb : s.core.opb.toNat < 2 ^ 24) (h : exec (.setp (Sel.tablePid sel)) s = .next t) :
    CompletesWith (.getp (Sel.tablePid sel)) t s.core.opa s.core.opb 24 := by
  have hset := setp_tablePid_setsTo sel ha hb
  rw [SetsTo, h] at hset; cases hset
  have hget := getp_tablePid_loaded (s := { s with core := (s.core.loadTable s.core.operandTable sel).succeed {} })
    (t := s.core.operandTable) sel (by cases sel <;> rfl)
  simp only [CoreState.operandTable, unpackTable, packRow_unpackRow_bitString ha, packRow_unpackRow_bitString hb] at hget
  exact hget

/-- Settles O9: SETP unpacks the two words, and packing undoes it. -/
theorem getpReadsBackTheLoadedTable : Obligations.GetpReadsBackTheLoadedTable := fun _ _ ha hb =>
  ⟨getp_tablePid_of_setp .s1 ha hb, getp_tablePid_of_setp .s2 ha hb⟩

end Sys2Proof.Machine
end

section
/-! PROOFS. 41_arith: the primality test. The trial division itself is read once in `noDivisorFrom_iff`. -/

namespace Sys2Proof.Machine

/-- Settles O10: a number from 2 on with no divisor up to its square root is a prime. -/
theorem primalityTestFindsThePrimes : Obligations.PrimalityTestFindsThePrimes := isPrime_iff_prime

end Sys2Proof.Machine
end

section
/-! PROOFS. 42_keystream: the seed search, the bit string of BBS, the errors of BBS, the key stream as BBS of P and Q, and the
subkeys. `completesWith_of_exec` and `failsWith_of_exec` say once what a command with a result leaves, and the lemmas
`bbs_eq_…` say once what BBS answers on each of its paths. -/

namespace Sys2Proof.Machine

open Sys2Proof.Statement

/-! ### The outcome of a command with a result -/

section Outcome

variable {i : Instr} {s : State} {x : CoreState → Except ErrorCode Result}

theorem completesWith_of_exec {r0 : Word} {len : Nat} (hexec : exec i s = .next (s.onCore fun c => c.complete (x c)))
    (h : x s.core = .ok { res0 := r0, rlen := BitVec.ofNat 6 len }) : CompletesWith i s r0 0#32 len := by
  rw [CompletesWith, hexec, State.onCore, h]; rfl

theorem failsWith_of_exec {e : ErrorCode} (hexec : exec i s = .next (s.onCore fun c => c.complete (x c)))
    (h : x s.core = .error e) : FailsWith i s e := by
  rw [FailsWith, hexec, State.onCore, h]; rfl

end Outcome

/-! ### The seed search -/

/-- Every entry of PRIME_TABLE is a prime (00_scope R5). -/
theorem prime_of_mem_primeTable {cfg : Config} (hw : cfg.wf = true) {e : Nat} (h : e ∈ cfg.primeTable) :
    Nat.Prime e := by
  simp only [Config.wf, Bool.and_eq_true, List.all_eq_true] at hw
  obtain ⟨⟨⟨⟨⟨⟨⟨⟨-, hprimes⟩, -⟩, -⟩, -⟩, -⟩, -⟩, -⟩, -⟩ := hw
  exact (isPrime_iff_prime e).mp (hprimes e h)

/-- The entries that the seed search looks at are those at the positions from n on, counted from 1. -/
theorem mem_drop_iff_position {table : List Nat} {n e : Nat} (hn : 0 < n) :
    e ∈ table.drop (n - 1) ↔ ∃ j, n ≤ j ∧ table[j - 1]? = some e := by
  simp only [List.mem_iff_getElem?, List.getElem?_drop]
  constructor
  · rintro ⟨i, h⟩
    exact ⟨n + i, by omega, by rwa [Nat.sub_add_comm hn]⟩
  · rintro ⟨j, hj, h⟩
    exact ⟨j - n, by rwa [show n - 1 + (j - n) = j - 1 by omega]⟩

section SeedSearch

variable {cfg : Config} {n : Nat}

/-- In a table of primes the gcd unit tells the coprime entries (41_arith R151). -/
theorem gcd_primeTable_eq_one (hw : cfg.wf = true) (hn : 0 < n) {e : Nat} (he : e ∈ cfg.primeTable) :
    Machine.gcd n e = some 1 ↔ Nat.Coprime n e :=
  gcd_eq_one hn.ne' (prime_of_mem_primeTable hw he).ne_zero

theorem seedSearch_eq_none_iff (hw : cfg.wf = true) (hn : 0 < n) :
    seedSearch cfg.primeTable n = none ↔
      ∀ j e, n ≤ j → cfg.primeTable[j - 1]? = some e → ¬Nat.Coprime n e := by
  simp only [seedSearch, List.find?_eq_none, decide_eq_true_eq]
  constructor
  · intro h j e hj he
    rw [← gcd_primeTable_eq_one hw hn (List.mem_of_getElem? he)]
    exact h e ((mem_drop_iff_position hn).mpr ⟨j, hj, he⟩)
  · intro h e he
    obtain ⟨j, hj, hje⟩ := (mem_drop_iff_position hn).mp he
    rw [gcd_primeTable_eq_one hw hn (List.mem_of_getElem? hje)]
    exact h j e hj hje

theorem seedSearch_ne_none_iff (hw : cfg.wf = true) (hn : 0 < n) :
    seedSearch cfg.primeTable n ≠ none ↔
      ∃ j seed, n ≤ j ∧ cfg.primeTable[j - 1]? = some seed ∧ Nat.Coprime n seed := by
  rw [ne_eq, seedSearch_eq_none_iff hw hn]
  push Not
  rfl

/-- The search answers the first coprime entry (42_keystream R163). -/
theorem seedSearch_eq_some {j seed : Nat} (hw : cfg.wf = true) (hn : 0 < n) (hj : n ≤ j)
    (hseed : cfg.primeTable[j - 1]? = some seed) (hcop : Nat.Coprime n seed)
    (hfirst : ∀ i e, n ≤ i → i < j → cfg.primeTable[i - 1]? = some e → ¬Nat.Coprime n e) :
    seedSearch cfg.primeTable n = some seed := by
  obtain ⟨hlt, hget⟩ := List.getElem?_eq_some_iff.mp hseed
  refine List.find?_eq_some_iff_getElem.mpr
    ⟨decide_eq_true ((gcd_primeTable_eq_one hw hn (List.mem_of_getElem? hseed)).mpr hcop), j - n, ?_, ?_, ?_⟩
  · rw [List.length_drop]; omega
  · simpa only [List.getElem_drop, show n - 1 + (j - n) = j - 1 by omega] using hget
  · intro i hi
    have hbefore : n - 1 + i < cfg.primeTable.length := by omega
    have hnot := hfirst (n + i) _ (by omega) (by omega)
      ((congrArg (cfg.primeTable[·]?) (Nat.sub_add_comm hn)).trans (List.getElem?_eq_getElem hbefore))
    rw [List.getElem_drop, Bool.not_eq_true', decide_eq_false_iff_not,
      gcd_primeTable_eq_one hw hn (List.getElem_mem hbefore)]
    exact hnot

/-- The i-th entry, counted from 0, of a strictly ascending table of primes is at least i + 2 (42_keystream R163). -/
theorem add_two_le_primeTable_getElem (hw : cfg.wf = true) (hasc : StrictlyAscending cfg.primeTable) (i : Nat)
    (hi : i < cfg.primeTable.length) : i + 2 ≤ cfg.primeTable[i] := by
  induction i with
  | zero => exact (prime_of_mem_primeTable hw (List.getElem_mem hi)).two_le
  | succ i ih =>
    have hprev := ih (by omega)
    have hstep : cfg.primeTable[i] < cfg.primeTable[i + 1] :=
      List.pairwise_iff_getElem.mp hasc i (i + 1) (by omega) hi (Nat.lt_succ_self i)
    omega

/-- In a strictly ascending table the entry at position n is a prime above n, so it is coprime to n (42_keystream R163). -/
theorem seedSearch_of_strictlyAscending (hw : cfg.wf = true) (hasc : StrictlyAscending cfg.primeTable) (hn : 0 < n) :
    seedSearch cfg.primeTable n = cfg.primeTable[n - 1]? := by
  by_cases hlt : n - 1 < cfg.primeTable.length
  · have habove := add_two_le_primeTable_getElem hw hasc (n - 1) hlt
    have hprime := prime_of_mem_primeTable hw (List.getElem_mem hlt)
    rw [List.getElem?_eq_getElem hlt]
    exact seedSearch_eq_some hw hn le_rfl (List.getElem?_eq_getElem hlt)
      (Nat.coprime_of_lt_prime hn.ne' (by omega) hprime).symm (fun i _ hni hin => absurd hni (by omega))
  · rw [List.getElem?_eq_none (by omega), seedSearch, List.drop_eq_nil_of_le (by omega), List.find?_nil]

end SeedSearch

/-- Settles O13: the first entry looked at is coprime to n, or there is none. -/
theorem seedSearchNeverAdvances : Obligations.SeedSearchNeverAdvances := by
  intro cfg p q hw hasc hp hq
  have hn : 0 < p * q := Nat.mul_pos hp.pos hq.pos
  have hsearch := seedSearch_of_strictlyAscending hw hasc hn
  refine ⟨hsearch, ?_⟩
  rw [hsearch, List.getElem?_eq_none_iff, Config.primeTableLen]
  omega

/-! ### The bit string of BBS -/

/-- The value of the bits that the recurrence emits from x_0 on (42_keystream R164, R165). -/
theorem bitsValue_bbsStream {n : Nat} (bits : Nat) {x : Nat → Nat} (h : ∀ t, x (t + 1) = x t ^ 2 % n) :
    bitsValue (bbsStream n (x 0) bits) = ∑ t ∈ Finset.range bits, x (t + 1) % 2 * 2 ^ (bits - 1 - t) := by
  induction bits generalizing x with
  | zero => rfl
  | succ bits ih =>
    have hnext : x 0 * x 0 % n = x 1 := by rw [h 0, pow_two]
    have hbit : (decide (x 1 % 2 = 1)).toNat = x 1 % 2 := by
      obtain h0 | h1 := Nat.mod_two_eq_zero_or_one (x 1)
      · rw [h0]; rfl
      · rw [h1]; rfl
    have htail := ih (x := fun t => x (t + 1)) fun t => h (t + 1)
    simp only [Nat.zero_add] at htail
    rw [bbsStream, hnext, bitsValue_cons, bbsStream_length, hbit, htail, Finset.sum_range_succ', Nat.add_comm]
    congr 1
    refine Finset.sum_congr rfl fun t _ => ?_
    rw [show bits + 1 - 1 - (t + 1) = bits - 1 - t by omega]

/-! ### What BBS answers -/

/-- The check that BBS makes of p and of q (42_keystream R166). -/
theorem bbsOperand_eq_true_iff (v : Nat) :
    (decide (1 ≤ v) && primeThreeModFour v) = true ↔ Nat.Prime v ∧ v % 4 = 3 := by
  simp only [primeThreeModFour, Bool.and_eq_true, decide_eq_true_eq, isPrime_iff_prime]
  exact and_iff_right_of_imp fun h => h.1.one_le

theorem bbsOperand_eq_false_iff (v : Nat) :
    (decide (1 ≤ v) && primeThreeModFour v) = false ↔ ¬(Nat.Prime v ∧ v % 4 = 3) := by
  rw [← bbsOperand_eq_true_iff, Bool.not_eq_true]

section Bbs

variable {cfg : Config} {p q bits : Nat}

theorem bbs_eq_bbsBadP (hp : ¬(Nat.Prime p ∧ p % 4 = 3)) : bbs cfg p q bits = .error .bbsBadP := by
  rw [bbs, (bbsOperand_eq_false_iff p).mpr hp]; rfl

variable (hp : Nat.Prime p ∧ p % 4 = 3)
include hp

theorem bbs_eq_bbsBadQ (hq : ¬(Nat.Prime q ∧ q % 4 = 3)) : bbs cfg p q bits = .error .bbsBadQ := by
  rw [bbs, (bbsOperand_eq_true_iff p).mpr hp, (bbsOperand_eq_false_iff q).mpr hq]; rfl

variable (hq : Nat.Prime q ∧ q % 4 = 3)
include hq

theorem bbs_eq_bbsBadBits (hbits : ¬(1 ≤ bits ∧ bits ≤ 32)) : bbs cfg p q bits = .error .bbsBadBits := by
  rw [bbs, (bbsOperand_eq_true_iff p).mpr hp, (bbsOperand_eq_true_iff q).mpr hq, decide_eq_false hbits]; rfl

variable (hbits : 1 ≤ bits ∧ bits ≤ 32)
include hbits

theorem bbs_eq_seedUnavailable (hs : seedSearch cfg.primeTable (p * q) = none) :
    bbs cfg p q bits = .error .seedUnavailable := by
  rw [bbs, (bbsOperand_eq_true_iff p).mpr hp, (bbsOperand_eq_true_iff q).mpr hq, decide_eq_true hbits, hs]; rfl

theorem bbs_eq_ok {seed : Nat} (hs : seedSearch cfg.primeTable (p * q) = some seed) :
    bbs cfg p q bits = .ok (bitsValue (bbsStream (p * q) (seed * seed % (p * q)) bits)) := by
  rw [bbs, (bbsOperand_eq_true_iff p).mpr hp, (bbsOperand_eq_true_iff q).mpr hq, decide_eq_true hbits, hs]; rfl

end Bbs

/-- BBS answers a string of at most `bits` bits (42_keystream R165). -/
theorem meets_bbs_lt (cfg : Config) (p q bits : Nat) : Meets (· < 2 ^ bits) (bbs cfg p q bits) := by
  refine meets_require_bind (by decide) fun _ => meets_require_bind (by decide) fun _ =>
    meets_require_bind (by decide) fun _ => ?_
  cases seedSearch cfg.primeTable (p * q) with
  | none => exact meets_error (by decide)
  | some seed => exact meets_ok ((bitsValue_lt _).trans_eq (congrArg (2 ^ ·) (bbsStream_length ..)))

theorem lt_of_bbs_eq_ok {cfg : Config} {p q bits v : Nat} (h : bbs cfg p q bits = .ok v) : v < 2 ^ bits := by
  have hmeets := meets_bbs_lt cfg p q bits
  rw [h] at hmeets
  exact hmeets

section BbsResult

variable {cfg : Config} {bits : Half} {c : CoreState}

theorem bbsResult_eq_ok {v : Nat} (h : bbs cfg c.opa.toNat c.opb.toNat bits.toNat = .ok v) :
    bbsResult cfg bits c = .ok { res0 := BitVec.ofNat 32 v, rlen := BitVec.ofNat 6 bits.toNat } := by
  rw [bbsResult, h]; rfl

theorem bbsResult_eq_error {e : ErrorCode} (h : bbs cfg c.opa.toNat c.opb.toNat bits.toNat = .error e) :
    bbsResult cfg bits c = .error e := by
  rw [bbsResult, h]; rfl

end BbsResult

theorem exec_bbs (bits : Half) (s : State) :
    exec (.bbs bits) s = .next (s.onCore fun c => c.complete (bbsResult s.cfg bits c)) := rfl

theorem failsWith_bbs {bits : Half} {s : State} {e : ErrorCode}
    (h : bbs s.cfg s.core.opa.toNat s.core.opb.toNat bits.toNat = .error e) : FailsWith (.bbs bits) s e :=
  failsWith_of_exec (exec_bbs bits s) (bbsResult_eq_error h)

/-- Settles O11: the search finds the seed, and the emitted bits have the value of the sum. -/
theorem bbsWritesTheBitStream : Obligations.BbsWritesTheBitStream := by
  intro s bits j seed x hw p q hp hp4 hq hq4 hlow hhigh hj hseed hcop hfirst hx0 hx
  have hn : 0 < p * q := Nat.mul_pos hp.pos hq.pos
  have hsearch := seedSearch_eq_some hw hn hj hseed hcop hfirst
  have hbbs := bbs_eq_ok ⟨hp, hp4⟩ ⟨hq, hq4⟩ ⟨hlow, hhigh⟩ hsearch
  rw [← pow_two, ← hx0, bitsValue_bbsStream bits.toNat hx] at hbbs
  exact completesWith_of_exec (exec_bbs bits s) (bbsResult_eq_ok hbbs)

/-- Settles O12: each check fails with its own code once the checks before it have passed. -/
theorem bbsReportsTheFirstError : Obligations.BbsReportsTheFirstError := by
  intro s bits hw p q goodP goodQ goodBits
  refine ⟨fun hp => failsWith_bbs (bbs_eq_bbsBadP hp), fun hp hq => failsWith_bbs (bbs_eq_bbsBadQ hp hq),
    fun hp hq hbits => failsWith_bbs (bbs_eq_bbsBadBits hp hq hbits), fun hp hq hbits hnone => ?_⟩
  have hn : 0 < p * q := Nat.mul_pos hp.1.pos hq.1.pos
  exact failsWith_bbs (bbs_eq_seedUnavailable hp hq hbits ((seedSearch_eq_none_iff hw hn).mpr hnone))

/-! ### The key stream -/

section KeyStream

variable {cfg : Config} {c : CoreState}

theorem keyStream_eq_ok {v : Nat} (h : bbs cfg c.p.toNat c.q.toNat Config.keyLength = .ok v) :
    keyStream cfg c = .ok (BitVec.ofNat 9 v) := by
  rw [keyStream, h]; rfl

theorem keyStream_eq_error {e : ErrorCode} (h : bbs cfg c.p.toNat c.q.toNat Config.keyLength = .error e) :
    keyStream cfg c = .error e := by
  rw [keyStream, h]; rfl

end KeyStream

/-- KEYSTREAM's result (42_keystream R172). -/
def keystreamResult (cfg : Config) (c : CoreState) : Except ErrorCode Result := do
  let k ← keyStream cfg c
  return Result.ofBits k

theorem exec_keystream (s : State) :
    exec .keystream s = .next (s.onCore fun c => c.complete (keystreamResult s.cfg c)) := rfl

/-- The core with P and Q in the operands of BBS (42_keystream R170). -/
def CoreState.withPQOperands (c : CoreState) : CoreState := { c with opa := c.p.setWidth 32, opb := c.q.setWidth 32 }

/-- A value below 2^9 is whole in K (42_keystream R170). -/
theorem ofNat_9_setWidth {v : Nat} (h : v < 2 ^ 9) : (BitVec.ofNat 9 v).setWidth 32 = BitVec.ofNat 32 v := by
  apply BitVec.eq_of_toNat_eq
  rw [BitVec.toNat_setWidth, BitVec.toNat_ofNat, BitVec.toNat_ofNat, Nat.mod_eq_of_lt h]

/-- BBS 9 of P and Q has KEYSTREAM's result (42_keystream R170, R172). -/
theorem bbsResult_withPQOperands (cfg : Config) (c : CoreState) :
    bbsResult cfg 9#16 c.withPQOperands = keystreamResult cfg c := by
  have hp : c.withPQOperands.opa.toNat = c.p.toNat := BitVec.toNat_setWidth_of_le (by decide)
  have hq : c.withPQOperands.opb.toNat = c.q.toNat := BitVec.toNat_setWidth_of_le (by decide)
  have hsame : bbs cfg c.withPQOperands.opa.toNat c.withPQOperands.opb.toNat (9#16).toNat =
      bbs cfg c.p.toNat c.q.toNat Config.keyLength := by rw [hp, hq]; rfl
  cases hbbs : bbs cfg c.p.toNat c.q.toNat Config.keyLength with
  | error e => rw [bbsResult_eq_error (hsame.trans hbbs), keystreamResult, keyStream_eq_error hbbs]; rfl
  | ok v =>
    rw [bbsResult_eq_ok (hsame.trans hbbs), keystreamResult, keyStream_eq_ok hbbs,
      ← ofNat_9_setWidth (lt_of_bbs_eq_ok hbbs)]; rfl

/-- ERR, ERRCODE and the result come from the command's own outcome, whatever the core was (60_exceptions R301, R302). -/
theorem complete_outcome_eq (c c' : CoreState) {x x' : Except ErrorCode Result} (h : x = x') :
    (c.complete x).err = (c'.complete x').err ∧ (c.complete x).errCode = (c'.complete x').errCode ∧
    (c.complete x).res0 = (c'.complete x').res0 ∧ (c.complete x).res1 = (c'.complete x').res1 ∧
    (c.complete x).rlen = (c'.complete x').rlen := by
  subst h
  cases x with
  | ok r => exact ⟨rfl, rfl, rfl, rfl, rfl⟩
  | error e => exact ⟨rfl, rfl, rfl, rfl, rfl⟩

/-- Settles O14: the two commands have the same result. -/
theorem keystreamIsBbsOfPAndQ : Obligations.KeystreamIsBbsOfPAndQ := by
  intro s
  refine ⟨fun k hk => completesWith_of_exec (exec_keystream s) (by rw [keystreamResult, hk]; rfl),
    fun e he => failsWith_of_exec (exec_keystream s) (by rw [keystreamResult, he]; rfl), fun t u ht hu => ?_⟩
  obtain rfl := Host.Outcome.next.inj ht
  obtain rfl := Host.Outcome.next.inj hu
  exact complete_outcome_eq s.core s.core.withPQOperands (bbsResult_withPQOperands s.cfg s.core).symm

/-- P and Q of a state that meets the invariant pass the checks of BBS (10_state R37; 42_keystream R170). -/
theorem prime_pq_of_inv {s : State} (h : s.Inv) :
    (Nat.Prime s.core.p.toNat ∧ s.core.p.toNat % 4 = 3) ∧ (Nat.Prime s.core.q.toNat ∧ s.core.q.toNat % 4 = 3) := by
  obtain ⟨-, ⟨-, hp, hq, -⟩, -, -⟩ := h
  exact ⟨((validPQ_iff _).mp hp).2, ((validPQ_iff _).mp hq).2⟩

/-- With P and Q legal, the seed search decides whether there is a key stream (42_keystream R170). -/
theorem keyStream_cases {s : State} (h : s.Inv) :
    (seedSearch s.cfg.primeTable (s.core.p.toNat * s.core.q.toNat) = none ∧
      keyStream s.cfg s.core = .error .seedUnavailable) ∨
    (seedSearch s.cfg.primeTable (s.core.p.toNat * s.core.q.toNat) ≠ none ∧ ∃ k, keyStream s.cfg s.core = .ok k) := by
  obtain ⟨hp, hq⟩ := prime_pq_of_inv h
  cases hs : seedSearch s.cfg.primeTable (s.core.p.toNat * s.core.q.toNat) with
  | none => exact .inl ⟨rfl, keyStream_eq_error (bbs_eq_seedUnavailable hp hq (by decide) hs)⟩
  | some seed => exact .inr ⟨nofun, _, keyStream_eq_ok (bbs_eq_ok hp hq (by decide) hs)⟩

/-- Settles O15: the key stream lacks only a seed, and the search fails only where no entry is one. -/
theorem keyStreamLacksOnlyTheSeed : Obligations.KeyStreamLacksOnlyTheSeed := by
  intro s hinv
  obtain ⟨hp, hq⟩ := prime_pq_of_inv hinv
  rw [← seedSearch_ne_none_iff hinv.1 (Nat.mul_pos hp.1.pos hq.1.pos)]
  obtain ⟨hnone, herror⟩ | ⟨hsome, k, hk⟩ := keyStream_cases hinv
  · rw [herror]
    exact ⟨fun e he => (Except.error.inj he).symm, iff_of_false nofun (not_not.mpr hnone)⟩
  · rw [hk]
    exact ⟨nofun, iff_of_true ⟨k, rfl⟩ hsome⟩

/-! ### Subkeys -/

/-- The sign extension of ARG keeps its value (30_encoding R94). -/
theorem idxOfArg_eq_toInt (idx : Half) : idxOfArg idx = idx.toInt := BitVec.toInt_signExtend_of_le (by decide)

theorem toInt_toNat_of_pos {n : Nat} {v : BitVec n} (h : 0 < v.toInt) : v.toInt.toNat = v.toNat := by
  rw [BitVec.toInt_eq_toNat_cond] at h ⊢
  have := v.isLt
  split at h <;> omega

theorem exec_subkey (idx : Half) (s : State) :
    exec (.subkey idx) s = .next (s.onCore fun c => c.complete (subkeyResult s.cfg idx c)) := rfl

/-- Settles O16: the index check comes first, and the window's bits are those of `subkey_bit`. -/
theorem subkeyWritesTheCircularWindow : Obligations.SubkeyWritesTheCircularWindow := by
  intro s idx
  refine ⟨fun hle => failsWith_of_exec (exec_subkey idx s) ?_,
    fun e hpos he => failsWith_of_exec (exec_subkey idx s) ?_, fun k hpos hk => ⟨subkey k idx.toNat,
      completesWith_of_exec (exec_subkey idx s) ?_, fun j hj => subkey_bit k idx.toNat hj⟩⟩
  · rw [subkeyResult, idxOfArg_eq_toInt, decide_eq_false (not_lt.mpr hle)]; rfl
  · rw [subkeyResult, idxOfArg_eq_toInt, decide_eq_true hpos, he]; rfl
  · rw [subkeyResult, idxOfArg_eq_toInt, decide_eq_true hpos, hk, toInt_toNat_of_pos hpos]; rfl

/-- Settles O17: nine steps on, the window starts at the same offset. -/
theorem subkeysRepeatEveryNine : Obligations.SubkeysRepeatEveryNine := by
  intro k i hi
  have hoffset : (i + 9 - 1) % 9 = (i - 1) % 9 := by omega
  simp only [subkey, hoffset]

end Sys2Proof.Machine
end

section
/-! PROOFS. 43_sbox: the outcome of SUBST on each of its paths, and the table files that are transcribed. The lookup by
row and column is `substitute_eq`; which rows of a file are accepted is `transcribeRow_eq_ok`. -/

namespace Sys2Proof.Machine

open Sys2Proof.Statement

/-! ### SUBST -/

theorem exec_subst (sel : Sel) (s : State) :
    exec (.subst sel) s = .next (s.onCore fun c => c.complete (substResult sel c)) := rfl

section SubstResult

variable {sel : Sel} {c : CoreState}

theorem substResult_of_not_fits (h : fits 4 c.opa = false) : substResult sel c = .error .malformed := by
  simp [substResult, h]

theorem substResult_of_empty (h : fits 4 c.opa = true) (hbox : selectTable c sel = .empty) :
    substResult sel c = .error .sboxEmpty := by
  simp [substResult, h, hbox, SBox.table]

theorem substResult_of_loaded {t : Table} (h : fits 4 c.opa = true) (hbox : selectTable c sel = .loaded t) :
    substResult sel c = .ok (Result.ofBits (substitute t (bitString 4 c.opa))) := by
  simp [substResult, h, hbox, SBox.table]

end SubstResult

/-- The lookup as a result word: the row from bit 3 of the operand and the column from its low bits (43_sbox R193). -/
theorem substitute_bitString_setWidth {v : Word} (h : fits 4 v = true) (t : Table) (col : Fin 8)
    (hcol : col.val = v.toNat % 8) :
    (substitute t (bitString 4 v)).setWidth 32 =
      BitVec.ofNat 32 (if 8 ≤ v.toNat then t.row1[col].toNat else t.row0[col].toNat) := by
  have hv : (bitString 4 v).toNat = v.toNat := bitString_toNat_of_fits h
  have hcol' : col.val = (bitString 4 v).toNat % 8 := by rw [hv, hcol]
  rw [substitute_eq t _ col hcol', hv, ← apply_ite BitVec.toNat, BitVec.ofNat_toNat]

/-- Settles O18: the operand check, the table's state, and the lookup of the selected table. -/
theorem substLooksUpTheSelectedTable : Obligations.SubstLooksUpTheSelectedTable := by
  intro s sel box hbox
  have hselect : selectTable s.core sel = box := by rw [hbox]; cases sel <;> rfl
  refine ⟨fun hle => ?_, fun hlt hempty => ?_, fun t hlt hloaded col hcol => ?_⟩
  · exact failsWith_of_exec (exec_subst sel s) (substResult_of_not_fits (fits_eq_false.mpr hle))
  · exact failsWith_of_exec (exec_subst sel s) (substResult_of_empty (fits_eq_true.mpr hlt) (hselect.trans hempty))
  · have hfits : fits 4 s.core.opa = true := fits_eq_true.mpr hlt
    apply completesWith_of_exec (exec_subst sel s)
    rw [substResult_of_loaded hfits (hselect.trans hloaded), Result.ofBits,
      substitute_bitString_setWidth hfits t col hcol]

/-! ### Table files -/

/-- Exactly the file form of a table is transcribed to that table (43_sbox R191). -/
theorem transcribeTable_eq_ok {file : List (List Char)} {t : Table} :
    transcribeTable file = .ok t ↔ file = fileOf t := by
  constructor
  · intro h
    unfold transcribeTable at h
    split at h
    · simp only [bind_eq_ok, transcribeRow_eq_ok] at h
      obtain ⟨row0, rfl, row1, rfl, h⟩ := h
      cases h; rfl
    · cases h
  · rintro rfl
    have row (r : Vector SboxOut 8) : transcribeRow (fileRow r) = .ok r := transcribeRow_eq_ok.mpr rfl
    simp only [fileOf, transcribeTable, row]; rfl

/-- A file that is refused is refused by name (93 U8). -/
theorem transcribeTable_cases (file : List (List Char)) :
    (∃ t, transcribeTable file = .ok t) ∨ ∃ flaw, transcribeTable file = .error (.tableFile flaw) := by
  unfold transcribeTable
  split
  · next line0 line1 =>
    obtain ⟨row0, h0⟩ | ⟨flaw, h0⟩ := transcribeRow_cases line0
    · obtain ⟨row1, h1⟩ | ⟨flaw, h1⟩ := transcribeRow_cases line1
      · exact .inl ⟨_, by rw [h0, h1]; rfl⟩
      · exact .inr ⟨flaw, by rw [h0, h1]; rfl⟩
    · exact .inr ⟨flaw, by rw [h0]; rfl⟩
  · exact .inr ⟨_, rfl⟩

/-- Settles O55: a file is transcribed only to a table whose form it is, and otherwise refused by name. -/
theorem onlyTableFilesAreTranscribed : Obligations.OnlyTableFilesAreTranscribed := by
  intro sel file
  constructor
  · intro t hfile
    rw [tableFileEvents, transcribeTable_eq_ok.mpr hfile]; rfl
  · intro hnone
    obtain ⟨t, ht⟩ | ⟨flaw, hflaw⟩ := transcribeTable_cases file
    · exact absurd (transcribeTable_eq_ok.mp ht) (hnone t)
    · exact ⟨flaw, by rw [tableFileEvents, hflaw]; rfl⟩

end Sys2Proof.Machine
end

section
/-! PROOFS. 44_feistel: EXPAND bit by bit, XOR, the F-function, the round and its inverse, and the two block commands. FFUNC
and ROUND have one shape (`keyedResult`), ENCBLK and DECBLK another (`blockResult`); the errors of each shape are read once. -/

namespace Sys2Proof.Machine

open Sys2Proof.Statement

/-! ### EXPAND -/

/-- Where bit j of the expansion of 2m bits comes from: bits below the middle pair stay, those above it move up by two, and
the four in between alternate between the pair's bits m and m − 1 (44_feistel R210). -/
def expandSource (m j : Nat) : Nat :=
  if j + 1 < m then j
  else if j = m - 1 ∨ j = m + 1 then m
  else if j = m ∨ j = m + 2 then m - 1
  else j - 2

section ExpandSource

variable {m j : Nat}

theorem expandSource_below (h : j + 1 < m) : expandSource m j = j := if_pos h

theorem expandSource_above (h : m < j) : expandSource m (j + 2) = j := by
  unfold expandSource; split_ifs <;> omega

theorem expandSource_middle (hm : 1 ≤ m) :
    expandSource m (m + 2) = m - 1 ∧ expandSource m (m + 1) = m ∧ expandSource m m = m - 1 ∧
    expandSource m (m - 1) = m := by
  unfold expandSource
  refine ⟨?_, ?_, ?_, ?_⟩ <;> split_ifs <;> omega

end ExpandSource

/-- The pattern r_{m+1} r_m r_{m+1} r_m, bit by bit (44_feistel R210). -/
theorem testBit_middlePattern : ∀ (rm rm1 : Bool) (j : Nat), j < 4 →
    (8 * rm1.toNat + 4 * rm.toNat + 2 * rm1.toNat + rm.toNat).testBit j = if j = 0 ∨ j = 2 then rm else rm1 := by
  decide

theorem middlePattern_lt (rm rm1 : Bool) :
    8 * rm1.toNat + 4 * rm.toNat + 2 * rm1.toNat + rm.toNat < 2 ^ 4 := by
  revert rm rm1; decide

theorem expandValue_two_mul (m v : Nat) :
    expandValue (2 * m) v = 2 ^ (m - 1) * (2 ^ 4 * (v / 2 ^ (m + 1))
      + (8 * (v.testBit (m - 1)).toNat + 4 * (v.testBit m).toNat + 2 * (v.testBit (m - 1)).toNat + (v.testBit m).toNat))
      + v % 2 ^ (m - 1) := by
  have hhalf : 2 * m / 2 = m := by omega
  have hpair : 2 * m - m = m := by omega
  simp only [expandValue, hhalf, hpair]
  ring

theorem testBit_expandValue {m : Nat} (hm : 1 ≤ m) (v j : Nat) :
    (expandValue (2 * m) v).testBit j = v.testBit (expandSource m j) := by
  rw [expandValue_two_mul, Nat.testBit_two_pow_mul_add _ (Nat.mod_lt _ (Nat.two_pow_pos _)),
    Nat.testBit_two_pow_mul_add _ (middlePattern_lt _ _)]
  by_cases hlow : j < m - 1
  · rw [if_pos hlow, Nat.testBit_mod_two_pow, decide_eq_true hlow, Bool.true_and, expandSource, if_pos (by omega)]
  rw [if_neg hlow]
  by_cases hmid : j - (m - 1) < 4
  · rw [if_pos hmid, testBit_middlePattern _ _ _ hmid, ← apply_ite v.testBit, expandSource]
    congr 1; split_ifs <;> omega
  · rw [if_neg hmid, Nat.testBit_div_two_pow, expandSource]
    congr 1; split_ifs <;> omega

/-- The result word of EXPAND, bit by bit: an operand of at most 30 bits loses none of its expansion (44_feistel R211). -/
theorem getLsbD_ofNat_expandValue {m : Nat} {v : Word} (hm : 1 ≤ m) (hm15 : m ≤ 15) (hv : v.toNat < 2 ^ (2 * m))
    (j : Nat) :
    (BitVec.ofNat 32 (expandValue (2 * m) v.toNat)).getLsbD j = v.getLsbD (expandSource m j) := by
  rw [BitVec.getLsbD_ofNat, testBit_expandValue hm, BitVec.getLsbD]
  by_cases hj : j < 32
  · rw [decide_eq_true hj, Bool.true_and]
  · have hsource : 2 * m ≤ expandSource m j := by unfold expandSource; split_ifs <;> omega
    have hzero : v.toNat.testBit (expandSource m j) = false :=
      Nat.testBit_lt_two_pow (hv.trans_le (Nat.pow_le_pow_right (by decide) hsource))
    rw [hzero, Bool.and_false]

section ExpandResult

variable {len : Half} {c : CoreState}

theorem exec_expand (len : Half) (s : State) :
    exec (.expand len) s = .next (s.onCore fun c => c.complete (expandResult len c)) := rfl

theorem expandResult_of_bad_length (h : ¬(len.toNat % 2 = 0 ∧ 2 ≤ len.toNat ∧ len.toNat ≤ 30)) :
    expandResult len c = .error .malformed := by
  simp [expandResult, h]

variable (h : len.toNat % 2 = 0 ∧ 2 ≤ len.toNat ∧ len.toNat ≤ 30)
include h

theorem expandResult_of_not_fits (hfits : fits len.toNat c.opa = false) : expandResult len c = .error .malformed := by
  simp [expandResult, h, hfits]

theorem expandResult_of_fits (hfits : fits len.toNat c.opa = true) : expandResult len c =
    .ok { res0 := BitVec.ofNat 32 (expandValue len.toNat c.opa.toNat), rlen := BitVec.ofNat 6 (len.toNat + 2) } := by
  simp [expandResult, h, hfits]

end ExpandResult

/-- Settles O19: the two checks, and the result word read bit by bit through `expandSource`. -/
theorem expandDoublesTheMiddlePair : Obligations.ExpandDoublesTheMiddlePair := by
  intro s len m
  refine ⟨fun hlen => failsWith_of_exec (exec_expand len s) (expandResult_of_bad_length hlen),
    fun heven hlow hhigh hbig => failsWith_of_exec (exec_expand len s)
      (expandResult_of_not_fits ⟨heven, hlow, hhigh⟩ (fits_eq_false.mpr hbig)),
    fun hlen hlow hhigh hsmall => ⟨BitVec.ofNat 32 (expandValue len.toNat s.core.opa.toNat),
      completesWith_of_exec (exec_expand len s) (expandResult_of_fits (by omega) (fits_eq_true.mpr hsmall)), ?_⟩⟩
  rw [hlen] at hsmall ⊢
  obtain ⟨htop, hsecond, hthird, hbottom⟩ := expandSource_middle hlow
  simp only [getLsbD_ofNat_expandValue hlow hhigh hsmall]
  exact ⟨by rw [htop], by rw [hsecond], by rw [hthird], by rw [hbottom],
    fun j hj => by rw [expandSource_below hj], fun j hj => by rw [expandSource_above hj]⟩

/-- The expander of F has the bits that the expander of EXPAND has at length 6 (44_feistel R213). -/
theorem expandHalf_toNat : ∀ r : HalfBlock, (expandHalf r).toNat = expandValue 6 r.toNat := by decide

theorem expandHalf_bits : ∀ r : HalfBlock, (List.range 8).map (fun j => (expandHalf r).getLsbD (7 - j)) =
    [5, 4, 2, 3, 2, 3, 1, 0].map fun j => r.getLsbD j := by decide

/-- Settles O20, by the 64 values of a half block. -/
theorem halfExpanderIsExpandOfSix : Obligations.HalfExpanderIsExpandOfSix :=
  fun r => ⟨expandHalf_toNat r, expandHalf_bits r⟩

/-! ### XOR -/

/-- A register that holds a bit string of n bits is that bit string zero-extended (20_memory R69; 92 D18). -/
theorem bitString_setWidth_of_fits {n : Nat} {v : Word} (hn : n ≤ 32) (h : fits n v = true) :
    (bitString n v).setWidth 32 = v := by
  apply BitVec.eq_of_toNat_eq
  rw [BitVec.toNat_setWidth_of_le hn, bitString_toNat_of_fits h]

section XorResult

variable {len : Half} {c : CoreState}

theorem exec_xor (len : Half) (s : State) :
    exec (.xor len) s = .next (s.onCore fun c => c.complete (xorResult len c)) := rfl

theorem xorResult_of_bad_length (h : ¬(1 ≤ len.toNat ∧ len.toNat ≤ 32)) : xorResult len c = .error .malformed := by
  simp only [xorResult, decide_eq_false h, require_false, error_bind]

variable (h : 1 ≤ len.toNat ∧ len.toNat ≤ 32)
include h

theorem xorResult_of_not_fits (hfits : (fits len.toNat c.opa && fits len.toNat c.opb) = false) :
    xorResult len c = .error .malformed := by
  simp only [xorResult, decide_eq_true h, hfits, require_true, require_false, ok_bind, error_bind]

theorem xorResult_of_fits (hopa : fits len.toNat c.opa = true) (hopb : fits len.toNat c.opb = true) :
    xorResult len c = .ok { res0 := c.opa ^^^ c.opb, rlen := BitVec.ofNat 6 len.toNat } := by
  have hword : (bitString len.toNat c.opa ^^^ bitString len.toNat c.opb).setWidth 32 = c.opa ^^^ c.opb := by
    rw [BitVec.setWidth_xor, bitString_setWidth_of_fits h.2 hopa, bitString_setWidth_of_fits h.2 hopb]
  simp only [xorResult, decide_eq_true h, hopa, hopb, hword, Bool.and_self, require_true, ok_bind, pure_eq_ok]

end XorResult

/-- Two operands do not both fit exactly when one of them has a bit above its length (92 D18). -/
theorem both_fit_eq_false {n m : Nat} {v w : Word} :
    (fits n v && fits m w) = false ↔ 2 ^ n ≤ v.toNat ∨ 2 ^ m ≤ w.toNat := by
  rw [Bool.and_eq_false_iff, fits_eq_false, fits_eq_false]

/-- Settles O21: the length check, the operand check, and the exclusive-or of whole registers. -/
theorem xorCombinesTheOperands : Obligations.XorCombinesTheOperands := by
  intro s len
  refine ⟨fun hlen => failsWith_of_exec (exec_xor len s) (xorResult_of_bad_length (by omega)),
    fun hlow hhigh hbig => failsWith_of_exec (exec_xor len s)
      (xorResult_of_not_fits ⟨hlow, hhigh⟩ (both_fit_eq_false.mpr hbig)),
    fun hlow hhigh hopa hopb => completesWith_of_exec (exec_xor len s)
      (xorResult_of_fits ⟨hlow, hhigh⟩ (fits_eq_true.mpr hopa) (fits_eq_true.mpr hopb))⟩

/-! ### The shape of FFUNC and ROUND -/

/-- The result of a command that computes g from both tables, the bit string of n bits in OPA and the subkey in OPB
(44_feistel R219, R223). -/
def keyedResult (n : Nat) {m : Nat} (g : Table → Table → BitVec n → Subkey → BitVec m) (c : CoreState) :
    Except ErrorCode Result := do
  require (fits n c.opa && fits 8 c.opb) .malformed
  let (t1, t2) ← bothTables c
  return Result.ofBits (g t1 t2 (bitString n c.opa) (bitString 8 c.opb))

theorem exec_ffunc (s : State) : exec .ffunc s = .next (s.onCore fun c => c.complete (keyedResult 6 fFunction c)) := rfl

theorem exec_round (s : State) :
    exec .round s = .next (s.onCore fun c => c.complete (keyedResult 12 feistelRound c)) := rfl

section KeyedResult

variable {i : Instr} {s : State} {n m : Nat} {g : Table → Table → BitVec n → Subkey → BitVec m}
variable (hexec : exec i s = .next (s.onCore fun c => c.complete (keyedResult n g c)))
include hexec

theorem keyed_failsWith_malformed (h : 2 ^ n ≤ s.core.opa.toNat ∨ 2 ^ 8 ≤ s.core.opb.toNat) :
    FailsWith i s .malformed :=
  failsWith_of_exec hexec (by simp only [keyedResult, both_fit_eq_false.mpr h, require_false, error_bind])

variable (hopa : s.core.opa.toNat < 2 ^ n) (hopb : s.core.opb.toNat < 2 ^ 8)
include hopa hopb

theorem keyed_failsWith_sboxEmpty (hempty : s.core.sbox1 = .empty ∨ s.core.sbox2 = .empty) :
    FailsWith i s .sboxEmpty :=
  failsWith_of_exec hexec (by
    simp only [keyedResult, fits_eq_true.mpr hopa, fits_eq_true.mpr hopb, bothTables_empty hempty, Bool.and_self,
      require_true, ok_bind, error_bind])

theorem keyed_completesWith {t1 t2 : Table} (h1 : s.core.sbox1 = .loaded t1) (h2 : s.core.sbox2 = .loaded t2) :
    CompletesWith i s ((g t1 t2 (bitString n s.core.opa) (bitString 8 s.core.opb)).setWidth 32) 0#32 m :=
  completesWith_of_exec hexec (by
    simp only [keyedResult, fits_eq_true.mpr hopa, fits_eq_true.mpr hopb, bothTables_loaded h1 h2, Bool.and_self,
      require_true, ok_bind, pure_eq_ok, Result.ofBits])

end KeyedResult

/-! ### The F-function -/

theorem extractLsb'_4_4_toNat (e : Subkey) : (e.extractLsb' 4 4).toNat = e.toNat / 16 := by
  have := e.isLt
  simp only [BitVec.extractLsb'_toNat, Nat.shiftRight_eq_div_pow]; omega

theorem extractLsb'_0_4_toNat (e : Subkey) : (e.extractLsb' 0 4).toNat = e.toNat % 16 := by
  simp only [BitVec.extractLsb'_toNat, Nat.shiftRight_eq_div_pow]; omega

/-- F as a number: the high half of E looks up the upper three bits and the low half the lower three
(43_sbox R193; 44_feistel R218). -/
theorem fFunction_toNat (t1 t2 : Table) (r : HalfBlock) (k : Subkey) {e : Nat}
    (he : e = expandValue 6 r.toNat ^^^ k.toNat) {hi lo : Fin 8} (hhi : hi.val = e / 16 % 8) (hlo : lo.val = e % 8) :
    (fFunction t1 t2 r k).toNat = 8 * (if 128 ≤ e then t1.row1[hi].toNat else t1.row0[hi].toNat)
      + if 8 ≤ e % 16 then t2.row1[lo].toNat else t2.row0[lo].toNat := by
  have hE : (expandHalf r ^^^ k).toNat = e := by rw [BitVec.toNat_xor, expandHalf_toNat, he]
  have hhigh := extractLsb'_4_4_toNat (expandHalf r ^^^ k)
  have hlow := extractLsb'_0_4_toNat (expandHalf r ^^^ k)
  rw [hE] at hhigh hlow
  have hrow : 8 ≤ e / 16 ↔ 128 ≤ e := by omega
  have hcol1 : hi.val = ((expandHalf r ^^^ k).extractLsb' 4 4).toNat % 8 := by rw [hhigh, hhi]
  have hcol2 : lo.val = ((expandHalf r ^^^ k).extractLsb' 0 4).toNat % 8 := by rw [hlow, hlo]; omega
  rw [fFunction, append_toNat, substitute_eq t1 _ hi hcol1, substitute_eq t2 _ lo hcol2, hhigh, hlow,
    apply_ite BitVec.toNat, apply_ite BitVec.toNat, if_congr hrow rfl rfl, Nat.mul_comm,
    show 2 ^ 3 = 8 from rfl]

/-- Settles O22: the errors of the shape, and F as a number. -/
theorem ffuncSubstitutesBothHalves : Obligations.FfuncSubstitutesBothHalves := by
  intro s
  refine ⟨keyed_failsWith_malformed (exec_ffunc s), keyed_failsWith_sboxEmpty (exec_ffunc s),
    fun t1 t2 e hopa hopb h1 h2 he hi lo hhi hlo => ?_⟩
  have hr : (bitString 6 s.core.opa).toNat = s.core.opa.toNat := bitString_toNat_of_fits (fits_eq_true.mpr hopa)
  have hk : (bitString 8 s.core.opb).toNat = s.core.opb.toNat := bitString_toNat_of_fits (fits_eq_true.mpr hopb)
  rw [← hr, ← hk] at he
  rw [← fFunction_toNat t1 t2 _ _ he hhi hlo, BitVec.ofNat_toNat]
  exact keyed_completesWith (exec_ffunc s) hopa hopb h1 h2

/-! ### The round -/

section Round

variable (t1 t2 : Table) (l r : HalfBlock) (k : Subkey)

@[simp] theorem swapHalves_append : swapHalves (l ++ r) = r ++ l := by
  rw [swapHalves, leftHalf_append, rightHalf_append]

@[simp] theorem feistelRound_append : feistelRound t1 t2 (l ++ r) k = r ++ (l ^^^ fFunction t1 t2 r k) := by
  rw [feistelRound, leftHalf_append, rightHalf_append]

end Round

/-- Every block is two halves side by side (44_feistel R222). -/
theorem exists_halves (b : Block) : ∃ l r : HalfBlock, b = l ++ r := ⟨leftHalf b, rightHalf b, (halves_append b).symm⟩

@[simp] theorem swapHalves_swapHalves (b : Block) : swapHalves (swapHalves b) = b := by
  obtain ⟨l, r, rfl⟩ := exists_halves b
  rw [swapHalves_append, swapHalves_append]

/-- The block in a register, from its halves as numbers (44_feistel R222). -/
theorem bitString_12_eq_append {v : Word} {l r : HalfBlock} (h : v.toNat < 4096) (hl : l.toNat = v.toNat / 64)
    (hr : r.toNat = v.toNat % 64) : bitString 12 v = l ++ r := by
  apply BitVec.eq_of_toNat_eq
  rw [bitString_toNat_of_fits (fits_eq_true.mpr h), append_toNat, hl, hr]; omega

/-- Settles O23: the errors of the shape, and the round of two halves. -/
theorem roundSwapsAndAddsF : Obligations.RoundSwapsAndAddsF := by
  intro s
  refine ⟨keyed_failsWith_malformed (exec_round s), keyed_failsWith_sboxEmpty (exec_round s),
    fun t1 t2 hopa hopb h1 h2 l r k hl hr hk => ?_⟩
  have hkey : bitString 8 s.core.opb = k := by
    rw [bitString_eq, ← hk, BitVec.ofNat_toNat, BitVec.setWidth_eq]
  have hround := keyed_completesWith (exec_round s) hopa hopb h1 h2
  rwa [bitString_12_eq_append hopa hl hr, hkey, feistelRound_append] at hround

/-- Settles O24: the second round adds the same F of the same half, which cancels. -/
theorem swappedRoundUndoesRound : Obligations.SwappedRoundUndoesRound := by
  intro t1 t2 b k
  obtain ⟨l, r, rfl⟩ := exists_halves b
  calc swapHalves (feistelRound t1 t2 (swapHalves (feistelRound t1 t2 (l ++ r) k)) k)
      = (l ^^^ fFunction t1 t2 r k ^^^ fFunction t1 t2 r k) ++ r := by simp only [feistelRound_append, swapHalves_append]
    _ = l ++ r := by rw [BitVec.xor_assoc, BitVec.xor_self, BitVec.xor_zero]

/-! ### The shape of ENCBLK and DECBLK -/

/-- The result of a command that computes f from both tables, the key stream, ROUNDS and the block in OPA
(44_feistel R231, R233). -/
def blockResult (f : Table → Table → KeyStream → Nat → Block → Block) (cfg : Config) (c : CoreState) :
    Except ErrorCode Result := do
  require (fits 12 c.opa) .malformed
  let (k, t1, t2) ← cipherKey cfg c
  return Result.ofBits (f t1 t2 k c.rounds.toNat (bitString 12 c.opa))

theorem exec_encblk (s : State) :
    exec .encblk s = .next (s.onCore fun c => c.complete (blockResult encBlock s.cfg c)) := rfl

theorem exec_decblk (s : State) :
    exec .decblk s = .next (s.onCore fun c => c.complete (blockResult decBlock s.cfg c)) := rfl

section CipherKey

variable {cfg : Config} {c : CoreState}

theorem cipherKey_of_keyStream_error {e : ErrorCode} (h : keyStream cfg c = .error e) : cipherKey cfg c = .error e := by
  rw [cipherKey, h, error_bind]

variable {k : KeyStream} (h : keyStream cfg c = .ok k)
include h

theorem cipherKey_of_empty (hempty : c.sbox1 = .empty ∨ c.sbox2 = .empty) : cipherKey cfg c = .error .sboxEmpty := by
  rw [cipherKey, h, ok_bind, bothTables_empty hempty, error_bind]

theorem cipherKey_of_loaded {t1 t2 : Table} (h1 : c.sbox1 = .loaded t1) (h2 : c.sbox2 = .loaded t2) :
    cipherKey cfg c = .ok (k, t1, t2) := by
  rw [cipherKey, h, ok_bind, bothTables_loaded h1 h2, ok_bind]; rfl

end CipherKey

section BlockResult

variable {i : Instr} {s : State} {f : Table → Table → KeyStream → Nat → Block → Block}
variable (hexec : exec i s = .next (s.onCore fun c => c.complete (blockResult f s.cfg c)))
include hexec

theorem block_failsWith_malformed (h : 4096 ≤ s.core.opa.toNat) : FailsWith i s .malformed :=
  failsWith_of_exec hexec (by
    have hfits : fits 12 s.core.opa = false := fits_eq_false.mpr h
    simp only [blockResult, hfits, require_false, error_bind])

/-- With a block that fits, the command fails as the key stream and the tables do (60_exceptions R303). -/
theorem block_failsWith_of_cipherKey {e : ErrorCode} (hopa : s.core.opa.toNat < 4096)
    (h : cipherKey s.cfg s.core = .error e) : FailsWith i s e :=
  failsWith_of_exec hexec (by
    have hfits : fits 12 s.core.opa = true := fits_eq_true.mpr hopa
    simp only [blockResult, hfits, h, require_true, ok_bind, error_bind])

theorem block_completesWith {k : KeyStream} {t1 t2 : Table} (hopa : s.core.opa.toNat < 4096)
    (hready : CipherReady s k t1 t2) :
    CompletesWith i s ((f t1 t2 k s.core.rounds.toNat (bitString 12 s.core.opa)).setWidth 32) 0#32 12 :=
  completesWith_of_exec hexec (by
    obtain ⟨hk, h1, h2⟩ := hready
    have hfits : fits 12 s.core.opa = true := fits_eq_true.mpr hopa
    simp only [blockResult, hfits, cipherKey_of_loaded hk h1 h2, require_true, ok_bind, pure_eq_ok, Result.ofBits])

/-- The errors of a block command, in their order (44_feistel R231, R233). -/
theorem block_errors :
    (4096 ≤ s.core.opa.toNat → FailsWith i s .malformed) ∧
    (∀ e, s.core.opa.toNat < 4096 → keyStream s.cfg s.core = .error e → FailsWith i s e) ∧
    (∀ k, s.core.opa.toNat < 4096 → keyStream s.cfg s.core = .ok k →
      s.core.sbox1 = .empty ∨ s.core.sbox2 = .empty → FailsWith i s .sboxEmpty) :=
  ⟨block_failsWith_malformed hexec,
    fun _ hopa hk => block_failsWith_of_cipherKey hexec hopa (cipherKey_of_keyStream_error hk),
    fun _ hopa hk hempty => block_failsWith_of_cipherKey hexec hopa (cipherKey_of_empty hk hempty)⟩

end BlockResult

/-! ### The rounds -/

/-- Halves that follow the recurrence of a round are the halves that the rounds make (44_feistel R222, R230). -/
theorem foldl_feistelRound_eq_append {t1 t2 : Table} {keys : Nat → Subkey} {l r : Nat → HalfBlock} {n : Nat}
    (h : ∀ i, i < n → l (i + 1) = r i ∧ r (i + 1) = l i ^^^ fFunction t1 t2 (r i) (keys i)) :
    ((List.range n).map keys).foldl (feistelRound t1 t2) (l 0 ++ r 0) = l n ++ r n := by
  induction n with
  | zero => rfl
  | succ n ih =>
    obtain ⟨hl, hr⟩ := h n (Nat.lt_succ_self n)
    rw [List.range_succ, List.map_append, List.foldl_append, ih fun i hi => h i (Nat.lt_succ_of_lt hi), hl, hr]
    exact feistelRound_append t1 t2 (l n) (r n) (keys n)

section Recurrence

variable {t1 t2 : Table} {k : KeyStream} {l r : Nat → HalfBlock} {n : Nat}

theorem encBlock_eq_append
    (h : ∀ i, i < n → l (i + 1) = r i ∧ r (i + 1) = l i ^^^ fFunction t1 t2 (r i) (subkey k (i + 1))) :
    encBlock t1 t2 k n (l 0 ++ r 0) = r n ++ l n := by
  rw [encBlock, roundKeys, foldl_feistelRound_eq_append h, swapHalves_append]

theorem decBlock_eq_append
    (h : ∀ i, i < n → l (i + 1) = r i ∧ r (i + 1) = l i ^^^ fFunction t1 t2 (r i) (subkey k (n - i))) :
    decBlock t1 t2 k n (l 0 ++ r 0) = r n ++ l n := by
  rw [decBlock, roundKeys_reverse, foldl_feistelRound_eq_append h, swapHalves_append]

end Recurrence

/-- Settles O25: the errors of the shape, and the rounds by the recurrence of their halves. -/
theorem encblkRunsTheRounds : Obligations.EncblkRunsTheRounds := by
  intro s
  obtain ⟨hmalformed, hkeyStream, hempty⟩ := block_errors (exec_encblk s)
  refine ⟨hmalformed, hkeyStream, hempty, fun k t1 t2 l r hopa hready hl hr hrec => ?_⟩
  have hblock := block_completesWith (exec_encblk s) hopa hready
  rwa [bitString_12_eq_append hopa hl hr, encBlock_eq_append fun i _ => hrec i] at hblock

/-- Settles O26: the errors of the shape, and the rounds with the subkeys from the last to the first. -/
theorem decblkRunsTheRoundsBackwards : Obligations.DecblkRunsTheRoundsBackwards := by
  intro s
  obtain ⟨hmalformed, hkeyStream, hempty⟩ := block_errors (exec_decblk s)
  refine ⟨hmalformed, hkeyStream, hempty, fun k t1 t2 l r hopa hready hl hr hrec => ?_⟩
  have hblock := block_completesWith (exec_decblk s) hopa hready
  rwa [bitString_12_eq_append hopa hl hr, decBlock_eq_append hrec] at hblock

/-! ### The round trip -/

/-- The rounds with the subkeys in the opposite order, between two swaps, undo the rounds one after the other: the last
round made is the first undone (44_feistel R224, R234). -/
theorem swapped_rounds_undo_rounds (t1 t2 : Table) (keys : List Subkey) (b : Block) :
    swapHalves (keys.reverse.foldl (feistelRound t1 t2) (swapHalves (keys.foldl (feistelRound t1 t2) b))) = b := by
  induction keys generalizing b with
  | nil => exact swapHalves_swapHalves b
  | cons k keys ih =>
    have hrest : keys.reverse.foldl (feistelRound t1 t2) (swapHalves (keys.foldl (feistelRound t1 t2)
        (feistelRound t1 t2 b k))) = swapHalves (feistelRound t1 t2 b k) := by
      rw [← ih (feistelRound t1 t2 b k), swapHalves_swapHalves, ih]
    rw [List.foldl_cons, List.reverse_cons, List.foldl_append, hrest]
    exact swappedRoundUndoesRound t1 t2 b k

theorem decBlock_encBlock (t1 t2 : Table) (k : KeyStream) (n : Nat) (b : Block) :
    decBlock t1 t2 k n (encBlock t1 t2 k n b) = b :=
  swapped_rounds_undo_rounds t1 t2 (roundKeys k n) b

theorem encBlock_decBlock (t1 t2 : Table) (k : KeyStream) (n : Nat) (b : Block) :
    encBlock t1 t2 k n (decBlock t1 t2 k n b) = b := by
  have h := swapped_rounds_undo_rounds t1 t2 (roundKeys k n).reverse b
  rwa [List.reverse_reverse] at h

/-- A block in a register is read back as it is (10_state R22). -/
theorem bitString_12_setWidth (b : Block) : bitString 12 (b.setWidth 32) = b := by
  rw [bitString_eq, BitVec.toNat_setWidth_of_le (by decide), BitVec.ofNat_toNat, BitVec.setWidth_eq]

/-- A command whose block function g undoes f, run on the result of a command with f, writes the first block back: neither
command changes the configuration (44_feistel R234). -/
theorem block_writes_back {i j : Instr} {f g : Table → Table → KeyStream → Nat → Block → Block}
    (hi : ∀ s, exec i s = .next (s.onCore fun c => c.complete (blockResult f s.cfg c)))
    (hj : ∀ s, exec j s = .next (s.onCore fun c => c.complete (blockResult g s.cfg c)))
    (hundo : ∀ t1 t2 k n b, g t1 t2 k n (f t1 t2 k n b) = b) {s : State} {k : KeyStream} {t1 t2 : Table}
    (hopa : s.core.opa.toNat < 4096) (hready : CipherReady s k t1 t2) :
    ∃ t, exec i s = .next t ∧ t.core.err = false ∧
      ∃ u, exec j { t with core := { t.core with opa := t.core.res0 } } = .next u ∧
        u.core.err = false ∧ u.core.res0 = s.core.opa := by
  obtain ⟨b, hb⟩ : ∃ b, f t1 t2 k s.core.rounds.toNat (bitString 12 s.core.opa) = b := ⟨_, rfl⟩
  have hfirst := block_completesWith (hi s) hopa hready
  rw [hb] at hfirst
  have hfits : (b.setWidth 32).toNat < 4096 := (BitVec.toNat_setWidth_of_le (by decide)).trans_lt b.isLt
  have hback : (g t1 t2 k s.core.rounds.toNat (bitString 12 (b.setWidth 32))).setWidth 32 = s.core.opa := by
    rw [bitString_12_setWidth, ← hb, hundo, bitString_setWidth_of_fits (by decide) (fits_eq_true.mpr hopa)]
  obtain ⟨hk, h1, h2⟩ := hready
  exact ⟨_, hfirst, rfl, _, block_completesWith (hj _) hfits ⟨hk, h1, h2⟩, rfl, hback⟩

/-- Settles O27: each block function undoes the other. -/
theorem blockRoundTrip : Obligations.BlockRoundTrip := fun _ _ _ _ hopa hready =>
  ⟨block_writes_back exec_encblk exec_decblk decBlock_encBlock hopa hready,
    block_writes_back exec_decblk exec_encblk encBlock_decBlock hopa hready⟩

end Sys2Proof.Machine
end

section
/-! PROOFS. 45_modes: the symbols, reinsertion, the two modes of chaining, and the text commands. ENCRYPT and DECRYPT share
`cryptText`: `cryptText_eq_ok` says what it makes of a text, and `textCompletesWith_of_ok` and `textFailsWith_of_error` what
the command then leaves. -/

namespace Sys2Proof.Machine

open Sys2Proof.Statement

/-! ### IVGEN -/

/-- The runs of R250, cut after twelve bits. -/
theorem iv_eq : iv = 0x9C3#12 := by decide

theorem exec_ivgen (s : State) : exec .ivgen s = .next (s.onCore fun c => c.complete (.ok (Result.ofBits iv))) := rfl

/-- Settles O28: the twelve bits written out have the value of the IV. -/
theorem ivgenWritesTheIv : Obligations.IvgenWritesTheIv := by
  intro s
  have hbits : BitVec.ofNat 32 (bitsValue ([true] ++ [false, false] ++ [true, true, true] ++ [false, false, false, false]
      ++ [true, true])) = iv.setWidth 32 := by decide
  rw [hbits]
  exact completesWith_of_exec (exec_ivgen s) rfl

/-! ### Symbols -/

theorem inAlphabet_iff {cfg : Config} {ch : Word} : inAlphabet cfg ch = true ↔ ch ∈ cfg.alphabet := decide_eq_true_iff

section Symbols

variable {cfg : Config} (hw : cfg.wf = true)
include hw

/-- ALPHABET has 64 symbols, no two the same (00_scope R5). -/
theorem alphabet_of_wf : cfg.alphabet.length = 64 ∧ cfg.alphabet.Nodup := by
  simp only [Config.wf, Bool.and_eq_true, decide_eq_true_eq, and_assoc] at hw
  obtain ⟨hlength, hnodup, -⟩ := hw
  exact ⟨hlength, hnodup⟩

/-- Every 6-bit value is an index of ALPHABET (00_scope R8). -/
theorem alphabet_getElem?_toNat (c : HalfBlock) : cfg.alphabet[c.toNat]? = some (symOf cfg c) := by
  have hc : c.toNat < cfg.alphabet.length := c.isLt.trans_eq (alphabet_of_wf hw).1.symm
  rw [symOf, List.getD_eq_getElem _ _ hc, List.getElem?_eq_getElem hc]

theorem symOf_mem (c : HalfBlock) : symOf cfg c ∈ cfg.alphabet := List.mem_of_getElem? (alphabet_getElem?_toNat hw c)

/-- The symbols are pairwise different, so a symbol's first index is its code (45_modes R252). -/
theorem codeOf_symOf (c : HalfBlock) : codeOf cfg (symOf cfg c) = c := by
  obtain ⟨hc, hsym⟩ := List.getElem?_eq_some_iff.mp (alphabet_getElem?_toNat hw c)
  rw [codeOf, ← hsym, (alphabet_of_wf hw).2.idxOf_getElem _ hc, BitVec.ofNat_toNat, BitVec.setWidth_eq]

/-- The index of a symbol is below 64, so its code keeps it whole (45_modes R252). -/
theorem symOf_codeOf {ch : Word} (h : ch ∈ cfg.alphabet) : symOf cfg (codeOf cfg ch) = ch := by
  have hidx : cfg.alphabet.idxOf ch < cfg.alphabet.length := List.idxOf_lt_length_iff.mpr h
  have hcode : (codeOf cfg ch).toNat = cfg.alphabet.idxOf ch :=
    Nat.mod_eq_of_lt (hidx.trans_eq (alphabet_of_wf hw).1)
  rw [symOf, hcode, List.getD_eq_getElem _ _ hidx, List.getElem_idxOf hidx]

end Symbols

/-- Settles O29, from the two inverse laws. -/
theorem codeAndSymAreInverse : Obligations.CodeAndSymAreInverse := fun _ hw =>
  ⟨fun c => ⟨symOf_mem hw c, codeOf_symOf hw c⟩, fun _ => symOf_codeOf hw⟩

/-! ### Reinsertion -/

theorem cleanText_cons_in {cfg : Config} {ch : Word} (h : inAlphabet cfg ch = true) (t : List Word) :
    cleanText cfg (ch :: t) = ch :: cleanText cfg t := List.filter_cons_of_pos h

theorem cleanText_cons_out {cfg : Config} {ch : Word} (h : ¬inAlphabet cfg ch = true) (t : List Word) :
    cleanText cfg (ch :: t) = cleanText cfg t := List.filter_cons_of_neg h

/-- The characters beyond the clean text come after the text (45_modes R256, R257). -/
theorem insertPositions_cleanText_append (cfg : Config) (t rest : List Word) :
    insertPositions (cleanText cfg t ++ rest) (getPositions cfg t) = t ++ rest := by
  induction t with
  | nil => rfl
  | cons ch t ih =>
    by_cases h : inAlphabet cfg ch = true
    · rw [cleanText_cons_in h, List.cons_append, insertPositions_in h, ih, List.cons_append]
    · rw [cleanText_cons_out h, insertPositions_out h, ih, List.cons_append]

theorem insertPositions_cleanText (cfg : Config) (t : List Word) :
    insertPositions (cleanText cfg t) (getPositions cfg t) = t := by
  simpa using insertPositions_cleanText_append cfg t []

/-- Settles O30: nothing lies beyond the clean text. -/
theorem reinsertionRestoresTheText : Obligations.ReinsertionRestoresTheText := insertPositions_cleanText

/-- Symbols reinserted into a text, at least as many as its own, are the clean text of the outcome, and the
out-of-alphabet characters stand where the text has them (45_modes R256, R268). -/
theorem cleanText_getPositions_insertPositions {cfg : Config} {o : List Word} (ho : ∀ ch ∈ o, ch ∈ cfg.alphabet)
    {t : List Word} (hlen : (cleanText cfg t).length ≤ o.length) :
    cleanText cfg (insertPositions o (getPositions cfg t)) = o ∧
    getPositions cfg (insertPositions o (getPositions cfg t)) = getPositions cfg t := by
  induction t generalizing o with
  | nil =>
    refine ⟨List.filter_eq_self.mpr fun ch hch => inAlphabet_iff.mpr (ho ch hch), List.filter_eq_nil_iff.mpr ?_⟩
    intro p hp
    have hmem : p.1 ∈ o := List.mem_of_getElem? (List.mem_zipIdx_iff_getElem?.mp hp)
    simpa [inAlphabet_iff] using ho p.1 hmem
  | cons ch t ih =>
    by_cases h : inAlphabet cfg ch = true
    · rw [cleanText_cons_in h, List.length_cons] at hlen
      cases o with
      | nil => cases hlen
      | cons x o =>
        obtain ⟨hx, ho⟩ := List.forall_mem_cons.mp ho
        have hx : inAlphabet cfg x = true := inAlphabet_iff.mpr hx
        obtain ⟨hclean, hpos⟩ := ih ho (Nat.le_of_succ_le_succ hlen)
        rw [insertPositions_in h, cleanText_cons_in hx, hclean, getPositions_cons, getPositions_cons, hpos, if_pos hx,
          if_pos h]
        exact ⟨rfl, rfl⟩
    · rw [cleanText_cons_out h] at hlen
      obtain ⟨hclean, hpos⟩ := ih ho hlen
      rw [insertPositions_out h, cleanText_cons_out h, hclean, getPositions_cons, getPositions_cons, hpos]
      exact ⟨rfl, rfl⟩

theorem mem_getPositions {cfg : Config} {t : List Word} {ch : Word} {j : Nat} :
    (ch, j) ∈ getPositions cfg t ↔ t[j]? = some ch ∧ ch ∉ cfg.alphabet := by
  rw [getPositions, List.mem_filter, List.mk_mem_zipIdx_iff_getElem?]
  simp [inAlphabet]

/-- Two texts with the same positions have the same out-of-alphabet characters at the same indices (45_modes R254). -/
theorem keepsForeign_of_getPositions_eq {s : State} {t out : List Word}
    (h : getPositions s.cfg out = getPositions s.cfg t) : KeepsForeign s t out := by
  have hsame (j : Nat) (ch : Word) : out[j]? = some ch ∧ ch ∉ s.cfg.alphabet ↔ t[j]? = some ch ∧ ch ∉ s.cfg.alphabet := by
    rw [← mem_getPositions, h, mem_getPositions]
  exact ⟨fun j ch ht hch => ((hsame j ch).mpr ⟨ht, hch⟩).1, fun j ch hout hch => ((hsame j ch).mp ⟨hout, hch⟩).1⟩

/-! ### The pad and the strip -/

theorem padText_eq (pad : Word) (c : List Word) : padText pad c = c ++ List.replicate (c.length % 2) pad := by
  obtain h | h := Nat.mod_two_eq_zero_or_one c.length <;> simp [padText, h]

/-- An even clean text gets no pad (45_modes R257). -/
theorem padText_of_even (pad : Word) {c : List Word} (h : c.length % 2 = 0) : padText pad c = c := by
  simp [padText, h]

theorem stripPad_append_replicate (pad : Word) (t : List Word) (n : Nat) :
    stripPad pad (t ++ List.replicate n pad) = stripPad pad t := by
  rw [stripPad, List.reverse_append, List.reverse_replicate, List.dropWhile_append_of_pos (by simp), stripPad]

/-- The strip leaves exactly the texts that do not end in PAD (45_modes R261). -/
theorem stripPad_eq_self_iff (pad : Word) (t : List Word) : stripPad pad t = t ↔ t.getLast? ≠ some pad := by
  obtain ⟨n, ht, hlast⟩ := stripPad_spec pad t
  refine ⟨fun h => h ▸ hlast, fun h => ?_⟩
  cases n with
  | zero => simpa using ht.symm
  | succ n =>
    refine absurd ?_ h
    rw [ht, List.replicate_succ', ← List.append_assoc, List.getLast?_concat]

/-! ### Blocks and symbols -/

/-- The block of the symbols 2b and 2b + 1 of a padded clean text (45_modes R258). -/
def blockAt (cfg : Config) (c : List Word) (b : Nat) : Block :=
  codeOf cfg (c.getD (2 * b) 0#32) ++ codeOf cfg (c.getD (2 * b + 1) 0#32)

theorem blocksOf_getD {cfg : Config} {c : List Word} {b : Nat} (hb : b < (blocksOf cfg c).length) :
    (blocksOf cfg c).getD b 0#12 = blockAt cfg c b := by
  rw [List.getD_eq_getElem _ _ hb]
  exact blocksOf_getElem? cfg c b _ (List.getElem?_eq_getElem hb)

/-- A padded clean text has a block for every two symbols (45_modes R258). -/
theorem length_blocksOf_padText (cfg : Config) (pad : Word) (c : List Word) :
    2 * (blocksOf cfg (padText pad c)).length = c.length + c.length % 2 := by
  have hpad := padText_length pad c
  rw [blocksOf_length cfg _ (by omega), hpad]

section Inverse

variable {cfg : Config} (hw : cfg.wf = true)
include hw

theorem mem_alphabet_of_mem_symbolsOf {xs : List Block} {ch : Word} (h : ch ∈ symbolsOf cfg xs) : ch ∈ cfg.alphabet := by
  induction xs with
  | nil => cases h
  | cons x xs ih =>
    rw [symbolsOf, List.mem_cons, List.mem_cons] at h
    obtain rfl | rfl | h := h
    · exact symOf_mem hw _
    · exact symOf_mem hw _
    · exact ih h

theorem blocksOf_symbolsOf (xs : List Block) : blocksOf cfg (symbolsOf cfg xs) = xs := by
  induction xs with
  | nil => rfl
  | cons x xs ih => rw [symbolsOf, blocksOf, codeOf_symOf hw, codeOf_symOf hw, halves_append, ih]

theorem symbolsOf_blocksOf : ∀ {c : List Word}, c.length % 2 = 0 → (∀ ch ∈ c, ch ∈ cfg.alphabet) →
    symbolsOf cfg (blocksOf cfg c) = c
  | [], _, _ => rfl
  | [_], heven, _ => by cases heven
  | a :: b :: rest, heven, hmem => by
    obtain ⟨ha, hb, hrest⟩ : a ∈ cfg.alphabet ∧ b ∈ cfg.alphabet ∧ ∀ ch ∈ rest, ch ∈ cfg.alphabet := by
      simpa using hmem
    have heven : rest.length % 2 = 0 := by rw [List.length_cons, List.length_cons] at heven; omega
    rw [blocksOf, symbolsOf, leftHalf_append, rightHalf_append, symOf_codeOf hw ha, symOf_codeOf hw hb,
      symbolsOf_blocksOf heven hrest]

end Inverse

/-! ### The chaining modes -/

/-- The encryption of a supported mode (45_modes R259, R260). -/
def encryptionOf (mode : Mode) : Transform := if mode = .ecb then ecbEncryption else cbcEncryption

/-- The decryption of a supported mode (45_modes R259, R260). -/
def decryptionOf (mode : Mode) : Transform := if mode = .ecb then ecbDecryption else cbcDecryption

section Supported

variable {mode : Mode} (hmode : mode = .ecb ∨ mode = .cbc) (s : State)
include hmode

theorem exec_encrypt_supported :
    exec (.encrypt mode) s = textCommand (fun c => encryptText s.cfg c (encryptionOf mode)) s := by
  obtain rfl | rfl := hmode <;> rfl

theorem exec_decrypt_supported :
    exec (.decrypt mode) s = textCommand (fun c => decryptText s.cfg c (decryptionOf mode)) s := by
  obtain rfl | rfl := hmode <;> rfl

end Supported

section Chaining

variable (mode : Mode) (f : Block → Block) (bs : List Block)

@[simp] theorem encryptionOf_block : (encryptionOf mode).block = encBlock := by unfold encryptionOf; split <;> rfl

@[simp] theorem decryptionOf_block : (decryptionOf mode).block = decBlock := by unfold decryptionOf; split <;> rfl

@[simp] theorem encryptionOf_length : ((encryptionOf mode).chain f bs).length = bs.length := by
  unfold encryptionOf
  split
  · exact List.length_map _
  · exact cbcEncrypt_length f iv bs

@[simp] theorem decryptionOf_length : ((decryptionOf mode).chain f bs).length = bs.length := by
  unfold decryptionOf
  split
  · exact List.length_map _
  · exact cbcDecrypt_length f iv bs

variable {bs} {b : Nat}

theorem ecbCrypt_getD (hb : b < bs.length) : (ecbCrypt f bs).getD b 0#12 = f (bs.getD b 0#12) := by
  simp [ecbCrypt, List.getD_eq_getElem?_getD, List.getElem?_eq_getElem hb]

/-- The chain value of block b is the output block before it (45_modes R260). -/
theorem cbcEncrypt_getD {chain : Block} (hb : b < bs.length) : (cbcEncrypt f chain bs).getD b 0#12 =
    f (bs.getD b 0#12 ^^^ if b = 0 then chain else (cbcEncrypt f chain bs).getD (b - 1) 0#12) := by
  induction bs generalizing chain b with
  | nil => cases hb
  | cons x bs ih =>
    cases b with
    | zero => rfl
    | succ b =>
      have htail := ih (chain := f (x ^^^ chain)) (Nat.lt_of_succ_lt_succ hb)
      rw [cbcEncrypt, List.getD_cons_succ, List.getD_cons_succ, htail]
      cases b <;> rfl

/-- The chain value of block b is the input block before it (45_modes R260). -/
theorem cbcDecrypt_getD {chain : Block} (hb : b < bs.length) : (cbcDecrypt f chain bs).getD b 0#12 =
    f (bs.getD b 0#12) ^^^ if b = 0 then chain else bs.getD (b - 1) 0#12 := by
  induction bs generalizing chain b with
  | nil => cases hb
  | cons x bs ih =>
    cases b with
    | zero => rfl
    | succ b =>
      rw [cbcDecrypt, List.getD_cons_succ, List.getD_cons_succ, ih (Nat.lt_of_succ_lt_succ hb)]
      cases b <;> rfl

theorem encryptionOf_getD (hb : b < bs.length) : ((encryptionOf mode).chain f bs).getD b 0#12 =
    if mode = .ecb then f (bs.getD b 0#12)
    else f (bs.getD b 0#12 ^^^ if b = 0 then 0x9C3#12 else ((encryptionOf mode).chain f bs).getD (b - 1) 0#12) := by
  unfold encryptionOf
  split
  · exact ecbCrypt_getD f hb
  · rw [← iv_eq]; exact cbcEncrypt_getD f hb

theorem decryptionOf_getD (hb : b < bs.length) : ((decryptionOf mode).chain f bs).getD b 0#12 =
    if mode = .ecb then f (bs.getD b 0#12)
    else f (bs.getD b 0#12) ^^^ if b = 0 then 0x9C3#12 else bs.getD (b - 1) 0#12 := by
  unfold decryptionOf
  split
  · exact ecbCrypt_getD f hb
  · rw [← iv_eq]; exact cbcDecrypt_getD f hb

end Chaining

section ChainInverse

variable {enc dec : Block → Block} (hinv : ∀ b, dec (enc b) = b) (bs : List Block)
include hinv

theorem cbcDecrypt_cbcEncrypt (chain : Block) : cbcDecrypt dec chain (cbcEncrypt enc chain bs) = bs := by
  induction bs generalizing chain with
  | nil => rfl
  | cons b bs ih => rw [cbcEncrypt, cbcDecrypt, ih, hinv, BitVec.xor_assoc, BitVec.xor_self, BitVec.xor_zero]

/-- Decryption undoes the encryption of the same mode, block by block (45_modes R259, R260). -/
theorem decryptionOf_encryptionOf (mode : Mode) :
    (decryptionOf mode).chain dec ((encryptionOf mode).chain enc bs) = bs := by
  unfold decryptionOf encryptionOf
  split
  · exact (List.map_map ..).trans ((List.map_congr_left fun b _ => hinv b).trans (List.map_id bs))
  · exact cbcDecrypt_cbcEncrypt hinv bs iv

end ChainInverse

/-! ### The text that a command makes -/

section CryptText

variable {cfg : Config} {c : CoreState} {f : Transform} {t : List Word}

/-- A text with no alphabet symbol is its own outcome: there is no block, and nothing else is looked at (45_modes R267). -/
theorem cryptText_of_no_symbol (h : ∀ ch ∈ t, ch ∉ cfg.alphabet) : cryptText cfg c f t = .ok t := by
  have hclean : cleanText cfg t = [] := cleanText_eq_nil.mpr h
  have hcopy := insertPositions_cleanText cfg t
  rw [hclean] at hcopy
  simp [cryptText, hclean, padText, blocksOf, hcopy]

/-- A text with an alphabet symbol has a block (45_modes R257, R258). -/
theorem blocksOf_ne_nil {pad : Word} (h : ∃ ch ∈ t, ch ∈ cfg.alphabet) :
    blocksOf cfg (padText pad (cleanText cfg t)) ≠ [] := by
  obtain ⟨ch, hch, hmem⟩ := h
  have hpos : 0 < (cleanText cfg t).length := List.length_pos_of_mem (List.mem_filter.mpr ⟨hch, inAlphabet_iff.mpr hmem⟩)
  have hlen := length_blocksOf_padText cfg pad (cleanText cfg t)
  intro hnil
  rw [hnil, List.length_nil] at hlen
  omega

theorem cryptText_eq_error {e : ErrorCode} (h : ∃ ch ∈ t, ch ∈ cfg.alphabet) (he : cipherKey cfg c = .error e) :
    cryptText cfg c f t = .error e := by
  unfold cryptText
  split
  · next hnil => exact absurd hnil (blocksOf_ne_nil h)
  · rw [he, error_bind]

/-- With the key stream and the tables there, the blocks are transformed and their symbols reinserted
(45_modes R263, R266). -/
theorem cryptText_eq_ok {k : KeyStream} {t1 t2 : Table} (hf : ∀ g bs, (f.chain g bs).length = bs.length)
    (hkey : cipherKey cfg c = .ok (k, t1, t2)) :
    cryptText cfg c f t = .ok (insertPositions (symbolsOf cfg (f.chain (f.block t1 t2 k c.rounds.toNat)
      (blocksOf cfg (padText c.pad (cleanText cfg t))))) (getPositions cfg t)) := by
  unfold cryptText
  split
  · next hnil =>
    have hchain (g) : f.chain g [] = [] := List.eq_nil_of_length_eq_zero (hf g [])
    rw [hnil, hchain]; rfl
  · next b bs hbs => rw [hbs, hkey]; rfl

theorem decryptText_eq_ok {out : List Word} (h : cryptText cfg c f t = .ok out) :
    decryptText cfg c f t = .ok (stripPad c.pad out) := by
  rw [decryptText, h]; rfl

theorem decryptText_eq_error {e : ErrorCode} (h : cryptText cfg c f t = .error e) :
    decryptText cfg c f t = .error e := by
  rw [decryptText, h]; rfl

end CryptText

/-- The blocks xs reinserted into t, a block for every two symbols of its padded clean text: their symbols are the clean
text of the outcome, and the positions are those of t (45_modes R256, R268). -/
theorem cleanText_getPositions_symbolsOf {cfg : Config} (hw : cfg.wf = true) {t : List Word} {xs : List Block}
    (hlen : 2 * xs.length = (cleanText cfg t).length + (cleanText cfg t).length % 2) :
    cleanText cfg (insertPositions (symbolsOf cfg xs) (getPositions cfg t)) = symbolsOf cfg xs ∧
    getPositions cfg (insertPositions (symbolsOf cfg xs) (getPositions cfg t)) = getPositions cfg t :=
  cleanText_getPositions_insertPositions (fun _ => mem_alphabet_of_mem_symbolsOf hw)
    (by rw [symbolsOf_length, hlen]; omega)

theorem length_insertPositions_symbolsOf {cfg : Config} {t : List Word} {xs : List Block}
    (hlen : 2 * xs.length = (cleanText cfg t).length + (cleanText cfg t).length % 2) :
    (insertPositions (symbolsOf cfg xs) (getPositions cfg t)).length = t.length + (cleanText cfg t).length % 2 := by
  have hsplit := cleanText_length_add_getPositions_length cfg t
  rw [insertPositions_length, symbolsOf_length, hlen]; omega

theorem showsBlocks_of_cleanText_eq {s : State} (hw : s.cfg.wf = true) {out : List Word} {xs : List Block}
    (h : cleanText s.cfg out = symbolsOf s.cfg xs) : ShowsBlocks s out xs := by
  have hfilter : out.filter (· ∈ s.cfg.alphabet) = symbolsOf s.cfg xs := h
  rw [ShowsBlocks, hfilter]
  refine ⟨symbolsOf_length s.cfg xs, fun b x hx => ?_⟩
  obtain ⟨hleft, hright⟩ := symbolsOf_getElem? s.cfg xs b x hx
  exact ⟨hleft.trans (alphabet_getElem?_toNat hw _).symm, hright.trans (alphabet_getElem?_toNat hw _).symm⟩

theorem eq_padText_of_paddedClean {s : State} {t c : List Word} (h : PaddedClean s t c) :
    c = padText s.core.pad (cleanText s.cfg t) := by
  have hclean : t.filter (· ∈ s.cfg.alphabet) = cleanText s.cfg t := rfl
  rw [h, hclean, padText]
  split <;> simp

/-! ### What a text command leaves -/

section TextOutcome

variable {i : Instr} {s : State} {t : List Word} {run : CoreState → List Word → Except ErrorCode (List Word)}

theorem readText_of_inputText (h : InputText s t) : s.core.tin.readText 0 s.core.inLen.toNat = some t := by
  obtain ⟨hlen, hread⟩ := h
  refine Buffer.readText_eq_some.mpr ⟨hlen, fun j hj => ?_⟩
  rw [Nat.zero_add]
  exact hread j (hj.trans_eq hlen.symm)

variable (hexec : exec i s = textCommand run s) (hlen : s.core.inLen.toNat ≤ s.cfg.textMax) (htext : InputText s t)
include hexec hlen htext

theorem textCompletesWith_of_ok {out : List Word} (hrun : run s.core t = .ok out) : TextCompletesWith i s out := by
  refine ⟨s.core.tout.writeText 0 out, ?_, fun j => ?_⟩
  · rw [hexec, textCommand_ok hlen (readText_of_inputText htext) hrun]; rfl
  · rw [Buffer.read_writeText, Nat.zero_add, Nat.sub_zero]
    simp only [Nat.zero_le, true_and]

theorem textFailsWith_of_error {e : ErrorCode} (hrun : run s.core t = .error e) : TextFailsWith i s e := by
  rw [TextFailsWith, hexec, textCommand_error hlen (readText_of_inputText htext) hrun]; rfl

end TextOutcome

/-- What `cryptText` makes of a text with the tables and the key stream there: the transformed blocks' symbols, the
out-of-alphabet characters in place, and the length of the padded text (45_modes R256 to R258, R268). -/
theorem cryptText_transforms {s : State} {t c : List Word} {k : KeyStream} {t1 t2 : Table} {f : Transform}
    (hw : s.cfg.wf = true) (hready : CipherReady s k t1 t2) (hc : PaddedClean s t c)
    (hf : ∀ g bs, (f.chain g bs).length = bs.length) {xs : List Block}
    (hxs : xs = f.chain (f.block t1 t2 k s.core.rounds.toNat) (blocksOf s.cfg c)) :
    ∃ out, cryptText s.cfg s.core f t = .ok out ∧ ShowsBlocks s out xs ∧ KeepsForeign s t out ∧
      out.length = t.length + (t.filter (· ∈ s.cfg.alphabet)).length % 2 ∧ 2 * xs.length = c.length := by
  obtain ⟨hk, h1, h2⟩ := hready
  obtain rfl := eq_padText_of_paddedClean hc
  have hlen : 2 * xs.length = (cleanText s.cfg t).length + (cleanText s.cfg t).length % 2 := by
    rw [hxs, hf, length_blocksOf_padText]
  obtain ⟨hclean, hpos⟩ := cleanText_getPositions_symbolsOf hw hlen
  refine ⟨insertPositions (symbolsOf s.cfg xs) (getPositions s.cfg t), ?_, showsBlocks_of_cleanText_eq hw hclean,
    keepsForeign_of_getPositions_eq hpos, length_insertPositions_symbolsOf hlen, hlen.trans (padText_length ..).symm⟩
  rw [hxs]
  exact cryptText_eq_ok hf (cipherKey_of_loaded hk h1 h2)

/-- A block that the list has at b is its entry b, whatever the default. -/
theorem lt_and_getD_of_getElem? {xs : List Block} {b : Nat} {x : Block} (hx : xs[b]? = some x) :
    b < xs.length ∧ x = xs.getD b 0#12 := by
  obtain ⟨hb, hx⟩ := List.getElem?_eq_some_iff.mp hx
  exact ⟨hb, by rw [List.getD_eq_getElem _ _ hb, hx]⟩

/-- Settles O31: the encrypted blocks, reinserted. -/
theorem encryptTransformsTheText : Obligations.EncryptTransformsTheText := by
  intro s t c k t1 t2 hinv htext hlen _ hready hc block enc mode hmode
  obtain ⟨out, hout, hshows, hforeign, houtLen, hxsLen⟩ :=
    cryptText_transforms hinv.1 hready hc (encryptionOf_length mode) rfl
  refine ⟨out, _, textCompletesWith_of_ok (exec_encrypt_supported hmode s) hlen htext hout, hshows, hforeign, houtLen,
    hxsLen, fun b x hx => ?_⟩
  obtain ⟨hb, rfl⟩ := lt_and_getD_of_getElem? hx
  rw [encryptionOf_length] at hb
  rw [encryptionOf_getD mode _ hb, blocksOf_getD hb, encryptionOf_block]
  rfl

/-- Settles O32: the decrypted blocks, reinserted and stripped. -/
theorem decryptTransformsTheText : Obligations.DecryptTransformsTheText := by
  intro s t c k t1 t2 hinv htext hlen _ hready hc block dec mode hmode
  obtain ⟨raw, hraw, hshows, hforeign, hrawLen, hxsLen⟩ :=
    cryptText_transforms hinv.1 hready hc (decryptionOf_length mode) rfl
  obtain ⟨n, hstrip, hlast⟩ := stripPad_spec s.core.pad raw
  refine ⟨raw, stripPad s.core.pad raw, n, _,
    textCompletesWith_of_ok (exec_decrypt_supported hmode s) hlen htext (decryptText_eq_ok hraw), hshows, hforeign, hrawLen,
    hxsLen, hstrip, hlast, fun b x hx => ?_⟩
  obtain ⟨hb, rfl⟩ := lt_and_getD_of_getElem? hx
  rw [decryptionOf_length] at hb
  rw [decryptionOf_getD mode _ hb, blocksOf_getD hb, blocksOf_getD ((Nat.sub_le b 1).trans_lt hb), decryptionOf_block]
  rfl

/-- Settles O33: no block is made, and the text cannot end in PAD, which is a symbol. -/
theorem textWithoutSymbolsIsCopied : Obligations.TextWithoutSymbolsIsCopied := by
  intro s t mode hinv htext hlen hnone hmode
  obtain ⟨-, ⟨-, -, -, hpad⟩, -, -⟩ := hinv
  have hlast : t.getLast? ≠ some s.core.pad := fun h => hnone _ (List.mem_of_getLast? h) hpad
  have hstrip : stripPad s.core.pad t = t := (stripPad_eq_self_iff _ t).mpr hlast
  refine ⟨textCompletesWith_of_ok (exec_encrypt_supported hmode s) hlen htext (cryptText_of_no_symbol hnone),
    textCompletesWith_of_ok (exec_decrypt_supported hmode s) hlen htext ?_⟩
  rw [decryptText_eq_ok (cryptText_of_no_symbol hnone), hstrip]

/-! ### The errors of the text commands -/

/-- In a supported mode a failure of the transformation is the command's failure (45_modes R263, R266). -/
theorem exec_text_transform {i : Instr} {mode : Mode} (h : i = .encrypt mode ∨ i = .decrypt mode)
    (hmode : mode = .ecb ∨ mode = .cbc) (s : State) :
    ∃ f run, exec i s = textCommand run s ∧
      ∀ t e, cryptText s.cfg s.core f t = .error e → run s.core t = .error e := by
  obtain rfl | rfl := h
  · exact ⟨encryptionOf mode, _, exec_encrypt_supported hmode s, fun _ _ he => he⟩
  · exact ⟨decryptionOf mode, _, exec_decrypt_supported hmode s, fun _ _ => decryptText_eq_error⟩

theorem textFailsWith_badMode {i : Instr} {n : BitVec 4} (h : i = .encrypt (.other n) ∨ i = .decrypt (.other n))
    (s : State) : TextFailsWith i s .badMode := by
  obtain rfl | rfl := h <;> rfl

/-- Settles O34: the checks of mode and length, then what the cipher finds of the key stream and the tables. -/
theorem textCommandsReportTheFirstError : Obligations.TextCommandsReportTheFirstError := by
  intro s i mode h
  refine ⟨fun n hn => textFailsWith_badMode (n := n) (hn ▸ h) s, fun hmode => ?_⟩
  obtain ⟨f, run, hexec, hrun⟩ := exec_text_transform h hmode s
  refine ⟨fun hlong => ?_, fun t hlen htext hsymbol => ?_⟩
  · rw [TextFailsWith, hexec, textCommand_tooLong hlong]; rfl
  · have hfail (e) (he : cipherKey s.cfg s.core = .error e) : TextFailsWith i s e :=
      textFailsWith_of_error hexec hlen htext (hrun t e (cryptText_eq_error hsymbol he))
    exact ⟨fun e he => hfail e (cipherKey_of_keyStream_error he),
      fun k hk hempty => hfail _ (cipherKey_of_empty hk hempty)⟩

/-! ### Success, or the error outcome alone -/

/-- A command's effect shows success, or an error with a code (10_state R42). -/
theorem commandEffect_outcome {cfg : Config} {c c' : CoreState} (h : CommandEffect cfg c c') :
    (c'.err = false ∧ c'.errCode = .none) ∨ (c'.err = true ∧ c'.errCode ≠ .none) := by
  cases h with
  | succeed r | set d hd | succeedText out => exact .inl ⟨rfl, rfl⟩
  | raise e he | raiseText e he => exact .inr ⟨rfl, he⟩

/-- A text command that shows an error has written nothing but its error outcome (45_modes R265). -/
theorem exec_text_of_err {i : Instr} {mode : Mode} (hi : i = .encrypt mode ∨ i = .decrypt mode) {s t : State}
    (h : exec i s = .next t) (herr : t.core.err = true) : TextFailsWith i s t.core.errCode := by
  obtain ⟨n, -, hbad⟩ | ⟨-, run, hrun⟩ := exec_text_shape hi
  · rw [hbad] at h; cases h; exact hbad s
  · obtain ⟨-, hnext⟩ | ⟨-, ⟨-, hfault⟩ | ⟨text, -, ⟨out, -, hnext⟩ | ⟨e, -, hnext⟩⟩⟩ := textCommand_cases (run s.cfg) s
    · rw [← hrun s, h] at hnext; cases hnext; exact h
    · rw [← hrun s, h] at hfault; cases hfault
    · rw [← hrun s, h] at hnext; cases hnext; cases herr
    · rw [← hrun s, h] at hnext; cases hnext; exact h

/-- A command that shows an error has written nothing but its error outcome (60_exceptions R301; 45_modes R265). -/
theorem exec_of_err {i : Instr} {s t : State} (h : exec i s = .next t) (herr : t.core.err = true) :
    ((∀ mode, i ≠ .encrypt mode ∧ i ≠ .decrypt mode) ∧ FailsWith i s t.core.errCode) ∨
    (∃ mode, (i = .encrypt mode ∨ i = .decrypt mode) ∧ TextFailsWith i s t.core.errCode) := by
  by_cases htext : ∃ mode, i = .encrypt mode ∨ i = .decrypt mode
  · obtain ⟨mode, hi⟩ := htext
    exact .inr ⟨mode, hi, exec_text_of_err hi h herr⟩
  · refine .inl ⟨fun mode => not_or.mp (not_exists.mp htext mode), ?_⟩
    cases exec_next h with
    | succeed r | set pid c hset | succeedText _ mode hi out => cases herr
    | raise e => exact h
    | raiseText _ mode hi e => exact absurd ⟨mode, hi⟩ htext

/-- Settles O38: the command's effect shows success or a code, and with a code nothing else is written. -/
theorem failedCommandsWriteOnlyTheError : Obligations.FailedCommandsWriteOnlyTheError := by
  intro i s t h
  obtain ⟨-, heffect⟩ := exec_effect h
  obtain hsuccess | ⟨herr, hcode⟩ := commandEffect_outcome heffect
  · exact .inl hsuccess
  · exact .inr ⟨t.core.errCode, hcode, exec_of_err h herr⟩

/-! ### The round trip -/

/-- Decrypting what was encrypted under the same configuration gives the text with its pad, before the strip
(45_modes R269). -/
theorem cryptText_decryptionOf_encryptionOf {cfg : Config} {c c' : CoreState} {mode : Mode} {t out : List Word}
    {k : KeyStream} {t1 t2 : Table} (hw : cfg.wf = true) (hpad : c.pad ∈ cfg.alphabet) (hsame : c'.inputs = c.inputs)
    (hkey : cipherKey cfg c = .ok (k, t1, t2)) (hout : cryptText cfg c (encryptionOf mode) t = .ok out) :
    cryptText cfg c' (decryptionOf mode) out = .ok (t ++ List.replicate ((cleanText cfg t).length % 2) c.pad) := by
  have hrounds : c'.rounds = c.rounds := show c'.inputs.rounds = c.inputs.rounds by rw [hsame]
  have hkey' : cipherKey cfg c' = .ok (k, t1, t2) := (congrArg (cipherKey cfg) hsame).trans hkey
  have hlen := length_blocksOf_padText cfg c.pad (cleanText cfg t)
  have heven : (padText c.pad (cleanText cfg t)).length % 2 = 0 := by rw [padText_length]; omega
  have hmem : ∀ ch ∈ padText c.pad (cleanText cfg t), ch ∈ cfg.alphabet := by
    intro ch hch
    rw [padText_eq, List.mem_append] at hch
    obtain hclean | hpads := hch
    · exact inAlphabet_iff.mp (List.mem_filter.mp hclean).2
    · exact List.eq_of_mem_replicate hpads ▸ hpad
  rw [cryptText_eq_ok (encryptionOf_length mode) hkey, encryptionOf_block] at hout
  obtain rfl := Except.ok.inj hout
  rw [← encryptionOf_length mode (encBlock t1 t2 k c.rounds.toNat)] at hlen
  obtain ⟨hclean, hpos⟩ := cleanText_getPositions_symbolsOf hw hlen
  rw [cryptText_eq_ok (decryptionOf_length mode) hkey', hclean, hpos,
    padText_of_even _ (by rw [symbolsOf_length, Nat.mul_mod_right]), blocksOf_symbolsOf hw, decryptionOf_block, hrounds,
    decryptionOf_encryptionOf (decBlock_encBlock t1 t2 k c.rounds.toNat), symbolsOf_blocksOf hw heven hmem, padText_eq,
    insertPositions_cleanText_append]

/-- DECRYPT of an encrypted text, in a state of the same configuration, leaves the text without its trailing PADs: the strip
takes the pad of the encryption too (45_modes R261, R269). -/
theorem decrypt_completesWith_stripPad {s s' : State} {mode : Mode} {t out : List Word} {k : KeyStream} {t1 t2 : Table}
    (hw : s.cfg.wf = true) (hpad : s.core.pad ∈ s.cfg.alphabet) (hready : CipherReady s k t1 t2)
    (hmode : mode = .ecb ∨ mode = .cbc) (hout : cryptText s.cfg s.core (encryptionOf mode) t = .ok out)
    (hcfg : s'.cfg = s.cfg) (hsame : s'.core.inputs = s.core.inputs) (hlen : s'.core.inLen.toNat ≤ s'.cfg.textMax)
    (htext : InputText s' out) : TextCompletesWith (.decrypt mode) s' (stripPad s.core.pad t) := by
  obtain ⟨hk, h1, h2⟩ := hready
  have hpads : s'.core.pad = s.core.pad := show s'.core.inputs.pad = s.core.inputs.pad by rw [hsame]
  refine textCompletesWith_of_ok (exec_decrypt_supported hmode s') hlen htext ?_
  rw [hcfg, decryptText_eq_ok (cryptText_decryptionOf_encryptionOf hw hpad hsame (cipherKey_of_loaded hk h1 h2) hout),
    hpads, stripPad_append_replicate]

/-- Entries that show the text out show the text t exactly when the two are the same. -/
theorem entries_show_iff {b : Buffer} {out t : List Word} (hread : ∀ j, j < out.length → b.read j = out[j]?) :
    (out.length = t.length ∧ ∀ j, j < t.length → b.read j = t[j]?) ↔ out = t := by
  refine ⟨fun ⟨hlen, ht⟩ => List.ext_getElem? fun j => ?_, fun h => h ▸ ⟨rfl, hread⟩⟩
  by_cases hj : j < out.length
  · rw [← hread j hj, ht j (hj.trans_eq hlen)]
  · rw [List.getElem?_eq_none (not_lt.mp hj), List.getElem?_eq_none (hlen ▸ not_lt.mp hj)]

theorem read_of_textEntries {b b' : Buffer} {out : List Word}
    (h : ∀ j, b.read j = if j < out.length then out[j]? else b'.read j) {j : Nat} (hj : j < out.length) :
    b.read j = out[j]? := (h j).trans (if_pos hj)

/-- A text that fits in TIN has its length in OUT_LEN and in IN_LEN as it is (00_scope R5; 10_state R26, R27). -/
theorem toNat_ofNat_length {n w : Nat} (hw : 16 ≤ w) (h : n ≤ 16383) : (BitVec.ofNat w n).toNat = n := by
  rw [BitVec.toNat_ofNat]
  exact Nat.mod_eq_of_lt ((Nat.lt_of_le_of_lt h (by decide : 16383 < 2 ^ 16)).trans_le
    (Nat.pow_le_pow_right (by decide) hw))

/-- A command that leaves the text out shows the text t to the host exactly when the two are the same. -/
theorem textCompletesWith_shows_iff {i : Instr} {s : State} {out t : List Word} (h : TextCompletesWith i s out)
    (hlen : out.length ≤ 16383) :
    ∃ v, exec i s = .next v ∧ v.core.err = false ∧
      ((v.core.outLen.toNat = t.length ∧ ∀ j, j < t.length → v.core.tout.read j = t[j]?) ↔ out = t) := by
  obtain ⟨tout, hexec, htout⟩ := h
  refine ⟨_, hexec, rfl, ?_⟩
  simp only [toNat_ofNat_length (by decide : 16 ≤ 32) hlen]
  exact entries_show_iff fun j hj => read_of_textEntries htout hj

/-- Settles O36: the decryption leaves the text stripped, which is the text exactly when it does not end in PAD. -/
theorem textRoundTripUnlessItEndsInPad : Obligations.TextRoundTripUnlessItEndsInPad := by
  intro s t mode k t1 t2 hinv htext hready hmode hfits
  obtain ⟨hw, ⟨-, -, -, hpad⟩, -, -⟩ := hinv
  have htextMax := textMax_le hw
  have hinLen : t.length = s.core.inLen.toNat := htext.1
  have hstripLen := stripPad_length_le s.core.pad t
  obtain ⟨out, hout, -, -, houtLen, -⟩ := cryptText_transforms hw hready rfl (encryptionOf_length mode) rfl
  obtain ⟨tout, hencrypt, htout⟩ := textCompletesWith_of_ok (exec_encrypt_supported hmode s) (by omega) htext hout
  have hlen32 : (BitVec.ofNat 32 out.length).toNat = out.length := toNat_ofNat_length (by decide) (by omega)
  have hlen16 : (BitVec.ofNat 16 out.length).toNat = out.length := toNat_ofNat_length (by decide) (by omega)
  refine ⟨_, hencrypt, rfl, fun tin htin => ?_⟩
  simp only [hlen32] at htin ⊢
  rw [← stripPad_eq_self_iff]
  have hciphertext (j) (hj : j < out.length) : tin.read j = out[j]? :=
    (htin j hj).trans (read_of_textEntries htout hj)
  exact textCompletesWith_shows_iff (decrypt_completesWith_stripPad hw hpad hready hmode hout rfl rfl
    ((hlen16.trans houtLen).trans_le hfits) ⟨hlen16.symm, hciphertext⟩) (hstripLen.trans (by omega))

end Sys2Proof.Machine
end

section
/-! PROOFS. 60_exceptions: the one fault of a command, and what the outcome of a command depends on. A command computes from
its inputs and its input text alone (`exec_from_inputs`), so two states that share them (`SameInputs`) get the same answer. -/

namespace Sys2Proof.Machine

/-! ### The fault -/

theorem textCommand_unwritten {run : CoreState → List Word → Except ErrorCode (List Word)} {s : State}
    (hlen : s.core.inLen.toNat ≤ s.cfg.textMax) (htext : s.core.tin.readText 0 s.core.inLen.toNat = none) :
    textCommand run s = .fault .unwrittenText := by
  simp [textCommand, Nat.not_lt.mpr hlen, htext]

/-- The four text commands of a supported mode (45_modes R262). -/
theorem exec_supportedText {i : Instr} (h : i ∈ [Instr.encrypt .ecb, .encrypt .cbc, .decrypt .ecb, .decrypt .cbc])
    (s : State) : ∃ run, exec i s = textCommand run s := by
  simp only [List.mem_cons, List.not_mem_nil, or_false] at h
  obtain rfl | rfl | rfl | rfl := h <;> exact ⟨_, rfl⟩

theorem exec_of_readsUnwrittenText {i : Instr} {s : State} (h : ReadsUnwrittenText i s) :
    exec i s = .fault .unwrittenText := by
  obtain ⟨hmem, hlen, k, hk, hnone⟩ := h
  obtain ⟨run, hrun⟩ := exec_supportedText hmem s
  rw [hrun]
  exact textCommand_unwritten hlen (Buffer.readText_eq_none.mpr ⟨k, hk, by rwa [Nat.zero_add]⟩)

/-- Settles O35: a command answers a next state or that fault, and the fault only where it reads an unwritten entry. -/
theorem onlyUnwrittenTextFaults : Obligations.OnlyUnwrittenTextFaults := by
  intro s i
  change _ ∧ _ ∧ (_ ↔ ReadsUnwrittenText i s)
  obtain ⟨t, hnext, -⟩ | ⟨hfault, hreads⟩ := exec_cases i s
  · have hnot : ¬ReadsUnwrittenText i s := fun h => by
      have hfault := exec_of_readsUnwrittenText h
      rw [hnext] at hfault
      cases hfault
    simp [hnext, hnot]
  · simp [hfault, hreads]

/-! ### States with the same inputs, outcomes that show the same -/

/-- Two states agree on what a command may read: the parameters, the operands and the configuration, and the text
TIN[0 … IN_LEN−1] (60_exceptions R304). -/
structure SameInputs (s s' : State) : Prop where
  cfg : s.cfg = s'.cfg
  inputs : s.core.inputs = s'.core.inputs
  inLen : s.core.inLen = s'.core.inLen
  tin : ∀ k, k < s.core.inLen.toNat → s.core.tin.read k = s'.core.tin.read k

/-- What a command leaves beside a text: ERR and ERRCODE, the results and the configuration. The items that no command writes
are blanked, and OUT_LEN and TOUT, which `SameText` compares. -/
def CoreState.report (c : CoreState) : CoreState :=
  { c with opa := 0#32, opb := 0#32, inLen := 0#16, outLen := 0#32, tin := [], tout := [] }

/-- Two outcomes of a text command show the same text: OUT_LEN, and after a success TOUT[0 … OUT_LEN−1]. -/
def SameText (c c' : CoreState) : Prop :=
  c.outLen = c'.outLen ∧ (c.err = false → ∀ k, k < c.outLen.toNat → c.tout.read k = c'.tout.read k)

theorem Buffer.readText_congr {b b' : Buffer} {k n : Nat} (h : ∀ j, j < n → b.read (k + j) = b'.read (k + j)) :
    b.readText k n = b'.readText k n := by
  refine Option.ext fun t => ?_
  rw [Buffer.readText_eq_some, Buffer.readText_eq_some]
  exact and_congr_right fun _ => forall₂_congr fun j hj => by rw [h j hj]

theorem SameInputs.readText {s s' : State} (h : SameInputs s s') :
    s.core.tin.readText 0 s.core.inLen.toNat = s'.core.tin.readText 0 s'.core.inLen.toNat := by
  rw [← h.inLen]
  exact Buffer.readText_congr fun j hj => by rw [Nat.zero_add]; exact h.tin j hj

section Outcomes

variable {c c' : CoreState} (h : c.inputs = c'.inputs)
include h

theorem succeed_report (r : Result) : (c.succeed r).report = (c'.succeed r).report :=
  congrArg (fun d => (d.succeed r).report) h

theorem raise_report (e : ErrorCode) : (c.raise e).report = (c'.raise e).report :=
  congrArg (fun d => (d.raise e).report) h

theorem complete_report (x : Except ErrorCode Result) : (c.complete x).report = (c'.complete x).report := by
  cases x with
  | ok r => exact succeed_report h r
  | error e => exact raise_report h e

theorem raiseText_same (e : ErrorCode) :
    (c.raiseText e).report = (c'.raiseText e).report ∧ SameText (c.raiseText e) (c'.raiseText e) :=
  ⟨raise_report h e, rfl, nofun⟩

/-- The text lies over whatever TOUT held (45_modes R263). -/
theorem succeedText_same (out : List Word) :
    (c.succeedText out).report = (c'.succeedText out).report ∧ SameText (c.succeedText out) (c'.succeedText out) := by
  refine ⟨succeed_report h {}, rfl, fun _ k hk => ?_⟩
  have hout : k < out.length := hk.trans_le ((BitVec.toNat_ofNat ..).trans_le (Nat.mod_le ..))
  simp [Buffer.read_writeText, hout]

end Outcomes

/-! ### What each kind of command does in states with the same inputs -/

/-- SETP sets the item that its inputs give, whatever the other items are (40_config R122). -/
theorem map_inputs_setParam (cfg : Config) (c : CoreState) (pid : Pid) :
    CoreState.inputs <$> setParam cfg c pid = setParam cfg c.inputs pid := by
  cases pid with
  | rounds | blockSize | encoding | p | q | sbox1 | sbox2 | pad => exact map_bind ..
  | keyLength | other n => rfl

section Commands

variable {s s' t : State} (hs : SameInputs s s')
include hs

theorem execSetp_reports_same {pid : Pid} (h : execSetp pid s = .next t) :
    ∃ t', execSetp pid s' = .next t' ∧ t.core.report = t'.core.report := by
  have hset : CoreState.inputs <$> setParam s.cfg s.core pid = CoreState.inputs <$> setParam s'.cfg s'.core pid := by
    rw [map_inputs_setParam, map_inputs_setParam, hs.cfg, hs.inputs]
  obtain ⟨c, hc, hnext⟩ | ⟨e, he, hnext⟩ := execSetp_cases pid s
  · rw [hnext] at h; cases h
    obtain ⟨c', hc', hnext'⟩ | ⟨e', he', -⟩ := execSetp_cases pid s'
    · rw [hc, hc'] at hset
      exact ⟨_, hnext', succeed_report (Except.ok.inj hset) {}⟩
    · rw [hc, he'] at hset; cases hset
  · rw [hnext] at h; cases h
    obtain ⟨c', hc', -⟩ | ⟨e', he', hnext'⟩ := execSetp_cases pid s'
    · rw [he, hc'] at hset; cases hset
    · rw [he, he'] at hset; cases hset
      exact ⟨_, hnext', raise_report hs.inputs e⟩

theorem textCommand_same {run : Config → CoreState → List Word → Except ErrorCode (List Word)}
    (h : textCommand (fun c => run s.cfg c.inputs) s = .next t) :
    ∃ t', textCommand (fun c => run s'.cfg c.inputs) s' = .next t' ∧
      t.core.report = t'.core.report ∧ SameText t.core t'.core := by
  have htextCommand := textCommand_cases (fun c => run s.cfg c.inputs) s
  rw [h, hs.readText, hs.inLen, hs.cfg, hs.inputs] at htextCommand
  obtain ⟨hlen, hnext⟩ | ⟨hlen, ⟨-, hfault⟩ | ⟨text, htext, ⟨out, hrun, hnext⟩ | ⟨e, hrun, hnext⟩⟩⟩ := htextCommand
  · cases hnext
    exact ⟨_, textCommand_tooLong hlen, raiseText_same hs.inputs _⟩
  · cases hfault
  · cases hnext
    exact ⟨_, textCommand_ok hlen htext hrun, succeedText_same hs.inputs out⟩
  · cases hnext
    exact ⟨_, textCommand_error hlen htext hrun, raiseText_same hs.inputs e⟩

theorem exec_reports_same {i : Instr} (h : exec i s = .next t) :
    ∃ t', exec i s' = .next t' ∧ t.core.report = t'.core.report := by
  obtain ⟨pid, rfl⟩ | ⟨f, hf⟩ | ⟨run, hrun⟩ | ⟨e, he⟩ := exec_from_inputs i
  · exact execSetp_reports_same hs h
  · rw [hf, hs.cfg] at h; cases h
    refine ⟨_, hf s', ?_⟩
    simp only [State.onCore, hs.inputs]
    exact complete_report hs.inputs _
  · rw [hrun] at h ⊢
    obtain ⟨t', ht', hreport, -⟩ := textCommand_same hs h
    exact ⟨t', ht', hreport⟩
  · rw [he] at h; cases h
    exact ⟨_, he s', raise_report hs.inputs e⟩

theorem exec_text_same {i : Instr} {mode : Mode} (hi : i = .encrypt mode ∨ i = .decrypt mode) (h : exec i s = .next t) :
    ∃ t', exec i s' = .next t' ∧ t.core.report = t'.core.report ∧ SameText t.core t'.core := by
  obtain ⟨n, -, hbad⟩ | ⟨hmode, -⟩ := exec_text_shape hi
  · rw [hbad] at h; cases h
    exact ⟨_, hbad s', raiseText_same hs.inputs _⟩
  · obtain rfl | rfl := hi
    · rw [exec_encrypt_supported hmode] at h ⊢
      exact textCommand_same (run := fun cfg c => encryptText cfg c (encryptionOf mode)) hs h
    · rw [exec_decrypt_supported hmode] at h ⊢
      exact textCommand_same (run := fun cfg c => decryptText cfg c (decryptionOf mode)) hs h

end Commands

/-- Settles O39: the report of any command, and the text of a text command, come from the inputs alone. -/
theorem outcomeDependsOnlyOnTheInputs : Obligations.OutcomeDependsOnlyOnTheInputs := by
  intro i s s' t hcfg hopa hopb hinLen htin hrounds hp hq hpad hsbox1 hsbox2 h
  have hinputs : s.core.inputs = s'.core.inputs := by
    simp [CoreState.inputs, hopa, hopb, hrounds, hp, hq, hpad, hsbox1, hsbox2]
  have hs : SameInputs s s' := ⟨hcfg, hinputs, hinLen, htin⟩
  obtain ⟨t', ht', hreport⟩ := exec_reports_same hs h
  have htext : (∃ mode, i = .encrypt mode ∨ i = .decrypt mode) → SameText t.core t'.core := fun ⟨mode, hi⟩ => by
    obtain ⟨u, hu, -, hsame⟩ := exec_text_same hs hi h
    rw [ht'] at hu; cases hu
    exact hsame
  simp only [CoreState.report, CoreState.mk.injEq, true_and] at hreport
  obtain ⟨hres0, hres1, hrlen, herr, herrCode, hrounds, hp, hq, hpad, hsbox1, hsbox2⟩ := hreport
  exact ⟨t', ht', herr, herrCode, hres0, hres1, hrlen, hrounds, hp, hq, hpad, hsbox1, hsbox2, htext⟩

end Sys2Proof.Machine
end

section
/-! PROOFS. 70_reset: a command that reset cuts short runs nothing of itself. It only asserts the reset input, and the release
then sets every item of the core (O47). -/

namespace Sys2Proof.Machine

/-- A step that takes a cut CMD write asserts reset and leaves the core as it was, whatever the word (93 U4, log 8). -/
theorem step_cutCommand {s : State} {w : Word} {rest : List Event} (hl : s.bus.line = .released)
    (hp : s.bus.pending = .cutCommand w :: rest) :
    step s = .next { s with bus := { s.bus with pending := rest, line := .assertedMidCommand } } := by
  simp only [step, nextEvent, hp]
  exact performEvent_released (s := { s with bus := { s.bus with pending := rest } }) (.cutCommand w) hl

/-- Settles O48: the cut leaves the reset input asserted, and the release then gives the reset values. -/
theorem cutCommandLeavesTheResetState : Obligations.CutCommandLeavesTheResetState := by
  intro s w rest hl hp
  have hrelease := (releasedResetGivesTheResetState (s.setLine .assertedMidCommand) rest (.inr rfl)).1
  calc Host.Core.run Sys2Proof.core 2 s
    _ = Host.Core.run Sys2Proof.core 1
          { s with bus := { s.bus with pending := .releaseReset :: rest, line := .assertedMidCommand } } :=
        run_succ 1 (step_cutCommand hl hp)
    _ = .next { s with core := CoreState.reset s.cfg, bus := { s.bus with pending := rest, line := .released } } :=
        run_succ 0 hrelease
    _ = .next { s with core := CoreState.reset s.cfg, bus := { s.bus with pending := rest } } := by rw [← hl]

end Sys2Proof.Machine
end
